-- ==== Sys2Proof/Word.lean ====
section
/-!
DEFINITION. The register width and the machine word (`00_scope.md` rules R4, R5, R6).

The spec leaves the width a parameter with exactly two values (R4, decision D2), so every
definition of the model takes the width `x : XLen` and no definition fixes it.
-/

namespace Sys2Proof

/-- The parameter `XLEN` of rule R4: 32 or 64, no other value exists (U14). -/
inductive XLen where
  | x32
  | x64
  deriving DecidableEq, Repr

/-- The number of bits the parameter stands for. -/
def XLen.bits : XLen → Nat
  | .x32 => 32
  | .x64 => 64

/-- An XLEN-bit pattern (rule R6): a register's contents, an address, the `pc`, an ALU value. -/
abbrev Word (x : XLen) := BitVec x.bits

/-- One byte of memory. -/
abbrev Byte := BitVec 8

/-- A 32-bit InstructionWord (rule R50). -/
abbrev InstrWord := BitVec 32

/-- A 5-bit register index (rule R10). -/
abbrev RegIndex := BitVec 5

@[simp] theorem XLen.bits_x32 : XLen.x32.bits = 32 := rfl

@[simp] theorem XLen.bits_x64 : XLen.x64.bits = 64 := rfl

theorem XLen.bits_pos (x : XLen) : 0 < x.bits := by cases x <;> decide

theorem XLen.bits_ge (x : XLen) : 32 ≤ x.bits := by cases x <;> decide

end Sys2Proof
end

