-- ==== Sys2Proof/Config.lean ====
section
/-!
DEFINITION. What is fixed for a run: the parameters of `00_scope.md` rule R4.

They are plain data that a machine carries and no step changes (rule R4: "A parameter is fixed for
a run and is not state"; rule R16: "fixed before reset and never changed by the core").  A statement
about every state is therefore a statement about every value of the parameters.  The spec leaves no
value free in the sense of an unconstrained result, so this file has no opaque constant.
-/

namespace Sys2Proof

/-- `MISALIGNED_POLICY` of rule R31: what the external memory does with a data access whose address
is not a multiple of its size. -/
inductive MisalignedPolicy where
  | fault
  | split
  deriving DecidableEq, Repr

/-- A run of byte addresses the host populated (rule R36): `size` addresses from `base` on. -/
structure Region where
  base : Nat
  size : Nat
  deriving DecidableEq, Repr

/-- The parameters of rule R4 that hold for a whole run.  `XLEN` is the type index of the machine,
`ENTRY_PC` and `X_INIT` act at reset only (`ResetValues` in `Machine/State.lean`). -/
structure Config where
  /-- `pipelining` of rule R16: overlap of instructions, or one instruction at a time. -/
  pipelining : Bool
  /-- `debugMode` of rule R16: the diagnostic channel is on. -/
  debugMode  : Bool
  /-- `SENTINEL_WORD` of rule R69. -/
  sentinel   : InstrWord
  /-- `MISALIGNED_POLICY` of rule R31. -/
  misaligned : MisalignedPolicy
  /-- The memory's extent (rule R36): the regions whose bytes the host populated. -/
  extent     : List Region
  deriving DecidableEq, Repr

/-- The parameters `State.reset` is built with.  DESIGN CHOICE (log entries 2, 6, 7): pipelining on,
diagnostics off, the conservative misalignment policy the spec calls the default, every address of
the address space populated.  PRESUMED (log entry 3): the sentinel value of the spec's test vectors. -/
def Config.atReset : Config where
  pipelining := true
  debugMode  := false
  sentinel   := 0xDDFFCCFF#32
  misaligned := .fault
  extent     := [{ base := 0, size := 2 ^ 64 }]

end Sys2Proof
end

