-- ==== Sys2Proof/Syntax.lean ====
section
/-!
DEFINITION. The instructions: one constructor per row of `opcode_table.json` (rule R63), 40 rows.

Operands are the fields of the encoding as `30_encoding.md` names them.  An immediate is kept at the
width of its layout before sign extension: 12 bits for I and S (rules R54, R55), 13 bits with bit 0
clear for B (R56), the 20-bit field `w[31:12]` for U (R57, R67), 21 bits with bit 0 clear for
J (R58), and the 6-bit `shamt` for the shift-immediates (R61).
-/

namespace Sys2Proof

inductive Instr where
  -- OP, register-register (`44_int_register_register.md`)
  | add   (rd rs1 rs2 : RegIndex)
  | sub   (rd rs1 rs2 : RegIndex)
  | sll   (rd rs1 rs2 : RegIndex)
  | slt   (rd rs1 rs2 : RegIndex)
  | sltu  (rd rs1 rs2 : RegIndex)
  | xor   (rd rs1 rs2 : RegIndex)
  | srl   (rd rs1 rs2 : RegIndex)
  | sra   (rd rs1 rs2 : RegIndex)
  | or    (rd rs1 rs2 : RegIndex)
  | and   (rd rs1 rs2 : RegIndex)
  -- OP-IMM, LUI, AUIPC (`45_int_register_immediate.md`)
  | addi  (rd rs1 : RegIndex) (imm : BitVec 12)
  | slti  (rd rs1 : RegIndex) (imm : BitVec 12)
  | sltiu (rd rs1 : RegIndex) (imm : BitVec 12)
  | xori  (rd rs1 : RegIndex) (imm : BitVec 12)
  | ori   (rd rs1 : RegIndex) (imm : BitVec 12)
  | andi  (rd rs1 : RegIndex) (imm : BitVec 12)
  | slli  (rd rs1 : RegIndex) (shamt : BitVec 6)
  | srli  (rd rs1 : RegIndex) (shamt : BitVec 6)
  | srai  (rd rs1 : RegIndex) (shamt : BitVec 6)
  | lui   (rd : RegIndex) (imm20 : BitVec 20)
  | auipc (rd : RegIndex) (imm20 : BitVec 20)
  -- LOAD, STORE (`46_loads_stores.md`)
  | lb    (rd rs1 : RegIndex) (imm : BitVec 12)
  | lh    (rd rs1 : RegIndex) (imm : BitVec 12)
  | lw    (rd rs1 : RegIndex) (imm : BitVec 12)
  | lbu   (rd rs1 : RegIndex) (imm : BitVec 12)
  | lhu   (rd rs1 : RegIndex) (imm : BitVec 12)
  | lwu   (rd rs1 : RegIndex) (imm : BitVec 12)
  | ld    (rd rs1 : RegIndex) (imm : BitVec 12)
  | sb    (rs2 rs1 : RegIndex) (imm : BitVec 12)
  | sh    (rs2 rs1 : RegIndex) (imm : BitVec 12)
  | sw    (rs2 rs1 : RegIndex) (imm : BitVec 12)
  | sd    (rs2 rs1 : RegIndex) (imm : BitVec 12)
  -- BRANCH, JAL, JALR (`47_control_transfer.md`)
  | beq   (rs1 rs2 : RegIndex) (imm : BitVec 13)
  | bne   (rs1 rs2 : RegIndex) (imm : BitVec 13)
  | blt   (rs1 rs2 : RegIndex) (imm : BitVec 13)
  | bge   (rs1 rs2 : RegIndex) (imm : BitVec 13)
  | bltu  (rs1 rs2 : RegIndex) (imm : BitVec 13)
  | bgeu  (rs1 rs2 : RegIndex) (imm : BitVec 13)
  | jal   (rd : RegIndex) (imm : BitVec 21)
  | jalr  (rd rs1 : RegIndex) (imm : BitVec 12)
  deriving DecidableEq, Repr

end Sys2Proof
end

