-- ==== Sys2Proof/WellFormed.lean ====
section
/-!
DEFINITION. Which terms of `Instr` are instructions of a machine of width `x`.

Three checks: a branch or jump offset is even (rules R56, R58); a shift amount fits the width
(rules R61, R197); LWU, LD and SD exist only at `XLEN = 64` (rules R62, R63).
-/

namespace Sys2Proof

/-- Bit 0 of a branch or jump offset is 0 (rules R56, R58: "even values only; LSB forced to 0"). -/
def evenOffset {n : Nat} (imm : BitVec n) : Bool := !imm.getLsbD 0

/-- The shift amounts of a width (rule R61): 5 bits at `XLEN = 32`, 6 bits at `XLEN = 64`. -/
def shamtFits (x : XLen) (shamt : BitVec 6) : Bool :=
  match x with
  | .x32 => !shamt.getLsbD 5
  | .x64 => true

/-- The rows of the opcode table marked `"xlen": 64` exist at that width only (rule R63). -/
def only64 (x : XLen) : Bool :=
  match x with
  | .x32 => false
  | .x64 => true

/-- `i` is an instruction of a machine of width `x`. -/
def Instr.wellFormed (x : XLen) : Instr → Bool
  | .add _ _ _ => true
  | .sub _ _ _ => true
  | .sll _ _ _ => true
  | .slt _ _ _ => true
  | .sltu _ _ _ => true
  | .xor _ _ _ => true
  | .srl _ _ _ => true
  | .sra _ _ _ => true
  | .or _ _ _ => true
  | .and _ _ _ => true
  | .addi _ _ _ => true
  | .slti _ _ _ => true
  | .sltiu _ _ _ => true
  | .xori _ _ _ => true
  | .ori _ _ _ => true
  | .andi _ _ _ => true
  | .slli _ _ shamt => shamtFits x shamt
  | .srli _ _ shamt => shamtFits x shamt
  | .srai _ _ shamt => shamtFits x shamt
  | .lui _ _ => true
  | .auipc _ _ => true
  | .lb _ _ _ => true
  | .lh _ _ _ => true
  | .lw _ _ _ => true
  | .lbu _ _ _ => true
  | .lhu _ _ _ => true
  | .lwu _ _ _ => only64 x
  | .ld _ _ _ => only64 x
  | .sb _ _ _ => true
  | .sh _ _ _ => true
  | .sw _ _ _ => true
  | .sd _ _ _ => only64 x
  | .beq _ _ imm => evenOffset imm
  | .bne _ _ imm => evenOffset imm
  | .blt _ _ imm => evenOffset imm
  | .bge _ _ imm => evenOffset imm
  | .bltu _ _ imm => evenOffset imm
  | .bgeu _ _ imm => evenOffset imm
  | .jal _ imm => evenOffset imm
  | .jalr _ _ _ => true

end Sys2Proof
end

