-- ==== Sys2Proof/Decode.lean ====
section
/-!
DEFINITION. The decoder block (`40_decoder.md`), the row matcher of rule R63, and the encoder.

Decoding has the two parts the spec gives it.  `decodeFields` is the hardware's `decode` (rule R70):
it classifies by the opcode alone, extracts the fields and the sign-extended immediate, and does not
know instructions (rule R76).  `instrOfFields` finds the row of rule R62 that the function codes
select at the width, if any (rule R63, step 3).  A word whose opcode is known and that no row matches
is no instruction and is not illegal: it is the safe no-op of rule R66.
-/

namespace Sys2Proof

/-! ## Fields (rule R51) -/

def opcodeOf (w : InstrWord) : BitVec 7 := w.extractLsb' 0 7
def rdOf     (w : InstrWord) : RegIndex := w.extractLsb' 7 5
def funct3Of (w : InstrWord) : BitVec 3 := w.extractLsb' 12 3
def rs1Of    (w : InstrWord) : RegIndex := w.extractLsb' 15 5
def rs2Of    (w : InstrWord) : RegIndex := w.extractLsb' 20 5
def funct7Of (w : InstrWord) : BitVec 7 := w.extractLsb' 25 7

/-- Rule R28: the encoding format, a function of the opcode alone. -/
inductive Format where
  | R | I | S | B | U | J | Unknown
  deriving DecidableEq, Repr

/-- The opcode-to-format map of rule R52; every value outside the nine is `Unknown` (rule R64). -/
def formatOf (opcode : BitVec 7) : Format :=
  match opcode with
  | 0b0110011#7 => .R
  | 0b0010011#7 => .I
  | 0b0000011#7 => .I
  | 0b1100111#7 => .I
  | 0b0100011#7 => .S
  | 0b1100011#7 => .B
  | 0b0110111#7 => .U
  | 0b0010111#7 => .U
  | 0b1101111#7 => .J
  | _ => .Unknown

/-! ## Immediate layouts (rules R54 to R58), at their own widths -/

/-- Rule R54. -/
def immI (w : InstrWord) : BitVec 12 := w.extractLsb' 20 12

/-- Rule R55. -/
def immS (w : InstrWord) : BitVec 12 := w.extractLsb' 25 7 ++ w.extractLsb' 7 5

/-- Rule R56. -/
def immB (w : InstrWord) : BitVec 13 :=
  w.extractLsb' 31 1 ++ w.extractLsb' 7 1 ++ w.extractLsb' 25 6 ++ w.extractLsb' 8 4 ++ 0#1

/-- Rule R57: the 32-bit value whose low 12 bits are zero. -/
def immU (w : InstrWord) : BitVec 32 := w.extractLsb' 12 20 ++ 0#12

/-- Rule R58. -/
def immJ (w : InstrWord) : BitVec 21 :=
  w.extractLsb' 31 1 ++ w.extractLsb' 12 8 ++ w.extractLsb' 20 1 ++ w.extractLsb' 21 10 ++ 0#1

/-- `sext_N` of rule R6: every immediate is extended with its top bit (rule R59). -/
def sext (x : XLen) {n : Nat} (v : BitVec n) : Word x := v.signExtend x.bits

/-- The immediate of a U-format row from its 20-bit field (rules R57, R200). -/
def upperImmediate (x : XLen) (imm20 : BitVec 20) : Word x := sext x (imm20 ++ 0#12)

/-! ## `decode` (rules R70 to R75) -/

/-- Rule R26. -/
structure DecodedFields (x : XLen) where
  opcode    : BitVec 7
  funct3    : BitVec 3
  funct7    : BitVec 7
  rs1       : RegIndex
  rs2       : RegIndex
  rd        : RegIndex
  immediate : Word x
  format    : Format
  deriving DecidableEq, Repr

/-- Why bytes or a word are no instruction of the table. -/
inductive DecodeReject where
  /-- Fewer than four bytes (rule R50: every instruction is one 32-bit word). -/
  | truncated
  /-- The opcode is not in the map (rules R64, R65, R72). -/
  | illegalInstruction
  /-- The opcode is known and no row matches: the safe no-op of rule R66, not an error. -/
  | safeNoOp
  deriving DecidableEq, Repr

def Format.hasRs1 : Format → Bool
  | .R | .I | .S | .B => true
  | .U | .J | .Unknown => false

def Format.hasRs2 : Format → Bool
  | .R | .S | .B => true
  | .I | .U | .J | .Unknown => false

def Format.hasRd : Format → Bool
  | .R | .I | .U | .J => true
  | .S | .B | .Unknown => false

/-- Rule R75: the sign-extended immediate of a word of the given format; 0 for R (rule R53). -/
def immediateOf (x : XLen) (format : Format) (w : InstrWord) : Word x :=
  match format with
  | .R => 0
  | .I => sext x (immI w)
  | .S => sext x (immS w)
  | .B => sext x (immB w)
  | .U => sext x (immU w)
  | .J => sext x (immJ w)
  | .Unknown => 0

/-- Rules R73 to R75: the record of a word taken as one of the given format.  An index the format
lacks is 0 (rule R60); `opcode`, `funct3`, `funct7` are the raw bits always. -/
def fieldsAs (x : XLen) (format : Format) (w : InstrWord) : DecodedFields x where
  opcode    := opcodeOf w
  funct3    := funct3Of w
  funct7    := funct7Of w
  rs1       := if format.hasRs1 then rs1Of w else 0
  rs2       := if format.hasRs2 then rs2Of w else 0
  rd        := if format.hasRd then rdOf w else 0
  immediate := immediateOf x format w
  format    := format

/-- `decode` of rule R70: the fields, or the failure `IllegalInstruction` for an `Unknown` format
(rule R72). -/
def decodeFields (x : XLen) (w : InstrWord) : Except DecodeReject (DecodedFields x) :=
  match formatOf (opcodeOf w) with
  | .Unknown => .error .illegalInstruction
  | format => .ok (fieldsAs x format w)

/-! ## The rows of rule R62 -/

/-- The upper immediate bits of a shift-immediate (rule R61): `funct7` at `XLEN = 32`, `funct7[6:1]`
at `XLEN = 64`; `some false` is the logical shift, `some true` the arithmetic one. -/
def shiftSelector (x : XLen) (funct7 : BitVec 7) : Option Bool :=
  match x with
  | .x32 =>
    match funct7 with
    | 0b0000000#7 => some false
    | 0b0100000#7 => some true
    | _ => none
  | .x64 =>
    match funct7.extractLsb' 1 6 with
    | 0b000000#6 => some false
    | 0b010000#6 => some true
    | _ => none

/-- The OP rows (rule R62): selected by `funct3` and `funct7`. -/
def opRow {x : XLen} (f : DecodedFields x) : Option Instr :=
  match f.funct7 with
  | 0b0000000#7 =>
    match f.funct3 with
    | 0b000#3 => some (.add f.rd f.rs1 f.rs2)
    | 0b001#3 => some (.sll f.rd f.rs1 f.rs2)
    | 0b010#3 => some (.slt f.rd f.rs1 f.rs2)
    | 0b011#3 => some (.sltu f.rd f.rs1 f.rs2)
    | 0b100#3 => some (.xor f.rd f.rs1 f.rs2)
    | 0b101#3 => some (.srl f.rd f.rs1 f.rs2)
    | 0b110#3 => some (.or f.rd f.rs1 f.rs2)
    | _ => some (.and f.rd f.rs1 f.rs2)
  | 0b0100000#7 =>
    match f.funct3 with
    | 0b000#3 => some (.sub f.rd f.rs1 f.rs2)
    | 0b101#3 => some (.sra f.rd f.rs1 f.rs2)
    | _ => none
  | _ => none

/-- The OP-IMM rows (rules R61, R62). -/
def opImmRow {x : XLen} (f : DecodedFields x) : Option Instr :=
  let imm : BitVec 12 := f.immediate.setWidth 12
  let shamt : BitVec 6 := f.immediate.setWidth 6
  match f.funct3 with
  | 0b000#3 => some (.addi f.rd f.rs1 imm)
  | 0b001#3 =>
    match shiftSelector x f.funct7 with
    | some false => some (.slli f.rd f.rs1 shamt)
    | _ => none
  | 0b010#3 => some (.slti f.rd f.rs1 imm)
  | 0b011#3 => some (.sltiu f.rd f.rs1 imm)
  | 0b100#3 => some (.xori f.rd f.rs1 imm)
  | 0b101#3 =>
    match shiftSelector x f.funct7 with
    | some false => some (.srli f.rd f.rs1 shamt)
    | some true => some (.srai f.rd f.rs1 shamt)
    | none => none
  | 0b110#3 => some (.ori f.rd f.rs1 imm)
  | _ => some (.andi f.rd f.rs1 imm)

/-- The LOAD rows (rule R62); LD and LWU only at `XLEN = 64`. -/
def loadRow {x : XLen} (f : DecodedFields x) : Option Instr :=
  let imm : BitVec 12 := f.immediate.setWidth 12
  match f.funct3 with
  | 0b000#3 => some (.lb f.rd f.rs1 imm)
  | 0b001#3 => some (.lh f.rd f.rs1 imm)
  | 0b010#3 => some (.lw f.rd f.rs1 imm)
  | 0b011#3 => if only64 x then some (.ld f.rd f.rs1 imm) else none
  | 0b100#3 => some (.lbu f.rd f.rs1 imm)
  | 0b101#3 => some (.lhu f.rd f.rs1 imm)
  | 0b110#3 => if only64 x then some (.lwu f.rd f.rs1 imm) else none
  | _ => none

/-- The STORE rows (rule R62); SD only at `XLEN = 64`. -/
def storeRow {x : XLen} (f : DecodedFields x) : Option Instr :=
  let imm : BitVec 12 := f.immediate.setWidth 12
  match f.funct3 with
  | 0b000#3 => some (.sb f.rs2 f.rs1 imm)
  | 0b001#3 => some (.sh f.rs2 f.rs1 imm)
  | 0b010#3 => some (.sw f.rs2 f.rs1 imm)
  | 0b011#3 => if only64 x then some (.sd f.rs2 f.rs1 imm) else none
  | _ => none

/-- The BRANCH rows (rule R62). -/
def branchRow {x : XLen} (f : DecodedFields x) : Option Instr :=
  let imm : BitVec 13 := f.immediate.setWidth 13
  match f.funct3 with
  | 0b000#3 => some (.beq f.rs1 f.rs2 imm)
  | 0b001#3 => some (.bne f.rs1 f.rs2 imm)
  | 0b100#3 => some (.blt f.rs1 f.rs2 imm)
  | 0b101#3 => some (.bge f.rs1 f.rs2 imm)
  | 0b110#3 => some (.bltu f.rs1 f.rs2 imm)
  | 0b111#3 => some (.bgeu f.rs1 f.rs2 imm)
  | _ => none

/-- The JALR row (rule R62): `funct3 = 000` only. -/
def jalrRow {x : XLen} (f : DecodedFields x) : Option Instr :=
  match f.funct3 with
  | 0b000#3 => some (.jalr f.rd f.rs1 (f.immediate.setWidth 12))
  | _ => none

/-- The row of rule R62 that the fields select at the width, `none` where no row matches (R66). -/
def instrOfFields {x : XLen} (f : DecodedFields x) : Option Instr :=
  match f.opcode with
  | 0b0110011#7 => opRow f
  | 0b0010011#7 => opImmRow f
  | 0b0000011#7 => loadRow f
  | 0b0100011#7 => storeRow f
  | 0b1100011#7 => branchRow f
  | 0b0110111#7 => some (.lui f.rd (f.immediate.extractLsb' 12 20))
  | 0b0010111#7 => some (.auipc f.rd (f.immediate.extractLsb' 12 20))
  | 0b1101111#7 => some (.jal f.rd (f.immediate.setWidth 21))
  | 0b1100111#7 => jalrRow f
  | _ => none

/-- The instruction a word is at width `x`, or why it is none (rule R63, steps 2 to 4). -/
def decodeInstr (x : XLen) (w : InstrWord) : Except DecodeReject Instr :=
  match decodeFields x w with
  | .error e => .error e
  | .ok f =>
    match instrOfFields f with
    | some i => .ok i
    | none => .error .safeNoOp

/-- Rule R63, step 1 before the others: the word `SENTINEL_WORD` is never decoded (rule R69). -/
inductive WordClass where
  | sentinel
  | illegal
  | safeNoOp
  | instr (i : Instr)
  deriving DecidableEq, Repr

/-- What a fetched word is to the whole hardware (rule R63). -/
def classifyWord (x : XLen) (sentinel w : InstrWord) : WordClass :=
  if w = sentinel then .sentinel
  else
    match decodeInstr x w with
    | .ok i => .instr i
    | .error .safeNoOp => .safeNoOp
    | .error _ => .illegal

/-! ## Words as bytes (rule R30: little-endian, the lowest address holds bits 7:0) -/

/-- The first four bytes as a word, with the bytes after them; `none` if there are fewer. -/
def wordOfBytes : List Byte → Option (InstrWord × List Byte)
  | b0 :: b1 :: b2 :: b3 :: rest => some (b3 ++ b2 ++ b1 ++ b0, rest)
  | _ => none

/-- The four bytes of a word, lowest address first. -/
def bytesOfWord (w : InstrWord) : List Byte :=
  [w.extractLsb' 0 8, w.extractLsb' 8 8, w.extractLsb' 16 8, w.extractLsb' 24 8]

/-- Decoding of any bytes: the instruction and the bytes after it, or a rejection by name. -/
def decodeBytes (x : XLen) (bytes : List Byte) : Except DecodeReject (Instr × List Byte) :=
  match wordOfBytes bytes with
  | none => .error .truncated
  | some (w, rest) =>
    match decodeInstr x w with
    | .ok i => .ok (i, rest)
    | .error e => .error e

/-- The word of a table row given as a number: its low `nbits` bits, the bits above them zero. -/
def tableWord (nbits w : Nat) : InstrWord := BitVec.ofNat 32 (w % 2 ^ nbits)

/-- The instruction the decoder reads from a word numbered as `opcode_table.json` numbers it, at the
width all 40 rows exist at (DEDUCED, log entry 22). -/
def decodeTableWord (nbits w : Nat) : Option Instr :=
  match decodeBytes .x64 (bytesOfWord (tableWord nbits w)) with
  | .ok (i, _) => some i
  | .error _ => none

/-! ## The encoder, from the layouts of rules R53 to R58 -/

/-- Rule R53. -/
def encodeR (funct7 : BitVec 7) (rs2 rs1 : RegIndex) (funct3 : BitVec 3) (rd : RegIndex)
    (opcode : BitVec 7) : InstrWord :=
  funct7 ++ rs2 ++ rs1 ++ funct3 ++ rd ++ opcode

/-- Rule R54. -/
def encodeI (imm : BitVec 12) (rs1 : RegIndex) (funct3 : BitVec 3) (rd : RegIndex)
    (opcode : BitVec 7) : InstrWord :=
  imm ++ rs1 ++ funct3 ++ rd ++ opcode

/-- Rule R55. -/
def encodeS (imm : BitVec 12) (rs2 rs1 : RegIndex) (funct3 : BitVec 3) (opcode : BitVec 7) :
    InstrWord :=
  imm.extractLsb' 5 7 ++ rs2 ++ rs1 ++ funct3 ++ imm.extractLsb' 0 5 ++ opcode

/-- Rule R56. -/
def encodeB (imm : BitVec 13) (rs2 rs1 : RegIndex) (funct3 : BitVec 3) (opcode : BitVec 7) :
    InstrWord :=
  imm.extractLsb' 12 1 ++ imm.extractLsb' 5 6 ++ rs2 ++ rs1 ++ funct3 ++
    imm.extractLsb' 1 4 ++ imm.extractLsb' 11 1 ++ opcode

/-- Rule R57. -/
def encodeU (imm20 : BitVec 20) (rd : RegIndex) (opcode : BitVec 7) : InstrWord :=
  imm20 ++ rd ++ opcode

/-- Rule R58. -/
def encodeJ (imm : BitVec 21) (rd : RegIndex) (opcode : BitVec 7) : InstrWord :=
  imm.extractLsb' 20 1 ++ imm.extractLsb' 1 10 ++ imm.extractLsb' 11 1 ++
    imm.extractLsb' 12 8 ++ rd ++ opcode

/-- The word of an instruction (rules R61, R62). -/
def encode : Instr → InstrWord
  | .add rd rs1 rs2 => encodeR 0b0000000#7 rs2 rs1 0b000#3 rd 0b0110011#7
  | .sub rd rs1 rs2 => encodeR 0b0100000#7 rs2 rs1 0b000#3 rd 0b0110011#7
  | .sll rd rs1 rs2 => encodeR 0b0000000#7 rs2 rs1 0b001#3 rd 0b0110011#7
  | .slt rd rs1 rs2 => encodeR 0b0000000#7 rs2 rs1 0b010#3 rd 0b0110011#7
  | .sltu rd rs1 rs2 => encodeR 0b0000000#7 rs2 rs1 0b011#3 rd 0b0110011#7
  | .xor rd rs1 rs2 => encodeR 0b0000000#7 rs2 rs1 0b100#3 rd 0b0110011#7
  | .srl rd rs1 rs2 => encodeR 0b0000000#7 rs2 rs1 0b101#3 rd 0b0110011#7
  | .sra rd rs1 rs2 => encodeR 0b0100000#7 rs2 rs1 0b101#3 rd 0b0110011#7
  | .or rd rs1 rs2 => encodeR 0b0000000#7 rs2 rs1 0b110#3 rd 0b0110011#7
  | .and rd rs1 rs2 => encodeR 0b0000000#7 rs2 rs1 0b111#3 rd 0b0110011#7
  | .addi rd rs1 imm => encodeI imm rs1 0b000#3 rd 0b0010011#7
  | .slti rd rs1 imm => encodeI imm rs1 0b010#3 rd 0b0010011#7
  | .sltiu rd rs1 imm => encodeI imm rs1 0b011#3 rd 0b0010011#7
  | .xori rd rs1 imm => encodeI imm rs1 0b100#3 rd 0b0010011#7
  | .ori rd rs1 imm => encodeI imm rs1 0b110#3 rd 0b0010011#7
  | .andi rd rs1 imm => encodeI imm rs1 0b111#3 rd 0b0010011#7
  | .slli rd rs1 shamt => encodeI (0b000000#6 ++ shamt) rs1 0b001#3 rd 0b0010011#7
  | .srli rd rs1 shamt => encodeI (0b000000#6 ++ shamt) rs1 0b101#3 rd 0b0010011#7
  | .srai rd rs1 shamt => encodeI (0b010000#6 ++ shamt) rs1 0b101#3 rd 0b0010011#7
  | .lui rd imm20 => encodeU imm20 rd 0b0110111#7
  | .auipc rd imm20 => encodeU imm20 rd 0b0010111#7
  | .lb rd rs1 imm => encodeI imm rs1 0b000#3 rd 0b0000011#7
  | .lh rd rs1 imm => encodeI imm rs1 0b001#3 rd 0b0000011#7
  | .lw rd rs1 imm => encodeI imm rs1 0b010#3 rd 0b0000011#7
  | .lbu rd rs1 imm => encodeI imm rs1 0b100#3 rd 0b0000011#7
  | .lhu rd rs1 imm => encodeI imm rs1 0b101#3 rd 0b0000011#7
  | .lwu rd rs1 imm => encodeI imm rs1 0b110#3 rd 0b0000011#7
  | .ld rd rs1 imm => encodeI imm rs1 0b011#3 rd 0b0000011#7
  | .sb rs2 rs1 imm => encodeS imm rs2 rs1 0b000#3 0b0100011#7
  | .sh rs2 rs1 imm => encodeS imm rs2 rs1 0b001#3 0b0100011#7
  | .sw rs2 rs1 imm => encodeS imm rs2 rs1 0b010#3 0b0100011#7
  | .sd rs2 rs1 imm => encodeS imm rs2 rs1 0b011#3 0b0100011#7
  | .beq rs1 rs2 imm => encodeB imm rs2 rs1 0b000#3 0b1100011#7
  | .bne rs1 rs2 imm => encodeB imm rs2 rs1 0b001#3 0b1100011#7
  | .blt rs1 rs2 imm => encodeB imm rs2 rs1 0b100#3 0b1100011#7
  | .bge rs1 rs2 imm => encodeB imm rs2 rs1 0b101#3 0b1100011#7
  | .bltu rs1 rs2 imm => encodeB imm rs2 rs1 0b110#3 0b1100011#7
  | .bgeu rs1 rs2 imm => encodeB imm rs2 rs1 0b111#3 0b1100011#7
  | .jal rd imm => encodeJ imm rd 0b1101111#7
  | .jalr rd rs1 imm => encodeI imm rs1 0b000#3 rd 0b1100111#7

/-- The bytes of an instruction as the memory holds them. -/
def encodeBytes (i : Instr) : List Byte := bytesOfWord (encode i)

/-- The record a word's fields make, whatever its opcode (rules R73 to R75). -/
def fieldsOfWord (x : XLen) (w : InstrWord) : DecodedFields x :=
  fieldsAs x (formatOf (opcodeOf w)) w

/-- The DecodedFields an instruction travels through the pipeline with. -/
def Instr.fields (x : XLen) (i : Instr) : DecodedFields x := fieldsOfWord x (encode i)

/-! ## The machine-readable table (rule R63) -/

/-- One row of `opcode_table.json`: a word is the row's instruction when `w &&& mask = match`. -/
structure TableRow where
  mnemonic : String
  mask     : InstrWord
  value    : InstrWord
  deriving DecidableEq, Repr

/-- The mask of a shift-immediate row (rules R63, R190). -/
def shiftMask : XLen → InstrWord
  | .x32 => 0xFE00707F#32
  | .x64 => 0xFC00707F#32

def opRows : List TableRow :=
  [⟨"ADD", 0xFE00707F#32, 0x00000033#32⟩, ⟨"SUB", 0xFE00707F#32, 0x40000033#32⟩,
   ⟨"SLL", 0xFE00707F#32, 0x00001033#32⟩, ⟨"SLT", 0xFE00707F#32, 0x00002033#32⟩,
   ⟨"SLTU", 0xFE00707F#32, 0x00003033#32⟩, ⟨"XOR", 0xFE00707F#32, 0x00004033#32⟩,
   ⟨"SRL", 0xFE00707F#32, 0x00005033#32⟩, ⟨"SRA", 0xFE00707F#32, 0x40005033#32⟩,
   ⟨"OR", 0xFE00707F#32, 0x00006033#32⟩, ⟨"AND", 0xFE00707F#32, 0x00007033#32⟩]

def opImmRows (x : XLen) : List TableRow :=
  [⟨"ADDI", 0x0000707F#32, 0x00000013#32⟩, ⟨"SLTI", 0x0000707F#32, 0x00002013#32⟩,
   ⟨"SLTIU", 0x0000707F#32, 0x00003013#32⟩, ⟨"XORI", 0x0000707F#32, 0x00004013#32⟩,
   ⟨"ORI", 0x0000707F#32, 0x00006013#32⟩, ⟨"ANDI", 0x0000707F#32, 0x00007013#32⟩,
   ⟨"SLLI", shiftMask x, 0x00001013#32⟩, ⟨"SRLI", shiftMask x, 0x00005013#32⟩,
   ⟨"SRAI", shiftMask x, 0x40005013#32⟩,
   ⟨"LUI", 0x0000007F#32, 0x00000037#32⟩, ⟨"AUIPC", 0x0000007F#32, 0x00000017#32⟩]

def memoryRows : List TableRow :=
  [⟨"LB", 0x0000707F#32, 0x00000003#32⟩, ⟨"LH", 0x0000707F#32, 0x00001003#32⟩,
   ⟨"LW", 0x0000707F#32, 0x00002003#32⟩, ⟨"LBU", 0x0000707F#32, 0x00004003#32⟩,
   ⟨"LHU", 0x0000707F#32, 0x00005003#32⟩, ⟨"SB", 0x0000707F#32, 0x00000023#32⟩,
   ⟨"SH", 0x0000707F#32, 0x00001023#32⟩, ⟨"SW", 0x0000707F#32, 0x00002023#32⟩]

/-- The rows marked `"xlen": 64`. -/
def rows64 : XLen → List TableRow
  | .x32 => []
  | .x64 =>
    [⟨"LWU", 0x0000707F#32, 0x00006003#32⟩, ⟨"LD", 0x0000707F#32, 0x00003003#32⟩,
     ⟨"SD", 0x0000707F#32, 0x00003023#32⟩]

def controlRows : List TableRow :=
  [⟨"BEQ", 0x0000707F#32, 0x00000063#32⟩, ⟨"BNE", 0x0000707F#32, 0x00001063#32⟩,
   ⟨"BLT", 0x0000707F#32, 0x00004063#32⟩, ⟨"BGE", 0x0000707F#32, 0x00005063#32⟩,
   ⟨"BLTU", 0x0000707F#32, 0x00006063#32⟩, ⟨"BGEU", 0x0000707F#32, 0x00007063#32⟩,
   ⟨"JAL", 0x0000007F#32, 0x0000006F#32⟩, ⟨"JALR", 0x0000707F#32, 0x00000067#32⟩]

/-- The rows that exist at a width: 37 at `XLEN = 32`, 40 at `XLEN = 64` (rule R62). -/
def opcodeTable (x : XLen) : List TableRow :=
  opRows ++ opImmRows x ++ memoryRows ++ rows64 x ++ controlRows

/-- Rule R63: `w & mask = match`. -/
def TableRow.owns (r : TableRow) (w : InstrWord) : Bool := w &&& r.mask == r.value

/-- The table's name of an instruction. -/
def Instr.mnemonic : Instr → String
  | .add _ _ _ => "ADD"
  | .sub _ _ _ => "SUB"
  | .sll _ _ _ => "SLL"
  | .slt _ _ _ => "SLT"
  | .sltu _ _ _ => "SLTU"
  | .xor _ _ _ => "XOR"
  | .srl _ _ _ => "SRL"
  | .sra _ _ _ => "SRA"
  | .or _ _ _ => "OR"
  | .and _ _ _ => "AND"
  | .addi _ _ _ => "ADDI"
  | .slti _ _ _ => "SLTI"
  | .sltiu _ _ _ => "SLTIU"
  | .xori _ _ _ => "XORI"
  | .ori _ _ _ => "ORI"
  | .andi _ _ _ => "ANDI"
  | .slli _ _ _ => "SLLI"
  | .srli _ _ _ => "SRLI"
  | .srai _ _ _ => "SRAI"
  | .lui _ _ => "LUI"
  | .auipc _ _ => "AUIPC"
  | .lb _ _ _ => "LB"
  | .lh _ _ _ => "LH"
  | .lw _ _ _ => "LW"
  | .lbu _ _ _ => "LBU"
  | .lhu _ _ _ => "LHU"
  | .lwu _ _ _ => "LWU"
  | .ld _ _ _ => "LD"
  | .sb _ _ _ => "SB"
  | .sh _ _ _ => "SH"
  | .sw _ _ _ => "SW"
  | .sd _ _ _ => "SD"
  | .beq _ _ _ => "BEQ"
  | .bne _ _ _ => "BNE"
  | .blt _ _ _ => "BLT"
  | .bge _ _ _ => "BGE"
  | .bltu _ _ _ => "BLTU"
  | .bgeu _ _ _ => "BGEU"
  | .jal _ _ => "JAL"
  | .jalr _ _ _ => "JALR"

end Sys2Proof
end

