-- ==== Sys2Proof/Machine/State.lean ====
section
/-!
DEFINITION. The state of the machine (`10_state.md`), the reasons it can stop, and reset.

`CoreState x` is the core at width `x` (rules R10 to R29); `State` is a core together with its width.
Everything is plain data.  Nothing is kept twice: a pipeline register that is a bubble (rule R20,
`valid = false`) is `none`, because no rule reads a field of a bubble (DEDUCED,
log entry 8).
-/

namespace Sys2Proof.Machine

/-! ## Value types of the datapath (rules R27, R28) -/

/-- ALUOperation of rule R28: the eleven operations and `UNSET`; the list is closed (D15). -/
inductive AluOp where
  | ADD | SUB | AND | OR | XOR | SLL | SRL | SRA | SLT | SLTU | PASSTHROUGH | UNSET
  deriving DecidableEq, Repr

/-- ControlSignals of rule R27. -/
structure ControlSignals (x : XLen) where
  aluOp        : AluOp
  memRead      : Bool
  memWrite     : Bool
  regWrite     : Bool
  branchTaken  : Bool
  branchTarget : Word x
  deriving DecidableEq, Repr

/-! ## The pipeline registers (rules R20 to R24), without their `valid` bit -/

/-- `IF_ID` (rule R21). -/
structure IfId (x : XLen) where
  pc   : Word x
  word : InstrWord
  deriving DecidableEq, Repr

/-- `ID_EX` (rule R22). -/
structure IdEx (x : XLen) where
  pc       : Word x
  fields   : DecodedFields x
  rs1Value : Word x
  rs2Value : Word x
  ctrl     : ControlSignals x
  deriving DecidableEq, Repr

/-- `EX_M` (rule R23). -/
structure ExM (x : XLen) where
  pc        : Word x
  fields    : DecodedFields x
  aluResult : Word x
  storeData : Word x
  ctrl      : ControlSignals x
  deriving DecidableEq, Repr

/-- `M_WB` (rule R24). -/
structure MWb (x : XLen) where
  pc        : Word x
  rd        : RegIndex
  aluResult : Word x
  memData   : Word x
  ctrl      : ControlSignals x
  deriving DecidableEq, Repr

/-! ## Fatal conditions and run status (rules R18, R250) -/

/-- The fatal conditions of rule R250 with the value each carries.  There are no cause codes. -/
inductive Condition (x : XLen) where
  /-- Raised by Decode: the word's format is `Unknown` (rule R251); carries `IF_ID.pc` and the word. -/
  | illegalInstruction (pc : Word x) (word : InstrWord)
  /-- IllegalInstruction as the ALU raises it when called with `UNSET` (rule R102); carries nothing
  (DEDUCED, log entry 17). -/
  | illegalAluOperation
  /-- Raised by Fetch (rule R252); carries `pc`. -/
  | instructionFetchFailure (pc : Word x)
  /-- Raised by a memory asked for an unsupported size (rule R253); carries address and size. -/
  | invalidAccessSize (addr : Word x) (size : Nat)
  /-- Raised by Memory for a refused data address (rule R254); carries the effective address. -/
  | outOfRange (addr : Word x)
  deriving DecidableEq, Repr

/-- `status` of rule R18. -/
inductive RunStatus (x : XLen) where
  | running
  | ended
  | failed (c : Condition x)
  deriving DecidableEq, Repr

/-- One line of the diagnostic channel (rule R143) as the data it is made from: the instruction's
`pc` and fields.  `Machine/Diagnostics.lean` gives its text. -/
structure DiagLine (x : XLen) where
  pc     : Word x
  fields : DecodedFields x
  deriving DecidableEq, Repr

/-! ## The core -/

/-- The state of a core of width `x`. -/
structure CoreState (x : XLen) where
  /-- The parameters of the run (rule R4); no step changes them (DESIGN CHOICE, log entry 21). -/
  cfg : Config
  /-- `pc` of rule R13. -/
  pc : Word x
  /-- `x[0]` to `x[31]` of rule R10; read and written through `readReg` and `writeReg` only. -/
  regs : Vector (Word x) 32
  /-- The one byte store behind both memory ports (rule R36; DEDUCED, log entry 20), in canonical form. -/
  mem : List Host.Cell
  ifId : Option (IfId x)
  idEx : Option (IdEx x)
  exM  : Option (ExM x)
  mWb  : Option (MWb x)
  /-- `fetchStopped` of rule R18. -/
  fetchStopped : Bool
  /-- `status` of rule R18. -/
  status : RunStatus x
  /-- The three counters of rule R17, unbounded. -/
  instructionsIssued : Nat
  instructionsCompleted : Nat
  cycles : Nat
  /-- What the diagnostic channel has carried so far, oldest first (rule R143; DEDUCED, log
  entry 12). -/
  diag : List (DiagLine x)
  deriving DecidableEq, Repr

/-- The call the host makes of the core next (rules R154, R155).  The host acts only between calls
(rule R262), so its next call is an input the machine holds as data (DESIGN CHOICE, log entry 24). -/
inductive HostCall where
  /-- `step()`: one clock cycle (rule R154). -/
  | step
  /-- `run()` under fuel: clock cycles until the result is not `Continue`, at most `fuel` (rule R155). -/
  | run (fuel : Nat)
  deriving DecidableEq, Repr

/-- The machine: a core, the width it was built with, and the host's next call.  The call is `step()`
wherever it is not written, so a state written by its width and core alone steps by one clock cycle. -/
structure State where
  xlen : XLen
  core : CoreState xlen
  call : HostCall := .step
  deriving DecidableEq, Repr

/-- The reasons a step answers `fault`.  The spec's own fatal conditions are not among them: they end
in a next state whose `status` is `failed` (rule R256; DEDUCED, log entry 9).  These two belong to states that
no run reaches and to which the spec gives no next state; stopping there is SAFE
(DESIGN CHOICE, log entry 11). -/
inductive Fault where
  /-- Raised by the Execute stage: `ID_EX.fields.opcode` is none of the nine of rule R144's table.
  Safe; decode never lets such a record into `ID_EX`. -/
  | noOperandSelection (opcode : BitVec 7)
  /-- Raised by the Memory stage: `EX_M.ctrl` asks for an access and `funct3` is in no column of rules
  R147 and R148 at this width.  Safe; the generator never sets `memRead` or `memWrite` there. -/
  | noAccessWidth (funct3 : BitVec 3)
  deriving DecidableEq, Repr

/-- The reasons a step answers `refused`. -/
inductive Refusal where
  /-- An arm of `exec` whose instruction has no meaning yet; no arm answers it.  Safe. -/
  | notModelled (mnemonic : String)
  deriving DecidableEq, Repr

/-! ## Reset (rules R29, R280) -/

/-- What the host gives at reset besides the parameters: `ENTRY_PC` and `X_INIT` (rule R4).
`xInit` holds the 31 values of `x[1]` to `x[31]`. -/
structure ResetValues (x : XLen) where
  entryPc : Word x
  xInit   : Vector (Word x) 31
  deriving DecidableEq, Repr

/-- The register file `X_INIT` makes: `x[0]` is 0 (rules R11, R29). -/
def ResetValues.regs {x : XLen} (r : ResetValues x) : Vector (Word x) 32 :=
  (#v[(0 : Word x)] ++ r.xInit : Vector (Word x) (1 + 31))

/-- The reset action of rule R280: every piece of state to the value of rule R29's table; the
parameters and the memory are not touched.  The diagnostic channel is emptied (DESIGN CHOICE, log
entry 19). -/
def CoreState.resetWith {x : XLen} (r : ResetValues x) (m : CoreState x) : CoreState x where
  cfg := m.cfg
  pc := r.entryPc
  regs := r.regs
  mem := m.mem
  ifId := none
  idEx := none
  exM := none
  mWb := none
  fetchStopped := false
  status := .running
  instructionsIssued := 0
  instructionsCompleted := 0
  cycles := 0
  diag := []

/-- A core as it is built (rule R280: "Reset is the construction of the core"): its parameters and its
memory, and every other piece of state at its reset value. -/
def CoreState.build {x : XLen} (cfg : Config) (mem : List Host.Cell) (r : ResetValues x) :
    CoreState x where
  cfg := cfg
  pc := r.entryPc
  regs := r.regs
  mem := mem
  ifId := none
  idEx := none
  exM := none
  mWb := none
  fetchStopped := false
  status := .running
  instructionsIssued := 0
  instructionsCompleted := 0
  cycles := 0
  diag := []

/-- The values `State.reset` gives what the host would give: `ENTRY_PC = 0`, every register 0.
DESIGN CHOICE (log entries 4 and 5). -/
def ResetValues.atReset (x : XLen) : ResetValues x where
  entryPc := 0
  xInit := Vector.replicate 31 0

/-- The machine right after reset, memory with nothing listed.  DESIGN CHOICE (log entry 1): the width
is 64, at which every row of the opcode table is an instruction. -/
def State.reset : State where
  xlen := .x64
  core := CoreState.build Config.atReset [] (ResetValues.atReset .x64)

end Sys2Proof.Machine
end

