-- ==== Sys2Proof/Machine/Alu.lean ====
section
/-!
DEFINITION. The ALU block (`41_alu.md`): the ten operations, the pass-through, and `execute`.

The ALU is stateless, sets no flag and never traps on overflow (rules R15, R90, R104).
-/

namespace Sys2Proof.Machine

variable {x : XLen}

/-- Rule R91. -/
def aluAdd (a b : Word x) : Word x := a + b

/-- Rule R92. -/
def aluSub (a b : Word x) : Word x := a - b

/-- Rule R93. -/
def aluAnd (a b : Word x) : Word x := a &&& b

/-- Rule R94. -/
def aluOr (a b : Word x) : Word x := a ||| b

/-- Rule R95. -/
def aluXor (a b : Word x) : Word x := a ^^^ b

/-- Rule R103: the shift amount, modulo the width. -/
def shiftAmount (b : Word x) : Nat := b.toNat % x.bits

/-- Rule R96. -/
def aluSll (a b : Word x) : Word x := a <<< shiftAmount b

/-- Rule R97. -/
def aluSrl (a b : Word x) : Word x := a >>> shiftAmount b

/-- Rule R98. -/
def aluSra (a b : Word x) : Word x := a.sshiftRight (shiftAmount b)

/-- A truth value as the word 1 or the word 0 (rule R99). -/
def boolWord (c : Bool) : Word x := if c then 1#x.bits else 0#x.bits

/-- Rule R99: signed comparison of the values. -/
def aluSlt (a b : Word x) : Word x := boolWord (a.slt b)

/-- Rule R100: unsigned comparison. -/
def aluSltu (a b : Word x) : Word x := boolWord (a.ult b)

/-- Rule R101: the second operand. -/
def aluPassthrough (_a b : Word x) : Word x := b

/-- `execute` of rule R90; it fails for `UNSET` only (rule R102). -/
def execute (a b : Word x) : AluOp → Except (Condition x) (Word x)
  | .ADD => .ok (aluAdd a b)
  | .SUB => .ok (aluSub a b)
  | .AND => .ok (aluAnd a b)
  | .OR => .ok (aluOr a b)
  | .XOR => .ok (aluXor a b)
  | .SLL => .ok (aluSll a b)
  | .SRL => .ok (aluSrl a b)
  | .SRA => .ok (aluSra a b)
  | .SLT => .ok (aluSlt a b)
  | .SLTU => .ok (aluSltu a b)
  | .PASSTHROUGH => .ok (aluPassthrough a b)
  | .UNSET => .error .illegalAluOperation

end Sys2Proof.Machine
end

