-- ==== Sys2Proof/Machine/Flags.lean ====
section
/-!
DEFINITION. What stands in the place of flags.

The hardware has no flags and no condition codes (rule R15): no instruction writes one.  The only
outcome that is not a word is a branch's decision, made from an ALU result computed for that branch
alone.  This file holds the four tests of rule R117's last column.
-/

namespace Sys2Proof.Machine

variable {x : XLen}

/-- `c = 0` (BEQ, BGE, BGEU in rule R117). -/
def isZero (c : Word x) : Bool := c == 0#x.bits

/-- `c != 0` (BNE). -/
def isNonzero (c : Word x) : Bool := c != 0#x.bits

/-- `c = 1` (BLT, BLTU). -/
def isOne (c : Word x) : Bool := c == 1#x.bits

/-- BEQ's decision (rule R232). -/
def takenEq (a b : Word x) : Bool := isZero (aluSub a b)

/-- BNE's decision (rule R233). -/
def takenNe (a b : Word x) : Bool := isNonzero (aluSub a b)

/-- BLT's decision (rule R234). -/
def takenLt (a b : Word x) : Bool := isOne (aluSlt a b)

/-- BGE's decision (rule R235). -/
def takenGe (a b : Word x) : Bool := isZero (aluSlt a b)

/-- BLTU's decision (rule R236). -/
def takenLtu (a b : Word x) : Bool := isOne (aluSltu a b)

/-- BGEU's decision (rule R237). -/
def takenGeu (a b : Word x) : Bool := isZero (aluSltu a b)

end Sys2Proof.Machine
end

