-- ==== Sys2Proof/Machine/Control.lean ====
section
/-!
DEFINITION. The control-signal generator block (`42_control.md`): the function `generate`.

It is the table of rules R112 to R120 with the default of rule R121.  It looks at the opcode, the
function codes, the immediate and the width only, and it never fails (rule R124).
-/

namespace Sys2Proof.Machine

variable {x : XLen}

/-- Rule R121: the safe no-op bundle. -/
def nopSignals : ControlSignals x where
  aluOp := .PASSTHROUGH
  memRead := false
  memWrite := false
  regWrite := false
  branchTaken := false
  branchTarget := 0

/-- The bundle of a row that writes a register from the ALU (rules R112 to R114, R119). -/
def aluSignals (op : AluOp) : ControlSignals x :=
  { (nopSignals : ControlSignals x) with aluOp := op, regWrite := true }

/-- Rule R115. -/
def loadSignals : ControlSignals x :=
  { (nopSignals : ControlSignals x) with aluOp := .ADD, memRead := true, regWrite := true }

/-- Rule R116. -/
def storeSignals : ControlSignals x :=
  { (nopSignals : ControlSignals x) with aluOp := .ADD, memWrite := true }

/-- Rule R117: the comparison, the decision, and the target whether or not taken (R118). -/
def branchSignals (op : AluOp) (taken : Bool) (target : Word x) : ControlSignals x :=
  { (nopSignals : ControlSignals x) with aluOp := op, branchTaken := taken, branchTarget := target }

/-- Rule R120: a jump is always taken and writes the link. -/
def jumpSignals (target : Word x) : ControlSignals x :=
  { (nopSignals : ControlSignals x) with aluOp := .ADD, regWrite := true, branchTaken := true, branchTarget := target }

/-- Rules R112, R113. -/
def opTable (funct3 : BitVec 3) (funct7 : BitVec 7) : Option AluOp :=
  match funct3, funct7 with
  | 0b000#3, 0b0000000#7 => some .ADD
  | 0b000#3, 0b0100000#7 => some .SUB
  | 0b001#3, 0b0000000#7 => some .SLL
  | 0b010#3, 0b0000000#7 => some .SLT
  | 0b011#3, 0b0000000#7 => some .SLTU
  | 0b100#3, 0b0000000#7 => some .XOR
  | 0b101#3, 0b0000000#7 => some .SRL
  | 0b101#3, 0b0100000#7 => some .SRA
  | 0b110#3, 0b0000000#7 => some .OR
  | 0b111#3, 0b0000000#7 => some .AND
  | _, _ => none

/-- The key rule R114 compares in a shift row: `funct7` at `XLEN = 32`, `funct7[6:1]` followed by a
zero bit at `XLEN = 64`, so that both widths compare with the same two values. -/
def shiftKey (x : XLen) (funct7 : BitVec 7) : BitVec 7 :=
  match x with
  | .x32 => funct7
  | .x64 => funct7 &&& 0b1111110#7

/-- Rule R114. -/
def opImmTable (x : XLen) (funct3 : BitVec 3) (funct7 : BitVec 7) : Option AluOp :=
  match funct3 with
  | 0b000#3 => some .ADD
  | 0b010#3 => some .SLT
  | 0b011#3 => some .SLTU
  | 0b100#3 => some .XOR
  | 0b110#3 => some .OR
  | 0b111#3 => some .AND
  | 0b001#3 => if shiftKey x funct7 = 0b0000000#7 then some .SLL else none
  | _ =>
    if shiftKey x funct7 = 0b0000000#7 then some .SRL
    else if shiftKey x funct7 = 0b0100000#7 then some .SRA
    else none

/-- The columns of rule R147: size in bytes and `signExtend`; `none` where there is no column. -/
def loadWidth (x : XLen) (funct3 : BitVec 3) : Option (Nat × Bool) :=
  match funct3 with
  | 0b000#3 => some (1, true)
  | 0b001#3 => some (2, true)
  | 0b010#3 => some (4, true)
  | 0b011#3 => if only64 x then some (8, true) else none
  | 0b100#3 => some (1, false)
  | 0b101#3 => some (2, false)
  | 0b110#3 => if only64 x then some (4, false) else none
  | _ => none

/-- The sizes of rule R148. -/
def storeWidth (x : XLen) (funct3 : BitVec 3) : Option Nat :=
  match funct3 with
  | 0b000#3 => some 1
  | 0b001#3 => some 2
  | 0b010#3 => some 4
  | 0b011#3 => if only64 x then some 8 else none
  | _ => none

/-- The test of a branch's comparison result (rule R117, last column). -/
inductive Polarity where
  | zero
  | nonzero
  | one
  deriving DecidableEq, Repr

def Polarity.holds (p : Polarity) (c : Word x) : Bool :=
  match p with
  | .zero => isZero c
  | .nonzero => isNonzero c
  | .one => isOne c

/-- Rule R117: the comparison and the test. -/
def branchTable (funct3 : BitVec 3) : Option (AluOp × Polarity) :=
  match funct3 with
  | 0b000#3 => some (.SUB, .zero)
  | 0b001#3 => some (.SUB, .nonzero)
  | 0b100#3 => some (.SLT, .one)
  | 0b101#3 => some (.SLT, .zero)
  | 0b110#3 => some (.SLTU, .one)
  | 0b111#3 => some (.SLTU, .zero)
  | _ => none

/-- Bit 0 cleared (rules R120, R239: `& ~1`). -/
def clearBit0 (v : Word x) : Word x := v &&& ~~~(1#x.bits)

/-- The BRANCH row: compare, then decide (rule R117). -/
def generateBranch (f : DecodedFields x) (pc a b : Word x) : ControlSignals x :=
  match branchTable f.funct3 with
  | none => nopSignals
  | some (op, p) =>
    match execute a b op with
    | .ok c => branchSignals op (p.holds c) (pc + f.immediate)
    | .error _ => nopSignals

/-- `generate` of rule R110. -/
def generate (f : DecodedFields x) (pc a b : Word x) : ControlSignals x :=
  match f.opcode with
  | 0b0110011#7 =>
    match opTable f.funct3 f.funct7 with
    | some op => aluSignals op
    | none => nopSignals
  | 0b0010011#7 =>
    match opImmTable x f.funct3 f.funct7 with
    | some op => aluSignals op
    | none => nopSignals
  | 0b0000011#7 => if (loadWidth x f.funct3).isSome then loadSignals else nopSignals
  | 0b0100011#7 => if (storeWidth x f.funct3).isSome then storeSignals else nopSignals
  | 0b1100011#7 => generateBranch f pc a b
  | 0b0110111#7 => aluSignals .PASSTHROUGH
  | 0b0010111#7 => aluSignals .ADD
  | 0b1101111#7 => jumpSignals (pc + f.immediate)
  | 0b1100111#7 =>
    if f.funct3 = 0b000#3 then jumpSignals (clearBit0 (a + f.immediate)) else nopSignals
  | _ => nopSignals

end Sys2Proof.Machine
end

