-- ==== Sys2Proof/Machine/Ops.lean ====
section
/-!
DEFINITION. The named operations over memory and registers, and what every instruction shares.

Memory is one byte store behind both ports (rule R36): a list of (address, byte) pairs with strictly
rising addresses inside the extent, none equal to the byte an unlisted address of the extent reads as.
There is no memory outside the extent: an access there is refused (rules R36, R41).
-/

namespace Sys2Proof.Machine

variable {x : XLen}

/-! ## The byte store -/

/-- What an address of the extent that the list does not name reads as (U21: the host's initial
content).  DESIGN CHOICE (log entry 6): zero. -/
def unlistedByte : Byte := 0#8

/-- The address lies in a region. -/
def Region.has (r : Region) (a : Nat) : Bool := decide (r.base ≤ a) && decide (a < r.base + r.size)

/-- The address is one the host populated (rule R36). -/
def holdsAddr (cfg : Config) (a : Nat) : Bool := cfg.extent.any (fun r => Region.has r a)

/-- The byte listed for an address. -/
def lookupCell : List Host.Cell → Nat → Option Byte
  | [], _ => none
  | (k, v) :: rest, a => if k = a then some v else lookupCell rest a

/-- The byte at an address; `none` outside the extent. -/
def readByte (cfg : Config) (mem : List Host.Cell) (a : Nat) : Option Byte :=
  if holdsAddr cfg a then some ((lookupCell mem a).getD unlistedByte) else none

/-- The list with the address's entry taken out. -/
def dropCell : List Host.Cell → Nat → List Host.Cell
  | [], _ => []
  | (k, v) :: rest, a => if k = a then dropCell rest a else (k, v) :: dropCell rest a

/-- The list with the address's entry set, in its place in the order. -/
def setCell : List Host.Cell → Nat → Byte → List Host.Cell
  | [], a, b => [(a, b)]
  | (k, v) :: rest, a, b =>
    if a < k then (a, b) :: (k, v) :: rest
    else if k = a then (a, b) :: rest
    else (k, v) :: setCell rest a b

/-- The store with one byte written.  Writing what an unlisted address reads as takes the entry out,
so that equal memories are equal lists. -/
def writeByte (mem : List Host.Cell) (a : Nat) (b : Byte) : List Host.Cell :=
  if b = unlistedByte then dropCell mem a else setCell mem a b

/-- Every address of the list is above `lo`, inside the extent and the address space, rising, and no
entry is the byte an unlisted address reads as. -/
def cellsFrom (cfg : Config) (bits : Nat) : Nat → List Host.Cell → Bool
  | _, [] => true
  | lo, (k, v) :: rest =>
    decide (lo ≤ k) && decide (k < 2 ^ bits) && holdsAddr cfg k && (v != unlistedByte) &&
      cellsFrom cfg bits (k + 1) rest

/-- The canonical form of memory at an extent and an address width. -/
def memoryWf (cfg : Config) (bits : Nat) (mem : List Host.Cell) : Bool := cellsFrom cfg bits 0 mem

/-- `Memory.wf`: a core's memory is in canonical form. -/
abbrev Memory.wf (m : CoreState x) : Bool := memoryWf m.cfg x.bits m.mem

/-! ## Wider accesses: the byte order is decided here (rule R30) -/

/-- The address of byte `k` of an access, modulo `2^XLEN` (rule R31). -/
def byteAddr (addr : Word x) (k : Nat) : Nat := (addr + BitVec.ofNat x.bits k).toNat

/-- The bytes at `addr`, `addr+1`, …, lowest address first; `none` if one is outside the extent. -/
def readBytes (cfg : Config) (mem : List Host.Cell) (addr : Word x) : Nat → Nat → Option (List Byte)
  | _, 0 => some []
  | k, n + 1 =>
    match readByte cfg mem (byteAddr addr k), readBytes cfg mem addr (k + 1) n with
    | some b, some rest => some (b :: rest)
    | _, _ => none

/-- The value of bytes given lowest address first: byte `k` is bits `8k+7:8k` (rule R30). -/
def littleEndian : List Byte → Nat
  | [] => 0
  | b :: rest => b.toNat + 256 * littleEndian rest

/-- Byte `k` of a word (rule R35: `v[8k+7:8k]`). -/
def byteOf (v : Word x) (k : Nat) : Byte := v.extractLsb' (8 * k) 8

/-- The store with the low `n` bytes of `v`, from byte `k` on, written at `addr+k`, … (rule R35). -/
def writeBytes (mem : List Host.Cell) (addr : Word x) (v : Word x) : Nat → Nat → List Host.Cell
  | _, 0 => mem
  | k, n + 1 => writeByte (writeBytes mem addr v (k + 1) n) (byteAddr addr k) (byteOf v k)

/-! ## The two ports (rules R33 to R35, R41, R253) -/

/-- The sizes the instruction-memory interface takes (rule R33). -/
def imemSizes : List Nat := [2, 4]

/-- The sizes the data-memory interface takes (rule R34: 8 only when `XLEN = 64`). -/
def dmemSizes : XLen → List Nat
  | .x32 => [1, 2, 4]
  | .x64 => [1, 2, 4, 8]

/-- Every byte of the access is in the extent. -/
def rangeHeld (cfg : Config) (addr : Word x) : Nat → Nat → Bool
  | _, 0 => true
  | k, n + 1 => holdsAddr cfg (byteAddr addr k) && rangeHeld cfg addr (k + 1) n

/-- The alignment part of rule R31: `fault` refuses an address that is not a multiple of the size. -/
def alignmentOk (cfg : Config) (addr : Word x) (n : Nat) : Bool :=
  match cfg.misaligned with
  | .fault => decide (addr.toNat % n = 0)
  | .split => true

/-- Whether the data memory accepts an access, and the condition it refuses with (rules R41, R253,
R254).  The size is looked at first (DESIGN CHOICE, log entry 10); an access with one byte outside the
extent is refused whole (DEDUCED, log entry 15). -/
def dmemCheck (cfg : Config) (addr : Word x) (n : Nat) : Except (Condition x) Unit :=
  if n ∉ dmemSizes x then .error (.invalidAccessSize addr n)
  else if alignmentOk cfg addr n && rangeHeld cfg addr 0 n then .ok ()
  else .error (.outOfRange addr)

/-- An `8n`-bit value widened to the register (rule R34). -/
def widen (x : XLen) (n : Nat) (signExtend : Bool) (v : Nat) : Word x :=
  if signExtend then (BitVec.ofNat (8 * n) v).signExtend x.bits
  else (BitVec.ofNat (8 * n) v).setWidth x.bits

/-- `MemRead(addr, n, signExtend)` of rule R34. -/
def dmemRead (cfg : Config) (mem : List Host.Cell) (addr : Word x) (n : Nat) (signExtend : Bool) :
    Except (Condition x) (Word x) :=
  match dmemCheck cfg addr n with
  | .error c => .error c
  | .ok () =>
    match readBytes cfg mem addr 0 n with
    | some bytes => .ok (widen x n signExtend (littleEndian bytes))
    | none => .error (.outOfRange addr)

/-- `MemWrite(addr, n, v)` of rule R35, for an access the memory accepts. -/
def dmemWrite (mem : List Host.Cell) (addr : Word x) (n : Nat) (v : Word x) : List Host.Cell :=
  writeBytes mem addr v 0 n

/-- The instruction-memory read of rule R33; Fetch wraps either failure (rule R252).  The spec gives the
result for size 4 only.  DESIGN CHOICE (log entry 25): for size 2, which Fetch never asks for, the two
bytes zero-extended.  DESIGN CHOICE (log entry 10): where size and address are both bad the size is
reported, and `OutOfRange` carries the address of the read; R33 says only "as appropriate", and Fetch
neither asks for a bad size nor passes on which failure it was. -/
def imemRead (cfg : Config) (mem : List Host.Cell) (addr : Word x) (n : Nat) :
    Except (Condition x) InstrWord :=
  if n ∉ imemSizes then .error (.invalidAccessSize addr n)
  else
    match readBytes cfg mem addr 0 n with
    | some bytes => .ok (BitVec.ofNat 32 (littleEndian bytes))
    | none => .error (.outOfRange addr)

/-! ## The register file (rules R10 to R12) -/

/-- Read port: `x[0]` reads as zero, whatever is stored for it (rule R11; DEDUCED, log entry 23). -/
def CoreState.readReg (m : CoreState x) (r : RegIndex) : Word x :=
  if r = 0#5 then 0#x.bits else m.regs[r.toNat]'(r.isLt)

/-- Write port: a write to `x[0]` changes nothing (rule R11). -/
def CoreState.writeReg (m : CoreState x) (r : RegIndex) (v : Word x) : CoreState x :=
  if r = 0#5 then m else { m with regs := m.regs.set r.toNat v r.isLt }

/-! ## What the host places before a run (rule R282) -/

/-- The parameters with an address range added to the extent, unless it is held already. -/
def Config.withRange (cfg : Config) (base size : Nat) : Config :=
  if (List.range size).all (fun k => holdsAddr cfg (base + k)) then cfg
  else { cfg with extent := cfg.extent ++ [{ base := base, size := size }] }

/-- The memory with a word's four bytes at an address, the lowest address first (rule R30). -/
def placeWord (mem : List Host.Cell) (a : Nat) (w : InstrWord) : List Host.Cell :=
  writeByte (writeByte (writeByte (writeByte mem a (w.extractLsb' 0 8)) (a + 1) (w.extractLsb' 8 8))
    (a + 2) (w.extractLsb' 16 8)) (a + 3) (w.extractLsb' 24 8)

/-- A multiple of 4: the low two bits of an address cleared. -/
def alignDown4 (a : Word x) : Word x := a &&& ~~~(3#x.bits)

/-- The cycles from an instruction's fetch to its completion (rules R160, R292). -/
def passageCycles : Nat := 5

/-- The core with a word where Fetch reads next, that will run it alone: running, nothing in flight,
`pc` aligned and its four bytes in the extent (rules R134, R135), and in non-pipelined mode, in which no
other word is fetched before it has completed (rule R157).  See `State.withFetchWord`. -/
def CoreState.withWordAtPc (m : CoreState x) (w : InstrWord) : CoreState x :=
  let pc := alignDown4 m.pc
  { m with
    cfg := { Config.withRange m.cfg pc.toNat 4 with pipelining := false }
    pc := pc
    mem := placeWord m.mem pc.toNat w
    ifId := none
    idEx := none
    exM := none
    mWb := none
    fetchStopped := false
    status := .running }

/-! ## Fatal conditions (rule R256)

Taking a fatal condition is the whole of exception entry on this hardware: nothing is saved, no mode
changes, control goes nowhere.  There is no return from one (rule R259); only reset starts a core
again (`CoreState.resetWith`). -/

/-- Rule R256: the cycle is abandoned; only `status` changes. -/
def CoreState.raise (m : CoreState x) (c : Condition x) : CoreState x :=
  { m with status := .failed c }

/-! ## The diagnostic channel (rule R143) -/

/-- The channel after Decode has seen an instruction: one more line when `debugMode` is on. -/
def CoreState.diagWith (m : CoreState x) (pc : Word x) (f : DecodedFields x) : List (DiagLine x) :=
  if m.cfg.debugMode then m.diag ++ [{ pc := pc, fields := f }] else m.diag

/-! ## What every instruction does besides its own effect

An instruction's meaning is its passage alone through the five stages (DEDUCED, log entry 13): the word is
fetched at `pc`, issued, and completed five cycles later (rules R157, R160, R292). -/

/-- The passage of a word with fields `f` that has no effect of its own: `pc` advances by 4 (R14),
one instruction issued and completed (R142, R151), five cycles counted (R153, R292), one line on the
diagnostic channel (R143). -/
def CoreState.passFields (m : CoreState x) (f : DecodedFields x) : CoreState x :=
  { m with
    pc := m.pc + 4#x.bits
    instructionsIssued := m.instructionsIssued + 1
    instructionsCompleted := m.instructionsCompleted + 1
    cycles := m.cycles + 5
    diag := m.diagWith m.pc f }

/-- The passage of an instruction, before its own effect. -/
def CoreState.pass (m : CoreState x) (i : Instr) : CoreState x := m.passFields (i.fields x)

/-- The passage of a taken control transfer: `pc` is redirected (rules R14, R137). -/
def CoreState.passTo (m : CoreState x) (i : Instr) (target : Word x) : CoreState x :=
  { m.pass i with pc := target }

/-- The passage of a conditional branch (rule R230). -/
def CoreState.passBranch (m : CoreState x) (i : Instr) (taken : Bool) (target : Word x) :
    CoreState x :=
  if taken then m.passTo i target else m.pass i

/-- The passage of a load or store that the data memory refuses: it was fetched, issued and executed,
and the cycle in which it stands in Memory is abandoned (rules R148, R256, R258). -/
def CoreState.abandonInMemory (m : CoreState x) (i : Instr) (ea storeData : Word x)
    (ctrl : ControlSignals x) (c : Condition x) : CoreState x :=
  { m with
    pc := m.pc + 4#x.bits
    exM := some { pc := m.pc, fields := i.fields x, aluResult := ea, storeData := storeData,
                  ctrl := ctrl }
    instructionsIssued := m.instructionsIssued + 1
    cycles := m.cycles + 3
    diag := m.diagWith m.pc (i.fields x)
    status := .failed c }

/-- A step of a machine is a step of its core. -/
def State.next (s : State) (f : CoreState s.xlen → CoreState s.xlen) :
    Host.Outcome State Fault Refusal :=
  .next { xlen := s.xlen, core := f s.core }

end Sys2Proof.Machine
end

