-- ==== Sys2Proof/Machine/Operands.lean ====
section
/-!
DEFINITION. Every operand form: register reads by format (rule R140), the ALU's operand selection
(rule R144), the effective address (rules R210, R218) and the transfer targets (rules R118, R120).
-/

namespace Sys2Proof.Machine

variable {x : XLen}

/-- The first register operand of a decoded word: read for R, I, S, B, else 0 (rule R140). -/
def CoreState.operand1 (m : CoreState x) (f : DecodedFields x) : Word x :=
  if f.format.hasRs1 then m.readReg f.rs1 else 0#x.bits

/-- The second register operand: read for R, S, B, else 0 (rule R140). -/
def CoreState.operand2 (m : CoreState x) (f : DecodedFields x) : Word x :=
  if f.format.hasRs2 then m.readReg f.rs2 else 0#x.bits

/-- Operands A and B of Execute, by opcode alone (rule R144's table). -/
def aluOperands (d : IdEx x) : Except Fault (Word x × Word x) :=
  match d.fields.opcode with
  | 0b0110011#7 => .ok (d.rs1Value, d.rs2Value)
  | 0b1100011#7 => .ok (d.rs1Value, d.rs2Value)
  | 0b0010011#7 => .ok (d.rs1Value, d.fields.immediate)
  | 0b0000011#7 => .ok (d.rs1Value, d.fields.immediate)
  | 0b0100011#7 => .ok (d.rs1Value, d.fields.immediate)
  | 0b0110111#7 => .ok (0#x.bits, d.fields.immediate)
  | 0b0010111#7 => .ok (d.pc, d.fields.immediate)
  | 0b1101111#7 => .ok (d.pc, 4#x.bits)
  | 0b1100111#7 => .ok (d.pc, 4#x.bits)
  | other => .error (.noOperandSelection other)

/-- The effective address of a load or store: `x[rs1] +w imm` (rules R210, R218). -/
def CoreState.effectiveAddress (m : CoreState x) (rs1 : RegIndex) (imm : BitVec 12) : Word x :=
  aluAdd (m.readReg rs1) (sext x imm)

/-- The target of a branch or JAL: `pc +w imm` (rules R118, R120).  An odd offset, which no word has,
is taken as it stands (DEDUCED, log entry 16). -/
def CoreState.relativeTarget (m : CoreState x) {n : Nat} (imm : BitVec n) : Word x :=
  m.pc + sext x imm

/-- The target of JALR: `(x[rs1] +w imm) & ~1` (rule R239). -/
def CoreState.registerTarget (m : CoreState x) (rs1 : RegIndex) (imm : BitVec 12) : Word x :=
  clearBit0 (m.readReg rs1 + sext x imm)

/-- The link value of JAL and JALR: `ADD(pc, 4)` (rules R144, R238). -/
def CoreState.linkValue (m : CoreState x) : Word x := aluAdd m.pc 4#x.bits

/-- A shift-immediate's second ALU operand (rule R197: the ALU uses the immediate modulo the width). -/
def shamtWord (x : XLen) (shamt : BitVec 6) : Word x := shamt.setWidth x.bits

end Sys2Proof.Machine
end

