-- ==== Sys2Proof/Machine/Pipeline.lean ====
section
/-!
DEFINITION. The five stages and the clock cycle (`43_pipeline.md`).

Each stage has an evaluate phase, a function of the state at the start of the cycle alone (rule R132),
and `clockEdge` commits all of them together (rule R133).  `clockCycle` is rule R158: evaluate in stage
order, the first fatal condition abandons the cycle (rules R256, R257), otherwise the edge.
-/

namespace Sys2Proof.Machine

variable {x : XLen}

/-- Why an evaluate phase does not finish: a fatal condition of the spec, or a state to which the spec
gives no next state. -/
inductive Stop (x : XLen) where
  | fatal (c : Condition x)
  | noNext (f : Fault)
  deriving DecidableEq, Repr

/-! ## Fetch (rules R134 to R138) -/

/-- None of the four pipeline registers is valid (rule R135). -/
def CoreState.empty (m : CoreState x) : Bool :=
  m.ifId.isNone && m.idEx.isNone && m.exM.isNone && m.mWb.isNone

/-- `fetchEn` of rule R135. -/
def CoreState.fetchEnabled (m : CoreState x) : Bool :=
  !m.fetchStopped && (m.cfg.pipelining || m.empty)

/-- The word Fetch reads at `pc` (rules R134, R252): a misaligned `pc` or a failed read is
`InstructionFetchFailure(pc)`. -/
def CoreState.fetchWord (m : CoreState x) : Except (Condition x) InstrWord :=
  if m.pc.toNat % 4 ≠ 0 then .error (.instructionFetchFailure m.pc)
  else
    match imemRead m.cfg m.mem m.pc 4 with
    | .ok w => .ok w
    | .error _ => .error (.instructionFetchFailure m.pc)

/-- What Fetch's evaluate phase computed: the next `IF_ID` and whether the word was the sentinel.
Fetch fetched an instruction exactly when `ifId` is not a bubble (rules R134, R136). -/
structure FetchOut (x : XLen) where
  ifId        : Option (IfId x)
  sawSentinel : Bool
  deriving DecidableEq, Repr

/-- Fetch, evaluate phase (rules R134 to R136). -/
def fetchStage (m : CoreState x) : Except (Stop x) (FetchOut x) :=
  if m.fetchEnabled then
    match m.fetchWord with
    | .error c => .error (.fatal c)
    | .ok w =>
      if w = m.cfg.sentinel then .ok { ifId := none, sawSentinel := true }
      else .ok { ifId := some { pc := m.pc, word := w }, sawSentinel := false }
  else .ok { ifId := none, sawSentinel := false }

/-! ## Decode (rules R139 to R143) -/

/-- What Decode's evaluate phase computed: the next `ID_EX`, the redirect, the diagnostic line. -/
structure DecodeOut (x : XLen) where
  idEx     : Option (IdEx x)
  redirect : Option (Word x)
  diag     : List (DiagLine x)
  deriving DecidableEq, Repr

/-- Decode of the instruction in `IF_ID` once its fields are known (rules R140, R141, R143). -/
def decodeIssue (m : CoreState x) (d : IfId x) (f : DecodedFields x) : DecodeOut x :=
  let a := m.operand1 f
  let b := m.operand2 f
  let c := generate f d.pc a b
  { idEx := some { pc := d.pc, fields := f, rs1Value := a, rs2Value := b, ctrl := c }
    redirect := if c.branchTaken then some c.branchTarget else none
    diag := m.diagWith d.pc f }

/-- Decode, evaluate phase (rules R139 to R141). -/
def decodeStage (m : CoreState x) : Except (Stop x) (DecodeOut x) :=
  match m.ifId with
  | none => .ok { idEx := none, redirect := none, diag := m.diag }
  | some d =>
    match decodeFields x d.word with
    | .error _ => .error (.fatal (.illegalInstruction d.pc d.word))
    | .ok f => .ok (decodeIssue m d f)

/-! ## Execute (rules R144 to R146) -/

/-- Execute, evaluate phase: the next `EX_M` (rules R144, R145). -/
def executeStage (m : CoreState x) : Except (Stop x) (Option (ExM x)) :=
  match m.idEx with
  | none => .ok none
  | some d =>
    match aluOperands d with
    | .error e => .error (.noNext e)
    | .ok (a, b) =>
      match execute a b d.ctrl.aluOp with
      | .error c => .error (.fatal c)
      | .ok r =>
        .ok (some { pc := d.pc, fields := d.fields, aluResult := r, storeData := d.rs2Value,
                    ctrl := d.ctrl })

/-! ## Memory (rules R147 to R149) -/

/-- A store to commit at the edge. -/
structure PendingStore (x : XLen) where
  addr  : Word x
  size  : Nat
  value : Word x
  deriving DecidableEq, Repr

/-- What Memory's evaluate phase computed. -/
structure MemoryOut (x : XLen) where
  mWb   : Option (MWb x)
  store : Option (PendingStore x)
  deriving DecidableEq, Repr

/-- The value a load reads (rule R147); 0 for any other instruction. -/
def loadedValue (m : CoreState x) (e : ExM x) : Except (Stop x) (Word x) :=
  if e.ctrl.memRead then
    match loadWidth x e.fields.funct3 with
    | none => .error (.noNext (.noAccessWidth e.fields.funct3))
    | some (n, signExtend) =>
      match dmemRead m.cfg m.mem e.aluResult n signExtend with
      | .ok v => .ok v
      | .error c => .error (.fatal c)
  else .ok 0#x.bits

/-- The store to commit (rule R148): checked in the evaluate phase. -/
def pendingStore (m : CoreState x) (e : ExM x) : Except (Stop x) (Option (PendingStore x)) :=
  if e.ctrl.memWrite then
    match storeWidth x e.fields.funct3 with
    | none => .error (.noNext (.noAccessWidth e.fields.funct3))
    | some n =>
      match dmemCheck m.cfg e.aluResult n with
      | .ok () => .ok (some { addr := e.aluResult, size := n, value := e.storeData })
      | .error c => .error (.fatal c)
  else .ok none

/-- Memory, evaluate phase (rules R147 to R149). -/
def memoryStage (m : CoreState x) : Except (Stop x) (MemoryOut x) :=
  match m.exM with
  | none => .ok { mWb := none, store := none }
  | some e =>
    match loadedValue m e with
    | .error s => .error s
    | .ok v =>
      match pendingStore m e with
      | .error s => .error s
      | .ok st =>
        .ok { mWb := some { pc := e.pc, rd := e.fields.rd, aluResult := e.aluResult, memData := v,
                            ctrl := e.ctrl }
              store := st }

/-! ## WriteBack (rules R150, R151) -/

/-- The value WriteBack writes (rule R150). -/
def MWb.value (w : MWb x) : Word x := if w.ctrl.memRead then w.memData else w.aluResult

/-- The register file after WriteBack's edge (rule R150), for the instruction in `M_WB`. -/
def writeBack (m : CoreState x) : CoreState x :=
  match m.mWb with
  | none => m
  | some w => if w.ctrl.regWrite then m.writeReg w.rd w.value else m

/-! ## The clock edge (rules R133, R137, R138, R142, R146, R149 to R153, R156) -/

/-- `pc` at the edge (rule R137). -/
def nextPc (m : CoreState x) (f : FetchOut x) (redirect : Option (Word x)) : Word x :=
  if m.fetchStopped || f.sawSentinel then m.pc
  else
    match redirect with
    | some target => target
    | none => if f.ifId.isSome then m.pc + 4#x.bits else m.pc

/-- The data memory at the edge (rule R148). -/
def nextMem (m : CoreState x) (store : Option (PendingStore x)) : List Host.Cell :=
  match store with
  | none => m.mem
  | some st => dmemWrite m.mem st.addr st.size st.value

/-- `status` at the edge: `Ended` when Fetch has stopped and the pipeline is empty (rule R156). -/
def endStatus (m : CoreState x) : RunStatus x :=
  if m.fetchStopped && m.empty then .ended else m.status

/-- The one edge at which everything takes its new value (rule R133).  Every right-hand side is a
function of the state `m` at the start of the cycle and of the evaluate phase's results. -/
def clockEdge (m : CoreState x) (f : FetchOut x) (d : DecodeOut x) (e : Option (ExM x))
    (w : MemoryOut x) : CoreState x :=
  let next : CoreState x :=
    { cfg := m.cfg
      pc := nextPc m f d.redirect
      regs := (writeBack m).regs
      mem := nextMem m w.store
      ifId := f.ifId
      idEx := d.idEx
      exM := e
      mWb := w.mWb
      fetchStopped := m.fetchStopped || f.sawSentinel
      status := m.status
      instructionsIssued := m.instructionsIssued + m.ifId.isSome.toNat
      instructionsCompleted := m.instructionsCompleted + m.mWb.isSome.toNat
      cycles := m.cycles + (f.ifId.isSome || !m.empty).toNat
      diag := d.diag }
  { next with status := endStatus next }

/-- The evaluate phase in stage order (rule R257), then the edge. -/
def evaluate (m : CoreState x) : Except (Stop x) (CoreState x) :=
  match fetchStage m with
  | .error s => .error s
  | .ok f =>
    match decodeStage m with
    | .error s => .error s
    | .ok d =>
      match executeStage m with
      | .error s => .error s
      | .ok e =>
        match memoryStage m with
        | .error s => .error s
        | .ok w => .ok (clockEdge m f d e w)

/-- One clock cycle of a core (rule R158).  After the end nothing changes (rule R161). -/
def clockCycle (m : CoreState x) : Except Fault (CoreState x) :=
  match m.status with
  | .ended => .ok m
  | .failed _ => .ok m
  | .running =>
    match evaluate m with
    | .ok next => .ok next
    | .error (.fatal c) => .ok (m.raise c)
    | .error (.noNext f) => .error f

/-- `run()` under fuel (rule R155): clock cycles until the result of one is not `Continue`, that is,
until the core no longer runs. -/
def runCycles : Nat → CoreState x → Except Fault (CoreState x)
  | 0, m => .ok m
  | fuel + 1, m =>
    match clockCycle m with
    | .error f => .error f
    | .ok t => if t.status = .running then runCycles fuel t else .ok t

/-- One call of the host (rules R154, R155). -/
def hostCall (call : HostCall) (m : CoreState x) : Except Fault (CoreState x) :=
  match call with
  | .step => clockCycle m
  | .run fuel => runCycles fuel m

end Sys2Proof.Machine
end

