-- ==== Sys2Proof/Machine/ControlTransfer.lean ====
section
/-!
DEFINITION. The six branches and two jumps (`47_control_transfer.md`, template rule R230).

A transfer never faults itself: a bad target fails when it is fetched (rule R242).
-/

namespace Sys2Proof.Machine

/-- Rule R230: to `pc +w imm` if taken, else on to the next instruction; no register is written. -/
def branchIf (i : Instr) (taken : ∀ x : XLen, Word x → Word x → Bool) (rs1 rs2 : RegIndex)
    (imm : BitVec 13) (s : State) : Host.Outcome State Fault Refusal :=
  s.next fun m =>
    m.passBranch i (taken s.xlen (m.readReg rs1) (m.readReg rs2)) (m.relativeTarget imm)

/-- Rule R232. -/
def execBeq (rs1 rs2 : RegIndex) (imm : BitVec 13) (s : State) : Host.Outcome State Fault Refusal :=
  branchIf (.beq rs1 rs2 imm) (fun _ => takenEq) rs1 rs2 imm s

/-- Rule R233. -/
def execBne (rs1 rs2 : RegIndex) (imm : BitVec 13) (s : State) : Host.Outcome State Fault Refusal :=
  branchIf (.bne rs1 rs2 imm) (fun _ => takenNe) rs1 rs2 imm s

/-- Rule R234. -/
def execBlt (rs1 rs2 : RegIndex) (imm : BitVec 13) (s : State) : Host.Outcome State Fault Refusal :=
  branchIf (.blt rs1 rs2 imm) (fun _ => takenLt) rs1 rs2 imm s

/-- Rule R235. -/
def execBge (rs1 rs2 : RegIndex) (imm : BitVec 13) (s : State) : Host.Outcome State Fault Refusal :=
  branchIf (.bge rs1 rs2 imm) (fun _ => takenGe) rs1 rs2 imm s

/-- Rule R236. -/
def execBltu (rs1 rs2 : RegIndex) (imm : BitVec 13) (s : State) :
    Host.Outcome State Fault Refusal :=
  branchIf (.bltu rs1 rs2 imm) (fun _ => takenLtu) rs1 rs2 imm s

/-- Rule R237. -/
def execBgeu (rs1 rs2 : RegIndex) (imm : BitVec 13) (s : State) :
    Host.Outcome State Fault Refusal :=
  branchIf (.bgeu rs1 rs2 imm) (fun _ => takenGeu) rs1 rs2 imm s

/-- Rule R238: `x[rd] <- pc +w 4`, control to `pc +w imm`. -/
def execJal (rd : RegIndex) (imm : BitVec 21) (s : State) : Host.Outcome State Fault Refusal :=
  s.next fun m => (m.passTo (.jal rd imm) (m.relativeTarget imm)).writeReg rd m.linkValue

/-- Rule R239: `x[rd] <- pc +w 4`, control to `(x[rs1] +w imm) & ~1`, the old `x[rs1]`. -/
def execJalr (rd rs1 : RegIndex) (imm : BitVec 12) (s : State) : Host.Outcome State Fault Refusal :=
  s.next fun m => (m.passTo (.jalr rd rs1 imm) (m.registerTarget rs1 imm)).writeReg rd m.linkValue

end Sys2Proof.Machine
end

