-- ==== Sys2Proof/Machine/LoadStore.lean ====
section
/-!
DEFINITION. The seven loads and four stores (`46_loads_stores.md`, template rules R210, R218).
-/

namespace Sys2Proof.Machine

variable {x : XLen}

/-- Rule R210: `x[rd] <- MemRead(x[rs1] +w imm, n, signExtend)`.  A refused access is fatal and writes
no register. -/
def CoreState.load (m : CoreState x) (i : Instr) (n : Nat) (signExtend : Bool) (rd rs1 : RegIndex)
    (imm : BitVec 12) : CoreState x :=
  let ea := m.effectiveAddress rs1 imm
  match dmemRead m.cfg m.mem ea n signExtend with
  | .ok v => (m.pass i).writeReg rd v
  | .error c => m.abandonInMemory i ea 0#x.bits loadSignals c

/-- Rule R218: `MemWrite(x[rs1] +w imm, n, x[rs2])`.  A refused access is fatal and writes nothing. -/
def CoreState.store (m : CoreState x) (i : Instr) (n : Nat) (rs2 rs1 : RegIndex)
    (imm : BitVec 12) : CoreState x :=
  let ea := m.effectiveAddress rs1 imm
  match dmemCheck m.cfg ea n with
  | .ok () => { m.pass i with mem := dmemWrite m.mem ea n (m.readReg rs2) }
  | .error c => m.abandonInMemory i ea (m.readReg rs2) storeSignals c

/-- Rule R211. -/
def execLb (rd rs1 : RegIndex) (imm : BitVec 12) (s : State) : Host.Outcome State Fault Refusal :=
  s.next fun m => m.load (.lb rd rs1 imm) 1 true rd rs1 imm

/-- Rule R212. -/
def execLh (rd rs1 : RegIndex) (imm : BitVec 12) (s : State) : Host.Outcome State Fault Refusal :=
  s.next fun m => m.load (.lh rd rs1 imm) 2 true rd rs1 imm

/-- Rule R213. -/
def execLw (rd rs1 : RegIndex) (imm : BitVec 12) (s : State) : Host.Outcome State Fault Refusal :=
  s.next fun m => m.load (.lw rd rs1 imm) 4 true rd rs1 imm

/-- Rule R214. -/
def execLbu (rd rs1 : RegIndex) (imm : BitVec 12) (s : State) : Host.Outcome State Fault Refusal :=
  s.next fun m => m.load (.lbu rd rs1 imm) 1 false rd rs1 imm

/-- Rule R215. -/
def execLhu (rd rs1 : RegIndex) (imm : BitVec 12) (s : State) : Host.Outcome State Fault Refusal :=
  s.next fun m => m.load (.lhu rd rs1 imm) 2 false rd rs1 imm

/-- Rule R216; at `XLEN = 32` the word is a safe no-op. -/
def execLwu (rd rs1 : RegIndex) (imm : BitVec 12) (s : State) : Host.Outcome State Fault Refusal :=
  s.next fun m =>
    if only64 s.xlen then m.load (.lwu rd rs1 imm) 4 false rd rs1 imm else m.pass (.lwu rd rs1 imm)

/-- Rule R217; at `XLEN = 32` the word is a safe no-op. -/
def execLd (rd rs1 : RegIndex) (imm : BitVec 12) (s : State) : Host.Outcome State Fault Refusal :=
  s.next fun m =>
    if only64 s.xlen then m.load (.ld rd rs1 imm) 8 true rd rs1 imm else m.pass (.ld rd rs1 imm)

/-- Rule R219. -/
def execSb (rs2 rs1 : RegIndex) (imm : BitVec 12) (s : State) : Host.Outcome State Fault Refusal :=
  s.next fun m => m.store (.sb rs2 rs1 imm) 1 rs2 rs1 imm

/-- Rule R220. -/
def execSh (rs2 rs1 : RegIndex) (imm : BitVec 12) (s : State) : Host.Outcome State Fault Refusal :=
  s.next fun m => m.store (.sh rs2 rs1 imm) 2 rs2 rs1 imm

/-- Rule R221. -/
def execSw (rs2 rs1 : RegIndex) (imm : BitVec 12) (s : State) : Host.Outcome State Fault Refusal :=
  s.next fun m => m.store (.sw rs2 rs1 imm) 4 rs2 rs1 imm

/-- Rule R222; at `XLEN = 32` the word is a safe no-op. -/
def execSd (rs2 rs1 : RegIndex) (imm : BitVec 12) (s : State) : Host.Outcome State Fault Refusal :=
  s.next fun m =>
    if only64 s.xlen then m.store (.sd rs2 rs1 imm) 8 rs2 rs1 imm else m.pass (.sd rs2 rs1 imm)

end Sys2Proof.Machine
end

