-- ==== Sys2Proof/Machine/RegisterImmediate.lean ====
section
/-!
DEFINITION. The nine OP-IMM instructions, LUI and AUIPC (`45_int_register_immediate.md`).
-/

namespace Sys2Proof.Machine

/-- Rule R190: `x[rd] <- op(x[rs1], imm)`, the sign-extended immediate in the second operand's place. -/
def opRegImm (i : Instr) (op : ∀ x : XLen, Word x → Word x → Word x) (rd rs1 : RegIndex)
    (imm : BitVec 12) (s : State) : Host.Outcome State Fault Refusal :=
  s.next fun m => (m.pass i).writeReg rd (op s.xlen (m.readReg rs1) (sext s.xlen imm))

/-- Rules R197 to R199: `x[rd] <- op(x[rs1], shamt)`.  A shift amount the width does not have makes
the word a safe no-op (rules R66, R197; DEDUCED, log entry 16). -/
def opShiftImm (i : Instr) (op : ∀ x : XLen, Word x → Word x → Word x) (rd rs1 : RegIndex)
    (shamt : BitVec 6) (s : State) : Host.Outcome State Fault Refusal :=
  s.next fun m =>
    if shamtFits s.xlen shamt then
      (m.pass i).writeReg rd (op s.xlen (m.readReg rs1) (shamtWord s.xlen shamt))
    else m.pass i

/-- Rule R191. -/
def execAddi (rd rs1 : RegIndex) (imm : BitVec 12) (s : State) : Host.Outcome State Fault Refusal :=
  opRegImm (.addi rd rs1 imm) (fun _ => aluAdd) rd rs1 imm s

/-- Rule R192. -/
def execSlti (rd rs1 : RegIndex) (imm : BitVec 12) (s : State) : Host.Outcome State Fault Refusal :=
  opRegImm (.slti rd rs1 imm) (fun _ => aluSlt) rd rs1 imm s

/-- Rule R193. -/
def execSltiu (rd rs1 : RegIndex) (imm : BitVec 12) (s : State) :
    Host.Outcome State Fault Refusal :=
  opRegImm (.sltiu rd rs1 imm) (fun _ => aluSltu) rd rs1 imm s

/-- Rule R194. -/
def execXori (rd rs1 : RegIndex) (imm : BitVec 12) (s : State) : Host.Outcome State Fault Refusal :=
  opRegImm (.xori rd rs1 imm) (fun _ => aluXor) rd rs1 imm s

/-- Rule R195. -/
def execOri (rd rs1 : RegIndex) (imm : BitVec 12) (s : State) : Host.Outcome State Fault Refusal :=
  opRegImm (.ori rd rs1 imm) (fun _ => aluOr) rd rs1 imm s

/-- Rule R196. -/
def execAndi (rd rs1 : RegIndex) (imm : BitVec 12) (s : State) : Host.Outcome State Fault Refusal :=
  opRegImm (.andi rd rs1 imm) (fun _ => aluAnd) rd rs1 imm s

/-- Rule R197. -/
def execSlli (rd rs1 : RegIndex) (shamt : BitVec 6) (s : State) :
    Host.Outcome State Fault Refusal :=
  opShiftImm (.slli rd rs1 shamt) (fun _ => aluSll) rd rs1 shamt s

/-- Rule R198. -/
def execSrli (rd rs1 : RegIndex) (shamt : BitVec 6) (s : State) :
    Host.Outcome State Fault Refusal :=
  opShiftImm (.srli rd rs1 shamt) (fun _ => aluSrl) rd rs1 shamt s

/-- Rule R199. -/
def execSrai (rd rs1 : RegIndex) (shamt : BitVec 6) (s : State) :
    Host.Outcome State Fault Refusal :=
  opShiftImm (.srai rd rs1 shamt) (fun _ => aluSra) rd rs1 shamt s

/-- Rule R200: `x[rd] <- imm`; no register is read. -/
def execLui (rd : RegIndex) (imm20 : BitVec 20) (s : State) : Host.Outcome State Fault Refusal :=
  s.next fun m =>
    (m.pass (.lui rd imm20)).writeReg rd (aluPassthrough 0#s.xlen.bits (upperImmediate s.xlen imm20))

/-- Rule R201: `x[rd] <- pc +w imm`, the instruction's own `pc`. -/
def execAuipc (rd : RegIndex) (imm20 : BitVec 20) (s : State) : Host.Outcome State Fault Refusal :=
  s.next fun m =>
    (m.pass (.auipc rd imm20)).writeReg rd (aluAdd m.pc (upperImmediate s.xlen imm20))

end Sys2Proof.Machine
end

