-- ==== Sys2Proof/Machine/RegisterRegister.lean ====
section
/-!
DEFINITION. The ten OP instructions (`44_int_register_register.md`, template rule R170).
-/

namespace Sys2Proof.Machine

/-- Rule R170: `x[rd] <- op(x[rs1], x[rs2])`; the sources are read before the result is written. -/
def opRegReg (i : Instr) (op : ∀ x : XLen, Word x → Word x → Word x) (rd rs1 rs2 : RegIndex)
    (s : State) : Host.Outcome State Fault Refusal :=
  s.next fun m => (m.pass i).writeReg rd (op s.xlen (m.readReg rs1) (m.readReg rs2))

/-- Rule R171. -/
def execAdd (rd rs1 rs2 : RegIndex) (s : State) : Host.Outcome State Fault Refusal :=
  opRegReg (.add rd rs1 rs2) (fun _ => aluAdd) rd rs1 rs2 s

/-- Rule R172. -/
def execSub (rd rs1 rs2 : RegIndex) (s : State) : Host.Outcome State Fault Refusal :=
  opRegReg (.sub rd rs1 rs2) (fun _ => aluSub) rd rs1 rs2 s

/-- Rule R173. -/
def execSll (rd rs1 rs2 : RegIndex) (s : State) : Host.Outcome State Fault Refusal :=
  opRegReg (.sll rd rs1 rs2) (fun _ => aluSll) rd rs1 rs2 s

/-- Rule R174. -/
def execSlt (rd rs1 rs2 : RegIndex) (s : State) : Host.Outcome State Fault Refusal :=
  opRegReg (.slt rd rs1 rs2) (fun _ => aluSlt) rd rs1 rs2 s

/-- Rule R175. -/
def execSltu (rd rs1 rs2 : RegIndex) (s : State) : Host.Outcome State Fault Refusal :=
  opRegReg (.sltu rd rs1 rs2) (fun _ => aluSltu) rd rs1 rs2 s

/-- Rule R176. -/
def execXor (rd rs1 rs2 : RegIndex) (s : State) : Host.Outcome State Fault Refusal :=
  opRegReg (.xor rd rs1 rs2) (fun _ => aluXor) rd rs1 rs2 s

/-- Rule R177. -/
def execSrl (rd rs1 rs2 : RegIndex) (s : State) : Host.Outcome State Fault Refusal :=
  opRegReg (.srl rd rs1 rs2) (fun _ => aluSrl) rd rs1 rs2 s

/-- Rule R178. -/
def execSra (rd rs1 rs2 : RegIndex) (s : State) : Host.Outcome State Fault Refusal :=
  opRegReg (.sra rd rs1 rs2) (fun _ => aluSra) rd rs1 rs2 s

/-- Rule R179. -/
def execOr (rd rs1 rs2 : RegIndex) (s : State) : Host.Outcome State Fault Refusal :=
  opRegReg (.or rd rs1 rs2) (fun _ => aluOr) rd rs1 rs2 s

/-- Rule R180. -/
def execAnd (rd rs1 rs2 : RegIndex) (s : State) : Host.Outcome State Fault Refusal :=
  opRegReg (.and rd rs1 rs2) (fun _ => aluAnd) rd rs1 rs2 s

end Sys2Proof.Machine
end

