-- ==== Sys2Proof/Machine/Sequential.lean ====
section
/-!
DEFINITION. Sequential execution: one whole instruction at a time (rule R157: "the architectural results
are those of sequential execution").

`instrStep` fetches at `pc`, ends on the sentinel, fails on an illegal word, passes over a safe no-op,
and otherwise runs the decoded instruction by `exec`.  In non-pipelined mode five clock cycles are one
`instrStep`; the obligations say so.
-/

namespace Sys2Proof.Machine

variable {x : XLen}

/-- The sentinel read with nothing in flight (rules R136, R156, R240): fetching stops and the run ends;
nothing is counted. -/
def CoreState.endRun (m : CoreState x) : CoreState x :=
  { m with fetchStopped := true, status := .ended }

/-- A word whose opcode is `Unknown`: fetched in one counted cycle, and the cycle in which it stands in
Decode is abandoned (rules R139, R251, R256). -/
def CoreState.abandonInDecode (m : CoreState x) (w : InstrWord) : CoreState x :=
  { m with
    pc := m.pc + 4#x.bits
    ifId := some { pc := m.pc, word := w }
    cycles := m.cycles + 1
    status := .failed (.illegalInstruction m.pc w) }

/-- The safe no-op (rules R66, R121): issued, completed and counted, no memory or register effect. -/
def execSafeNoOp (w : InstrWord) (s : State) : Host.Outcome State Fault Refusal :=
  s.next fun m => m.passFields (fieldsOfWord s.xlen w)

/-- What sequential execution does with a fetched word (rules R63, R66, R69). -/
def instrWordStep (w : InstrWord) (s : State) : Host.Outcome State Fault Refusal :=
  match classifyWord s.xlen s.core.cfg.sentinel w with
  | .sentinel => s.next CoreState.endRun
  | .illegal => s.next fun m => m.abandonInDecode w
  | .safeNoOp => execSafeNoOp w s
  | .instr i => exec i s

/-- One instruction of the sequential machine. -/
def instrStep (s : State) : Host.Outcome State Fault Refusal :=
  match s.core.status with
  | .ended => .next s
  | .failed _ => .next s
  | .running =>
    match s.core.fetchWord with
    | .error c => s.next fun _ => s.core.raise c
    | .ok w => instrWordStep w s

/-- `n` instructions of the sequential machine. -/
def instrRun : Nat → State → Host.Outcome State Fault Refusal
  | 0, s => .next s
  | n + 1, s =>
    match instrStep s with
    | .next t => instrRun n t
    | .fault f => .fault f
    | .refused r => .refused r

end Sys2Proof.Machine
end

