-- ==== Sys2Proof/Machine/Step.lean ====
section
/-!
DEFINITION. One step of the machine: one call of the host, which is one clock cycle (rules R9, R154,
R158) unless the state holds the call `run()` (rule R155, log entry 24).
-/

namespace Sys2Proof.Machine

/-- The host's next call: `step()` of rule R154, or `run()` of rule R155.  The call is used up: the one
after it is `step()`.  The result `Continue`, `EndOfProgram` or `Fatal` is the next state's `status`
(rule R18); `Machine/HostView.lean` reads it off. -/
def step (s : State) : Host.Outcome State Fault Refusal :=
  match hostCall s.call s.core with
  | .ok m => .next { xlen := s.xlen, core := m }
  | .error f => .fault f

/-- `s` with a word placed where Fetch reads next, and with all that the very next step needs to fetch
it and run it whole, and nothing else: the core of `CoreState.withWordAtPc`, and `run()` for the five
cycles an instruction takes (rule R160) as the host's next call (DEDUCED, log entry 14). -/
def State.withFetchWord (s : State) (nbits w : Nat) : State :=
  { xlen := s.xlen
    core := s.core.withWordAtPc (tableWord nbits w)
    call := .run passageCycles }

end Sys2Proof.Machine
end

