-- ==== Sys2Proof/Machine/Diagnostics.lean ====
section
/-!
DEFINITION. The text of the diagnostic channel (rules R67, R79, R143): `pc` in hexadecimal, a mnemonic
and the operand list.  It affects no state; spacing is not architectural.
-/

namespace Sys2Proof.Machine

/-- An operand as the assembler form of rule R67 shows it. -/
inductive DiagOperand where
  /-- `x<i>`. -/
  | reg (r : RegIndex)
  /-- A decimal number. -/
  | num (n : Int)
  /-- `offset(x<base>)`. -/
  | mem (offset : Int) (base : RegIndex)
  deriving DecidableEq, Repr

/-- The operand list of rule R67. -/
def operandsOf : Instr → List DiagOperand
  | .add rd rs1 rs2 => [.reg rd, .reg rs1, .reg rs2]
  | .sub rd rs1 rs2 => [.reg rd, .reg rs1, .reg rs2]
  | .sll rd rs1 rs2 => [.reg rd, .reg rs1, .reg rs2]
  | .slt rd rs1 rs2 => [.reg rd, .reg rs1, .reg rs2]
  | .sltu rd rs1 rs2 => [.reg rd, .reg rs1, .reg rs2]
  | .xor rd rs1 rs2 => [.reg rd, .reg rs1, .reg rs2]
  | .srl rd rs1 rs2 => [.reg rd, .reg rs1, .reg rs2]
  | .sra rd rs1 rs2 => [.reg rd, .reg rs1, .reg rs2]
  | .or rd rs1 rs2 => [.reg rd, .reg rs1, .reg rs2]
  | .and rd rs1 rs2 => [.reg rd, .reg rs1, .reg rs2]
  | .addi rd rs1 imm => [.reg rd, .reg rs1, .num imm.toInt]
  | .slti rd rs1 imm => [.reg rd, .reg rs1, .num imm.toInt]
  | .sltiu rd rs1 imm => [.reg rd, .reg rs1, .num imm.toInt]
  | .xori rd rs1 imm => [.reg rd, .reg rs1, .num imm.toInt]
  | .ori rd rs1 imm => [.reg rd, .reg rs1, .num imm.toInt]
  | .andi rd rs1 imm => [.reg rd, .reg rs1, .num imm.toInt]
  | .slli rd rs1 shamt => [.reg rd, .reg rs1, .num shamt.toNat]
  | .srli rd rs1 shamt => [.reg rd, .reg rs1, .num shamt.toNat]
  | .srai rd rs1 shamt => [.reg rd, .reg rs1, .num shamt.toNat]
  | .lui rd imm20 => [.reg rd, .num imm20.toNat]
  | .auipc rd imm20 => [.reg rd, .num imm20.toNat]
  | .lb rd rs1 imm => [.reg rd, .mem imm.toInt rs1]
  | .lh rd rs1 imm => [.reg rd, .mem imm.toInt rs1]
  | .lw rd rs1 imm => [.reg rd, .mem imm.toInt rs1]
  | .lbu rd rs1 imm => [.reg rd, .mem imm.toInt rs1]
  | .lhu rd rs1 imm => [.reg rd, .mem imm.toInt rs1]
  | .lwu rd rs1 imm => [.reg rd, .mem imm.toInt rs1]
  | .ld rd rs1 imm => [.reg rd, .mem imm.toInt rs1]
  | .sb rs2 rs1 imm => [.reg rs2, .mem imm.toInt rs1]
  | .sh rs2 rs1 imm => [.reg rs2, .mem imm.toInt rs1]
  | .sw rs2 rs1 imm => [.reg rs2, .mem imm.toInt rs1]
  | .sd rs2 rs1 imm => [.reg rs2, .mem imm.toInt rs1]
  | .beq rs1 rs2 imm => [.reg rs1, .reg rs2, .num imm.toInt]
  | .bne rs1 rs2 imm => [.reg rs1, .reg rs2, .num imm.toInt]
  | .blt rs1 rs2 imm => [.reg rs1, .reg rs2, .num imm.toInt]
  | .bge rs1 rs2 imm => [.reg rs1, .reg rs2, .num imm.toInt]
  | .bltu rs1 rs2 imm => [.reg rs1, .reg rs2, .num imm.toInt]
  | .bgeu rs1 rs2 imm => [.reg rs1, .reg rs2, .num imm.toInt]
  | .jal rd imm => [.reg rd, .num imm.toInt]
  | .jalr rd rs1 imm => [.reg rd, .mem imm.toInt rs1]

/-- The name of rule R79: of the row the fields select, `unknown` where no row matches. -/
def mnemonicOf {x : XLen} (f : DecodedFields x) : String :=
  match instrOfFields f with
  | some i => i.mnemonic.toLower
  | none => "unknown"

/-- The operands of a line: none for the safe no-op (DEDUCED, log entry 12). -/
def diagOperands {x : XLen} (f : DecodedFields x) : List DiagOperand :=
  match instrOfFields f with
  | some i => operandsOf i
  | none => []

/-- The `pc` in hexadecimal, most significant digit first. -/
def pcDigits {x : XLen} (pc : Word x) : List Char := Nat.toDigits 16 pc.toNat

def regText (r : RegIndex) : String := "x" ++ toString r.toNat

def DiagOperand.text : DiagOperand → String
  | .reg r => regText r
  | .num n => toString n
  | .mem offset base => toString offset ++ "(" ++ regText base ++ ")"

/-- One line of the channel as text (rule R143). -/
def DiagLine.text {x : XLen} (l : DiagLine x) : String :=
  "0x" ++ String.ofList (pcDigits l.pc) ++ " " ++ mnemonicOf l.fields ++ " " ++
    String.intercalate ", " ((diagOperands l.fields).map DiagOperand.text)

end Sys2Proof.Machine
end

