-- ==== Sys2Proof/Machine/HostView.lean ====
section
/-!
DEFINITION. What the host does and sees (rules R154, R155, R260, R280 to R282).

The host builds a machine, calls `step`, and reads; it acts only between steps (rules R9, R262).
-/

namespace Sys2Proof.Machine

variable {x : XLen}

/-- The result of `step()` and `run()` (rule R154). -/
inductive StepResult (x : XLen) where
  | continue
  | endOfProgram
  | fatal (c : Condition x)
  deriving DecidableEq, Repr

/-- The result `step()` returns together with the state it leaves (rule R154). -/
def CoreState.result (m : CoreState x) : StepResult x :=
  match m.status with
  | .running => .continue
  | .ended => .endOfProgram
  | .failed c => .fatal c

/-- `n` steps: `n` clock cycles where the state holds no other call. -/
def stepN : Nat → State → Host.Outcome State Fault Refusal
  | 0, s => .next s
  | n + 1, s =>
    match step s with
    | .next t => stepN n t
    | .fault f => .fault f
    | .refused r => .refused r

/-- `run()` under fuel (rule R155): the step in which the host makes that call. -/
def run (fuel : Nat) (s : State) : Host.Outcome State Fault Refusal :=
  step { s with call := .run fuel }

/-- The failing program counter a condition names, where it names one (rules R250, R260). -/
def Condition.failingPc : Condition x → Option (Word x)
  | .illegalInstruction pc _ => some pc
  | .illegalAluOperation => none
  | .instructionFetchFailure pc => some pc
  | .invalidAccessSize _ _ => none
  | .outOfRange _ => none

/-- What the core supplies to the driver's report (rule R260). -/
structure HostReport (x : XLen) where
  result    : StepResult x
  failingPc : Option (Word x)
  cycles    : Nat
  issued    : Nat
  completed : Nat
  deriving DecidableEq, Repr

def CoreState.report (m : CoreState x) : HostReport x where
  result := m.result
  failingPc :=
    match m.status with
    | .failed c => c.failingPc
    | .running => none
    | .ended => none
  cycles := m.cycles
  issued := m.instructionsIssued
  completed := m.instructionsCompleted

/-! ## Building a machine (rules R280 to R282, U4) -/

/-- Why the host's configuration is refused before anything runs. -/
inductive ConfigRefusal where
  /-- `SENTINEL_WORD` has an opcode of the map (rule R69, U4). -/
  | sentinelIsInstruction
  /-- The memory image is not a canonical list inside the extent. -/
  | imageNotCanonical
  deriving DecidableEq, Repr

/-- Rules R4, R69: the sentinel's opcode is outside the opcode-to-format map. -/
def legalSentinel (cfg : Config) : Bool := formatOf (opcodeOf cfg.sentinel) == .Unknown

/-- The machine of a configuration, an image and the host's reset values, or why it is refused
(DEDUCED, log entry 18). -/
def construct (x : XLen) (cfg : Config) (image : List Host.Cell) (r : ResetValues x) :
    Except ConfigRefusal State :=
  if legalSentinel cfg = false then .error .sentinelIsInstruction
  else if memoryWf cfg x.bits image = false then .error .imageNotCanonical
  else .ok { xlen := x, core := CoreState.build cfg image r }

/-- The image that holds words from an address upward (the layout of `95_test_vectors.md`). -/
def imageOfWords : List Host.Cell → Nat → List InstrWord → List Host.Cell
  | mem, _, [] => mem
  | mem, a, w :: rest => imageOfWords (placeWord mem a w) (a + 4) rest

end Sys2Proof.Machine
end

