-- ==== Sys2Proof/Safety.lean ====
section
/-!
DEFINITION. What claims about runs are stated in: the invariant of the machine, the non-pipelined
machine between instructions, and hazard freedom (rules R157, R267, R286, R290).
-/

namespace Sys2Proof.Machine

variable {x : XLen}

/-! ## Occupancy -/

/-- How many instructions have been issued and not completed: those in `ID_EX`, `EX_M`, `M_WB`
(rule R267). -/
def CoreState.issuedInFlight (m : CoreState x) : Nat :=
  m.idEx.isSome.toNat + m.exM.isSome.toNat + m.mWb.isSome.toNat

/-- How many instructions are in the four pipeline registers. -/
def CoreState.occupancy (m : CoreState x) : Nat := m.ifId.isSome.toNat + m.issuedInFlight

/-! ## The invariant every cycle keeps -/

/-- The fields come from a word the decoder accepts. -/
def decodedFrom (f : DecodedFields x) : Prop := ∃ w : InstrWord, decodeFields x w = .ok f

/-- An instruction past Decode carries the fields of a word of a known format, the bundle the generator
made for it (rule R123), and the aligned address it was fetched from (rule R13). -/
def issuedProperly (pc : Word x) (f : DecodedFields x) (ctrl : ControlSignals x) : Prop :=
  pc.toNat % 4 = 0 ∧ decodedFrom f ∧ ∃ a b : Word x, ctrl = generate f pc a b

/-- The invariant of a core. -/
structure Inv (m : CoreState x) : Prop where
  /-- Memory is in canonical form, inside the extent. -/
  memory : Memory.wf m = true
  /-- `x[0]` holds 0 (rule R11). -/
  zero : m.regs[0] = 0#x.bits
  /-- `pc` is even; only a transfer to a target that is 2 modulo 4 makes it no multiple of 4 (R14). -/
  pcEven : m.pc.toNat % 2 = 0
  /-- `IF_ID` holds a word fetched from an aligned address that is not the sentinel (R134, R136). -/
  ifId : ∀ d, m.ifId = some d → d.pc.toNat % 4 = 0 ∧ d.word ≠ m.cfg.sentinel
  idEx : ∀ d, m.idEx = some d → issuedProperly d.pc d.fields d.ctrl
  exM : ∀ e, m.exM = some e → issuedProperly e.pc e.fields e.ctrl
  mWb : ∀ w, m.mWb = some w → ∃ f, issuedProperly w.pc f w.ctrl ∧ w.rd = f.rd
  /-- Rule R267: the instructions issued and not completed are those in flight past Decode. -/
  counters : m.instructionsIssued = m.instructionsCompleted + m.issuedInFlight
  /-- Rule R18: `Ended` means Fetch stopped and the pipeline empty, and `Running` means not both. -/
  ended : m.status = .ended → m.fetchStopped = true ∧ m.empty = true
  running : m.status = .running → ¬ (m.fetchStopped = true ∧ m.empty = true)
  /-- Rule R157: in non-pipelined mode an instruction is alone in the machine. -/
  serial : m.cfg.pipelining = false → m.occupancy ≤ 1

/-! ## The non-pipelined machine between instructions -/

/-- A core in non-pipelined mode that, while it runs, has nothing in flight and may fetch. -/
def CoreState.betweenInstructions (m : CoreState x) : Prop :=
  m.cfg.pipelining = false ∧
    (m.status = .running → m.fetchStopped = false ∧ m.empty = true)

/-! ## Hazards (rules R286, R290) -/

/-- The instruction with these fields reads register `r` in Decode (rule R140). -/
def readsReg (f : DecodedFields x) (r : RegIndex) : Bool :=
  (f.format.hasRs1 && f.rs1 == r) || (f.format.hasRs2 && f.rs2 == r)

/-- The register an instruction with these fields and signals will write, if any; a write to `x[0]`
changes nothing. -/
def pendingWrite (f : DecodedFields x) (ctrl : ControlSignals x) : List RegIndex :=
  if ctrl.regWrite && f.rd != 0#5 then [f.rd] else []

/-- The registers the instructions in `IF_ID`, `ID_EX` and `EX_M` will write: the three fetched before
the one Fetch reads now whose writes a Decode in the next cycle does not see (rule R286). -/
def CoreState.pendingWrites (m : CoreState x) : List RegIndex :=
  (match m.ifId with
    | none => []
    | some d =>
      match decodeFields x d.word with
      | .error _ => []
      | .ok f => pendingWrite f (generate f d.pc 0#x.bits 0#x.bits)) ++
  (match m.idEx with
    | none => []
    | some d => pendingWrite d.fields d.ctrl) ++
  (match m.exM with
    | none => []
    | some e => pendingWrite e.fields e.ctrl)

/-- The instruction with these fields, fetched now, reads no register with a pending write. -/
def CoreState.hazardFree (m : CoreState x) (f : DecodedFields x) : Bool :=
  m.pendingWrites.all (fun r => !readsReg f r)

/-- The core with Fetch stopped: the next cycles only drain it (rule R156). -/
def CoreState.stopFetch (m : CoreState x) : CoreState x := { m with fetchStopped := true }

/-! ## Frames: what an instruction's passage leaves alone -/

/-- The part of a core that no instruction's passage changes otherwise than as every passage does: the
parameters, the four pipeline registers, `fetchStopped` and `status` stay; one instruction is issued and
completed, five cycles are counted (R153, R292), and Decode's line goes to the channel (R143). -/
structure Passed (m t : CoreState x) (i : Instr) : Prop where
  cfg : t.cfg = m.cfg
  ifId : t.ifId = m.ifId
  idEx : t.idEx = m.idEx
  exM : t.exM = m.exM
  mWb : t.mWb = m.mWb
  fetchStopped : t.fetchStopped = m.fetchStopped
  status : t.status = m.status
  issued : t.instructionsIssued = m.instructionsIssued + 1
  completed : t.instructionsCompleted = m.instructionsCompleted + 1
  cycles : t.cycles = m.cycles + 5
  diag : t.diag = m.diagWith m.pc (i.fields x)

/-- Every byte of memory reads as before. -/
def sameBytes (m t : CoreState x) : Prop :=
  ∀ a : Nat, readByte t.cfg t.mem a = readByte m.cfg m.mem a

/-- Every register reads as before, except `rd`. -/
def sameRegsBut (m t : CoreState x) (rd : RegIndex) : Prop :=
  ∀ r : RegIndex, r ≠ rd → t.readReg r = m.readReg r

/-- Every register reads as before. -/
def sameRegs (m t : CoreState x) : Prop := ∀ r : RegIndex, t.readReg r = m.readReg r

/-- `exec i` completes: `x[rd]` reads as `v`, or as 0 when `rd` is `x[0]` (rule R11), `pc` is `pc'`, and
nothing else changes but what every passage changes. -/
def writesRegister (m : CoreState x) (i : Instr) (rd : RegIndex) (v pc' : Word x) : Prop :=
  ∃ t : CoreState x, exec i { xlen := x, core := m } = .next { xlen := x, core := t } ∧
    t.readReg rd = (if rd = 0#5 then 0#x.bits else v) ∧ t.pc = pc' ∧
    sameRegsBut m t rd ∧ sameBytes m t ∧ t.mem = m.mem ∧ Passed m t i

/-- `exec i` completes and only moves `pc` to `pc'`. -/
def onlyMovesPc (m : CoreState x) (i : Instr) (pc' : Word x) : Prop :=
  ∃ t : CoreState x, exec i { xlen := x, core := m } = .next { xlen := x, core := t } ∧
    t.pc = pc' ∧ sameRegs m t ∧ sameBytes m t ∧ t.mem = m.mem ∧ Passed m t i

/-- Byte `k` of an access at `ea` (rules R30, R31): its address modulo `2^XLEN`. -/
def accessAddr (ea : Word x) (k : Nat) : Nat := (ea.toNat + k) % 2 ^ x.bits

/-- The data memory accepts an access of `n` bytes at `ea` (rules R31, R36, R41): every byte is in the
extent, and the address is a multiple of `n` unless misaligned accesses are split. -/
def accepted (m : CoreState x) (ea : Word x) (n : Nat) : Prop :=
  (m.cfg.misaligned = .fault → ea.toNat % n = 0) ∧
    ∀ k, k < n → holdsAddr m.cfg (accessAddr ea k) = true

/-- `exec i` completes and stores the low `n` bytes of `v` at `ea`, byte `k` being `v[8k+7:8k]`
(rule R35); every other byte, every register and everything else stays. -/
def storesBytes (m : CoreState x) (i : Instr) (ea : Word x) (n : Nat) (v : Word x) : Prop :=
  ∃ t : CoreState x, exec i { xlen := x, core := m } = .next { xlen := x, core := t } ∧
    (∀ k, k < n → readByte t.cfg t.mem (accessAddr ea k) = some (v.extractLsb' (8 * k) 8)) ∧
    (∀ a, (∀ k, k < n → a ≠ accessAddr ea k) →
      readByte t.cfg t.mem a = readByte m.cfg m.mem a) ∧
    t.pc = m.pc + 4#x.bits ∧ sameRegs m t ∧ Passed m t i

/-- `exec i` takes the fatal condition `OutOfRange(ea)` (rules R210, R218, R254, R256): no register and
no byte of memory changes, and the instruction is not counted as completed. -/
def failsOutOfRange (m : CoreState x) (i : Instr) (ea : Word x) : Prop :=
  ∃ t : CoreState x, exec i { xlen := x, core := m } = .next { xlen := x, core := t } ∧
    t.status = .failed (.outOfRange ea) ∧ t.regs = m.regs ∧ t.mem = m.mem ∧ t.cfg = m.cfg ∧
    t.instructionsCompleted = m.instructionsCompleted

/-! ## A cycle that is not abandoned -/

/-- A running core goes through a whole cycle, its clock edge included, to `t` (rules R131, R256). -/
def advances (m t : CoreState x) : Prop :=
  m.status = .running ∧ step { xlen := x, core := m } = .next { xlen := x, core := t } ∧
    ∀ c, t.status ≠ .failed c

/-- Fetch reads the sentinel in this cycle (rule R136). -/
def CoreState.readsSentinel (m : CoreState x) : Prop :=
  m.fetchEnabled = true ∧ m.fetchWord = .ok m.cfg.sentinel

/-- Fetch fetches the instruction word `w` in this cycle (rule R134). -/
def CoreState.fetches (m : CoreState x) (w : InstrWord) : Prop :=
  m.fetchEnabled = true ∧ m.fetchWord = .ok w ∧ w ≠ m.cfg.sentinel

/-- The bundle Decode generates in this cycle for the instruction in `IF_ID`, if there is one and its
word decodes (rules R139 to R141). -/
def CoreState.decodeSignals (m : CoreState x) : Option (ControlSignals x) :=
  match m.ifId with
  | none => none
  | some d =>
    match decodeFields x d.word with
    | .error _ => none
    | .ok f => some (generate f d.pc (m.operand1 f) (m.operand2 f))

end Sys2Proof.Machine
end

