-- ==== Sys2Proof/Certificates/Slice0/Obligations.lean ====
section
/-!
DEFINITION. The statements for the provers.

They are about the machine, for both widths and every value of the parameters of rule R4, since a core
carries them.  Values are said in integers where the spec says them so, and through the machine's own
read of a register or of one byte.  A state written by its width and core alone holds the call `step()`,
so a step of it is one clock cycle (rule R154).
-/

open Sys2Proof Sys2Proof.Machine

/-! ## The ALU (`41_alu.md`) -/

/-- R91, R92: addition and subtraction modulo `2^XLEN`, never failing. -/
def Obligations.AdditionAndSubtractionWrap : Prop :=
  ∀ (x : XLen) (a b : Word x),
    (∃ r, execute a b .ADD = .ok r ∧ r.toNat = (a.toNat + b.toNat) % 2 ^ x.bits) ∧
    (∃ r, execute a b .SUB = .ok r ∧
      (r.toNat : Int) = ((a.toNat : Int) - (b.toNat : Int)) % (2 ^ x.bits : Int))

/-- R93, R94, R95: bit by bit. -/
def Obligations.LogicalOperationsAreBitwise : Prop :=
  ∀ (x : XLen) (a b : Word x), ∃ p q r,
    execute a b .AND = .ok p ∧ execute a b .OR = .ok q ∧ execute a b .XOR = .ok r ∧
    ∀ i, i < x.bits →
      (p.getLsbD i = true ↔ a.getLsbD i = true ∧ b.getLsbD i = true) ∧
      (q.getLsbD i = true ↔ a.getLsbD i = true ∨ b.getLsbD i = true) ∧
      (r.getLsbD i = true ↔ a.getLsbD i ≠ b.getLsbD i)

/-- R96, R97, R98, R103: shifts by `unsigned(b) mod XLEN`, as multiplication and floor division. -/
def Obligations.ShiftsUseTheAmountModuloXlen : Prop :=
  ∀ (x : XLen) (a b : Word x), ∃ p q r,
    execute a b .SLL = .ok p ∧ execute a b .SRL = .ok q ∧ execute a b .SRA = .ok r ∧
    p.toNat = (a.toNat * 2 ^ (b.toNat % x.bits)) % 2 ^ x.bits ∧
    q.toNat = a.toNat / 2 ^ (b.toNat % x.bits) ∧
    r.toInt = a.toInt / (2 ^ (b.toNat % x.bits) : Int)

/-- R99, R100: 1 or 0 by the signed and the unsigned comparison of the values. -/
def Obligations.ComparisonsGiveOneOrZero : Prop :=
  ∀ (x : XLen) (a b : Word x), ∃ p q,
    execute a b .SLT = .ok p ∧ execute a b .SLTU = .ok q ∧
    p.toNat = (if a.toInt < b.toInt then 1 else 0) ∧
    q.toNat = (if a.toNat < b.toNat then 1 else 0)

/-- R101, R102, R90: the pass-through gives the second operand; `UNSET` and only it fails, with
IllegalInstruction.  That this failure is a condition of its own that carries nothing,
`illegalAluOperation`, is the model's reading (DEDUCED, log entry 17). -/
def Obligations.OnlyTheUnsetOperationFails : Prop :=
  ∀ (x : XLen) (a b : Word x),
    execute a b .PASSTHROUGH = .ok b ∧
    (∀ c, execute a b .UNSET = .error c → c = .illegalAluOperation) ∧
    ∀ op, (∃ c, execute a b op = .error c) ↔ op = .UNSET

/-! ## The decoder (`30_encoding.md`, `40_decoder.md`) -/

/-- R52: the nine opcodes and their formats; every other opcode is `Unknown`.  The format is a function
of the low seven bits of the word alone. -/
def Obligations.OpcodeMapHasNineEntries : Prop :=
  ∀ w : InstrWord,
    formatOf (opcodeOf w) =
      if w.toNat % 2 ^ 7 = 0x33 then .R
      else if w.toNat % 2 ^ 7 ∈ [0x13, 0x03, 0x67] then .I
      else if w.toNat % 2 ^ 7 = 0x23 then .S
      else if w.toNat % 2 ^ 7 = 0x63 then .B
      else if w.toNat % 2 ^ 7 ∈ [0x37, 0x17] then .U
      else if w.toNat % 2 ^ 7 = 0x6F then .J
      else .Unknown

/-- R72, R73, R74: `decode` fails exactly on an `Unknown` format; otherwise the function fields are the
raw bits in every format, and a register index is the field the format has, or 0; an instruction of a
format without `rd` writes no register.  That last clause is the inference R74 marks as the spec's own
(from R116 and R117).  That an absent index is never read is `DecodeReadsTheOldRegisters`. -/
def Obligations.DecodeExtractsTheFields : Prop :=
  ∀ (x : XLen) (w : InstrWord),
    (formatOf (opcodeOf w) = .Unknown ↔ decodeFields x w = .error .illegalInstruction) ∧
    ∀ fmt, formatOf (opcodeOf w) = fmt → fmt ≠ .Unknown →
      ∃ f, decodeFields x w = .ok f ∧ f.format = fmt ∧
        f.opcode.toNat = w.toNat % 2 ^ 7 ∧
        f.funct3.toNat = w.toNat / 2 ^ 12 % 2 ^ 3 ∧
        f.funct7.toNat = w.toNat / 2 ^ 25 % 2 ^ 7 ∧
        f.rs1.toNat = (if fmt ∈ [.R, .I, .S, .B] then w.toNat / 2 ^ 15 % 2 ^ 5 else 0) ∧
        f.rs2.toNat = (if fmt ∈ [.R, .S, .B] then w.toNat / 2 ^ 20 % 2 ^ 5 else 0) ∧
        f.rd.toNat = (if fmt ∈ [.R, .I, .U, .J] then w.toNat / 2 ^ 7 % 2 ^ 5 else 0) ∧
        (fmt ∈ [.S, .B] → ∀ pc a b : Word x, (generate f pc a b).regWrite = false)

/-- R75 with the layouts of R53 to R58: the immediate as the signed number its bits make. -/
def Obligations.ImmediatesHaveTheirSignedValue : Prop :=
  ∀ (x : XLen) (w : InstrWord) (f : DecodedFields x), decodeFields x w = .ok f →
    (f.format = .R → f.immediate.toInt = 0) ∧
    (f.format = .I → f.immediate.toInt = w.toInt / 2 ^ 20) ∧
    (f.format = .S → f.immediate.toInt = w.toInt / 2 ^ 25 * 2 ^ 5 + (w.toNat / 2 ^ 7 % 2 ^ 5 : Nat)) ∧
    (f.format = .B → f.immediate.toInt =
      w.toInt / 2 ^ 31 * 2 ^ 12 + (w.toNat / 2 ^ 7 % 2 * 2 ^ 11 + w.toNat / 2 ^ 25 % 2 ^ 6 * 2 ^ 5 +
        w.toNat / 2 ^ 8 % 2 ^ 4 * 2 : Nat)) ∧
    (f.format = .U → f.immediate.toInt = w.toInt / 2 ^ 12 * 2 ^ 12) ∧
    (f.format = .J → f.immediate.toInt =
      w.toInt / 2 ^ 31 * 2 ^ 20 + (w.toNat / 2 ^ 12 % 2 ^ 8 * 2 ^ 12 + w.toNat / 2 ^ 20 % 2 * 2 ^ 11 +
        w.toNat / 2 ^ 21 % 2 ^ 10 * 2 : Nat))

/-- On words of a known format `decode` is injective: R78, an inference the spec draws from R73 to
R75. -/
def Obligations.DecodeIsInjective : Prop :=
  ∀ (x : XLen) (w w' : InstrWord) (f : DecodedFields x),
    decodeFields x w = .ok f → decodeFields x w' = .ok f → w = w'

/-- R62, R63: an instruction's word decodes to it, every operand kept, at every width it exists at. -/
def Obligations.DecodeOfEncodeIsTheInstruction : Prop :=
  ∀ (x : XLen) (i : Instr), i.wellFormed x = true → decodeInstr x (encode i) = .ok i

/-- R62, R63: a word that decodes to an instruction is that instruction's word, and the instruction is
one of the width. -/
def Obligations.EncodeOfDecodeIsTheWord : Prop :=
  ∀ (x : XLen) (w : InstrWord) (i : Instr),
    decodeInstr x w = .ok i → encode i = w ∧ i.wellFormed x = true

/-- R63: the steps of the decoder for the whole hardware.  The sentinel is never decoded; an `Unknown`
opcode is illegal; a word that a row of the table owns (`w & mask = match`) is that row's instruction,
and no two rows own one word; a word of a known opcode that no row owns is the safe no-op.  The table
has 37 rows at `XLEN = 32` and 40 at `XLEN = 64`. -/
def Obligations.DecoderAgreesWithTheOpcodeTable : Prop :=
  (opcodeTable .x32).length = 37 ∧ (opcodeTable .x64).length = 40 ∧
  ∀ (x : XLen) (sentinel w : InstrWord),
    (classifyWord x sentinel w = .sentinel ↔ w = sentinel) ∧
    (w ≠ sentinel →
      (formatOf (opcodeOf w) = .Unknown → classifyWord x sentinel w = .illegal) ∧
      (∀ r, r ∈ opcodeTable x → r.owns w = true →
        ∃ i, classifyWord x sentinel w = .instr i ∧ i.mnemonic = r.mnemonic ∧
          i.wellFormed x = true) ∧
      (∀ i, classifyWord x sentinel w = .instr i →
        ∃ r, r ∈ opcodeTable x ∧ r.owns w = true ∧ r.mnemonic = i.mnemonic) ∧
      (formatOf (opcodeOf w) ≠ .Unknown → (∀ r, r ∈ opcodeTable x → r.owns w = false) →
        classifyWord x sentinel w = .safeNoOp)) ∧
    (∀ r r', r ∈ opcodeTable x → r' ∈ opcodeTable x → r.owns w = true → r'.owns w = true → r = r')

/-- R64, R65: a word is illegal exactly when its opcode is outside the map; in particular every word of
an excluded family, and every word whose low two bits are not `11`. -/
def Obligations.IllegalWordsAreThoseOfUnknownOpcodes : Prop :=
  ∀ (x : XLen) (w : InstrWord),
    (decodeInstr x w = .error .illegalInstruction ↔ formatOf (opcodeOf w) = .Unknown) ∧
    (opcodeOf w ∈ [0b0001111#7, 0b1110011#7, 0b0011011#7, 0b0111011#7, 0b0101111#7, 0b0000111#7,
        0b0100111#7, 0b1010011#7, 0b1000011#7, 0b1000111#7, 0b1001011#7, 0b1001111#7, 0b0001011#7,
        0b0101011#7, 0b1011011#7, 0b1111011#7] →
      decodeInstr x w = .error .illegalInstruction) ∧
    (w.toNat % 4 ≠ 3 → decodeInstr x w = .error .illegalInstruction)

/-- R66: the safe no-op words are those of a known opcode with the listed function codes. -/
def Obligations.SafeNoOpWordsAreTheListedCombinations : Prop :=
  ∀ (x : XLen) (w : InstrWord),
    decodeInstr x w = .error .safeNoOp ↔
      (opcodeOf w = 0x33#7 ∧ funct7Of w ≠ 0#7 ∧
        ¬ (funct7Of w = 0x20#7 ∧ (funct3Of w = 0#3 ∨ funct3Of w = 5#3))) ∨
      (opcodeOf w = 0x13#7 ∧ funct3Of w = 1#3 ∧
        (if x = .x32 then funct7Of w ≠ 0#7 else w.toNat / 2 ^ 26 ≠ 0)) ∨
      (opcodeOf w = 0x13#7 ∧ funct3Of w = 5#3 ∧
        (if x = .x32 then funct7Of w ≠ 0#7 ∧ funct7Of w ≠ 0x20#7
         else w.toNat / 2 ^ 26 ≠ 0 ∧ w.toNat / 2 ^ 26 ≠ 0x10)) ∨
      (opcodeOf w = 0x03#7 ∧ (funct3Of w = 7#3 ∨ x = .x32 ∧ (funct3Of w = 3#3 ∨ funct3Of w = 6#3))) ∨
      (opcodeOf w = 0x23#7 ∧ (4 ≤ (funct3Of w).toNat ∨ x = .x32 ∧ funct3Of w = 3#3)) ∨
      (opcodeOf w = 0x63#7 ∧ (funct3Of w = 2#3 ∨ funct3Of w = 3#3)) ∨
      (opcodeOf w = 0x67#7 ∧ funct3Of w ≠ 0#3)

/-- Words written out from the encodings of R62 decode to the instructions they stand for: one of each
family, and the two forms of a shift-immediate. -/
def Obligations.WordsOfTheSpecDecode : Prop :=
  decodeInstr .x32 0x002081B3#32 = .ok (.add 3#5 1#5 2#5) ∧
  decodeInstr .x32 0x4020D1B3#32 = .ok (.sra 3#5 1#5 2#5) ∧
  decodeInstr .x32 0xFFB08193#32 = .ok (.addi 3#5 1#5 (BitVec.ofInt 12 (-5))) ∧
  decodeInstr .x64 0x02109193#32 = .ok (.slli 3#5 1#5 33#6) ∧
  decodeInstr .x32 0x02109193#32 = .error .safeNoOp ∧
  decodeInstr .x32 0x123451B7#32 = .ok (.lui 3#5 0x12345#20) ∧
  decodeInstr .x32 0xFFC0A183#32 = .ok (.lw 3#5 1#5 (BitVec.ofInt 12 (-4))) ∧
  decodeInstr .x64 0xFE20BE23#32 = .ok (.sd 2#5 1#5 (BitVec.ofInt 12 (-4))) ∧
  decodeInstr .x32 0xFE209CE3#32 = .ok (.bne 1#5 2#5 (BitVec.ofInt 13 (-8))) ∧
  decodeInstr .x32 0x028002EF#32 = .ok (.jal 5#5 40#21) ∧
  decodeInstr .x32 0x008280E7#32 = .ok (.jalr 1#5 5#5 8#12)

/-! ## The control-signal generator (`42_control.md`) -/

/-- R121: the combinations in no row, and only they, get the safe no-op bundle. -/
def Obligations.UnlistedCombinationsGetTheNoOpBundle : Prop :=
  ∀ (x : XLen) (w : InstrWord) (f : DecodedFields x) (pc a b : Word x),
    decodeFields x w = .ok f →
      (instrOfFields f = none ↔
        generate f pc a b =
          { aluOp := .PASSTHROUGH, memRead := false, memWrite := false, regWrite := false,
            branchTaken := false, branchTarget := 0 })

/-- R111, R124 and the rows: a valid ALU operation always; never a read and a write of memory together;
a load has a width and writes a register, a store has a width and writes none; only branches, JAL and
JALR are taken or have a target. -/
def Obligations.BundlesAreConsistent : Prop :=
  ∀ (x : XLen) (f : DecodedFields x) (pc a b : Word x) (c : ControlSignals x),
    generate f pc a b = c →
      c.aluOp ≠ .UNSET ∧ ¬ (c.memRead = true ∧ c.memWrite = true) ∧
      (c.memRead = true → c.regWrite = true ∧ f.opcode = 0x03#7 ∧ (loadWidth x f.funct3).isSome) ∧
      (c.memWrite = true → c.regWrite = false ∧ f.opcode = 0x23#7 ∧ (storeWidth x f.funct3).isSome) ∧
      (f.opcode ∉ [0x63#7, 0x6F#7, 0x67#7] → c.branchTaken = false ∧ c.branchTarget = 0) ∧
      (c.branchTaken = true ∧ c.regWrite = true → f.opcode = 0x6F#7 ∨ f.opcode = 0x67#7)

/-- R112 and R113: the ten OP triples, keyed as the spec writes them. -/
def Obligations.RegisterRegisterRowsSelectTheirOperation : Prop :=
  ∀ (x : XLen) (w : InstrWord) (pc a b : Word x) (row : Nat × Nat × AluOp),
    row ∈ [(0, 0, .ADD), (0, 0x20, .SUB), (1, 0, .SLL), (2, 0, .SLT), (3, 0, .SLTU), (4, 0, .XOR),
           (5, 0, .SRL), (5, 0x20, .SRA), (6, 0, .OR), (7, 0, .AND)] →
    opcodeOf w = 0x33#7 → (funct3Of w).toNat = row.1 → (funct7Of w).toNat = row.2.1 →
      ∃ f, decodeFields x w = .ok f ∧
        generate f pc a b =
          { aluOp := row.2.2, memRead := false, memWrite := false, regWrite := true,
            branchTaken := false, branchTarget := 0 }

/-- R117, R118: a branch's decision is the comparison of the two register values, and its target is
`pc +w imm` whether or not it is taken. -/
def Obligations.BranchBundleComparesTheOperands : Prop :=
  ∀ (x : XLen) (rs1 rs2 : RegIndex) (imm : BitVec 13) (pc a b : Word x) (c : ControlSignals x)
    (row : Instr × AluOp × Prop),
    row ∈ [(.beq rs1 rs2 imm, .SUB, a = b), (.bne rs1 rs2 imm, .SUB, a ≠ b),
           (.blt rs1 rs2 imm, .SLT, a.toInt < b.toInt), (.bge rs1 rs2 imm, .SLT, b.toInt ≤ a.toInt),
           (.bltu rs1 rs2 imm, .SLTU, a.toNat < b.toNat),
           (.bgeu rs1 rs2 imm, .SLTU, b.toNat ≤ a.toNat)] →
    imm.getLsbD 0 = false → generate (row.1.fields x) pc a b = c →
      (c.branchTaken = true ↔ row.2.2) ∧ c.branchTarget = pc + BitVec.ofInt x.bits imm.toInt ∧
      c.aluOp = row.2.1 ∧ c.memRead = false ∧ c.memWrite = false ∧ c.regWrite = false

/-- R120: JAL and JALR are always taken, write a register, and have these targets. -/
def Obligations.JumpBundlesAreTaken : Prop :=
  ∀ (x : XLen) (rd rs1 : RegIndex) (imm21 : BitVec 21) (imm12 : BitVec 12) (pc a b : Word x),
    imm21.getLsbD 0 = false →
      generate ((Instr.jal rd imm21).fields x) pc a b =
        { aluOp := .ADD, memRead := false, memWrite := false, regWrite := true, branchTaken := true,
          branchTarget := pc + BitVec.ofInt x.bits imm21.toInt } ∧
      ∃ t : Word x, generate ((Instr.jalr rd rs1 imm12).fields x) pc a b =
        { aluOp := .ADD, memRead := false, memWrite := false, regWrite := true, branchTaken := true,
          branchTarget := t } ∧
        t.toNat = (a.toNat + (BitVec.ofInt x.bits imm12.toInt).toNat) % 2 ^ x.bits / 2 * 2

/-! ## What each instruction does (`44_` to `47_`) -/

/-- The six fields of an instruction's word. -/
def Sys2Proof.hasFields (i : Instr) (opcode : BitVec 7) (funct3 : BitVec 3) (funct7 : BitVec 7)
    (rd rs1 rs2 : RegIndex) : Prop :=
  opcodeOf (encode i) = opcode ∧ funct3Of (encode i) = funct3 ∧ funct7Of (encode i) = funct7 ∧
    rdOf (encode i) = rd ∧ rs1Of (encode i) = rs1 ∧ rs2Of (encode i) = rs2

/-- R171 to R180: the encoding and the effect of the ten OP instructions, the value in integers, the
frame, and that each completes in every state. -/
def Obligations.RegisterRegisterResults : Prop :=
  ∀ (x : XLen) (m : CoreState x) (rd rs1 rs2 : RegIndex) (a b : Word x),
    a = m.readReg rs1 → b = m.readReg rs2 →
    ∀ row ∈ [
      (Instr.add rd rs1 rs2, 0#3, 0x00#7, BitVec.ofNat x.bits (a.toNat + b.toNat)),
      (Instr.sub rd rs1 rs2, 0#3, 0x20#7, BitVec.ofInt x.bits ((a.toNat : Int) - b.toNat)),
      (Instr.sll rd rs1 rs2, 1#3, 0x00#7, BitVec.ofNat x.bits (a.toNat * 2 ^ (b.toNat % x.bits))),
      (Instr.slt rd rs1 rs2, 2#3, 0x00#7, if a.toInt < b.toInt then 1 else 0),
      (Instr.sltu rd rs1 rs2, 3#3, 0x00#7, if a.toNat < b.toNat then 1 else 0),
      (Instr.xor rd rs1 rs2, 4#3, 0x00#7, a ^^^ b),
      (Instr.srl rd rs1 rs2, 5#3, 0x00#7, BitVec.ofNat x.bits (a.toNat / 2 ^ (b.toNat % x.bits))),
      (Instr.sra rd rs1 rs2, 5#3, 0x20#7, BitVec.ofInt x.bits (a.toInt / 2 ^ (b.toNat % x.bits))),
      (Instr.or rd rs1 rs2, 6#3, 0x00#7, a ||| b),
      (Instr.and rd rs1 rs2, 7#3, 0x00#7, a &&& b)],
      hasFields row.1 0x33#7 row.2.1 row.2.2.1 rd rs1 rs2 ∧
      writesRegister m row.1 rd row.2.2.2 (m.pc + 4#x.bits)

/-- The fields of an I-format word. -/
def Sys2Proof.hasIFields (i : Instr) (opcode : BitVec 7) (funct3 : BitVec 3) (rd rs1 : RegIndex)
    (imm : BitVec 12) : Prop :=
  opcodeOf (encode i) = opcode ∧ funct3Of (encode i) = funct3 ∧ rdOf (encode i) = rd ∧
    rs1Of (encode i) = rs1 ∧ immI (encode i) = imm

/-- R191 to R196: the immediate is sign-extended first, also for SLTIU's unsigned comparison. -/
def Obligations.RegisterImmediateResults : Prop :=
  ∀ (x : XLen) (m : CoreState x) (rd rs1 : RegIndex) (imm : BitVec 12) (a k : Word x),
    a = m.readReg rs1 → k = BitVec.ofInt x.bits imm.toInt →
    ∀ row ∈ [
      (Instr.addi rd rs1 imm, 0#3, BitVec.ofInt x.bits ((a.toNat : Int) + imm.toInt)),
      (Instr.slti rd rs1 imm, 2#3, if a.toInt < imm.toInt then 1 else 0),
      (Instr.sltiu rd rs1 imm, 3#3, if a.toNat < k.toNat then 1 else 0),
      (Instr.xori rd rs1 imm, 4#3, a ^^^ k),
      (Instr.ori rd rs1 imm, 6#3, a ||| k),
      (Instr.andi rd rs1 imm, 7#3, a &&& k)],
      hasIFields row.1 0x13#7 row.2.1 rd rs1 imm ∧
      writesRegister m row.1 rd row.2.2 (m.pc + 4#x.bits)

/-- R197, R198, R199: shifts by `shamt`, whose upper bits in the word are `000000` or `010000`; at
`XLEN = 32` a word with `shamt` 32 or more is a safe no-op. -/
def Obligations.ShiftImmediateResults : Prop :=
  ∀ (x : XLen) (m : CoreState x) (rd rs1 : RegIndex) (shamt : BitVec 6) (a : Word x),
    a = m.readReg rs1 →
    ∀ row ∈ [
      (Instr.slli rd rs1 shamt, 1#3, 0x000#12, BitVec.ofNat x.bits (a.toNat * 2 ^ shamt.toNat)),
      (Instr.srli rd rs1 shamt, 5#3, 0x000#12, BitVec.ofNat x.bits (a.toNat / 2 ^ shamt.toNat)),
      (Instr.srai rd rs1 shamt, 5#3, 0x400#12, BitVec.ofInt x.bits (a.toInt / 2 ^ shamt.toNat))],
      hasIFields row.1 0x13#7 row.2.1 rd rs1 (row.2.2.1 + shamt.setWidth 12) ∧
      (shamt.toNat < x.bits → writesRegister m row.1 rd row.2.2.2 (m.pc + 4#x.bits)) ∧
      (x.bits ≤ shamt.toNat →
        decodeInstr x (encode row.1) = .error .safeNoOp ∧ onlyMovesPc m row.1 (m.pc + 4#x.bits))

/-- R200, R201: the fields, the bundle, Execute's two operands (0, or the `pc` that travels in `ID_EX`,
and the immediate, `imm20` times 4096 sign-extended from 32 bits), and the effect; no register is
read. -/
def Obligations.UpperImmediateResults : Prop :=
  ∀ (x : XLen) (m : CoreState x) (rd : RegIndex) (imm20 : BitVec 20) (v : Word x),
    v = BitVec.ofInt x.bits (imm20.toInt * 4096) →
    ∀ row ∈ [
      (Instr.lui rd imm20, 0x37#7, AluOp.PASSTHROUGH, fun _ : Word x => (0 : Word x), v),
      (Instr.auipc rd imm20, 0x17#7, AluOp.ADD, fun pc : Word x => pc, m.pc + v)],
      opcodeOf (encode row.1) = row.2.1 ∧ rdOf (encode row.1) = rd ∧
      (encode row.1).toNat / 2 ^ 12 = imm20.toNat ∧
      (∀ pc a b : Word x, generate (row.1.fields x) pc a b =
        { aluOp := row.2.2.1, memRead := false, memWrite := false, regWrite := true,
          branchTaken := false, branchTarget := 0 }) ∧
      (∀ d : IdEx x, d.fields = row.1.fields x → aluOperands d = .ok (row.2.2.2.1 d.pc, v)) ∧
      (∀ r, readsReg (row.1.fields x) r = false) ∧
      writesRegister m row.1 rd row.2.2.2.2 (m.pc + 4#x.bits)

/-- The effective address is the base register plus the signed offset, modulo `2^XLEN` (R210, R218). -/
def Obligations.EffectiveAddressIsBasePlusOffset : Prop :=
  ∀ (x : XLen) (m : CoreState x) (rs1 : RegIndex) (imm : BitVec 12),
    ((m.effectiveAddress rs1 imm).toNat : Int) =
      (((m.readReg rs1).toNat : Int) + imm.toInt) % (2 ^ x.bits : Int)

/-- The number bytes make, the byte at the lowest address low (R30). -/
def Sys2Proof.bytesValue (byte : Nat → Byte) (n : Nat) : Nat :=
  ∑ k ∈ Finset.range n, (byte k).toNat * 256 ^ k

/-- That number extended to the register (R34). -/
def Sys2Proof.extended (x : XLen) (n : Nat) (signExtend : Bool) (v : Nat) : Word x :=
  if signExtend = true ∧ 2 ^ (8 * n - 1) ≤ v then BitVec.ofInt x.bits ((v : Int) - 2 ^ (8 * n))
  else BitVec.ofNat x.bits v

/-- R211 to R217: each load of the width, where the memory accepts the access: the value of the `n`
bytes at the effective address, extended as the load says; at a width the load does not exist at its
word is a safe no-op. -/
def Obligations.LoadResults : Prop :=
  ∀ (x : XLen) (m : CoreState x) (rd rs1 : RegIndex) (imm : BitVec 12) (byte : Nat → Byte),
    ∀ row ∈ [
      (Instr.lb rd rs1 imm, 0#3, 1, true), (Instr.lh rd rs1 imm, 1#3, 2, true),
      (Instr.lw rd rs1 imm, 2#3, 4, true), (Instr.lbu rd rs1 imm, 4#3, 1, false),
      (Instr.lhu rd rs1 imm, 5#3, 2, false), (Instr.lwu rd rs1 imm, 6#3, 4, false),
      (Instr.ld rd rs1 imm, 3#3, 8, true)],
      hasIFields row.1 0x03#7 row.2.1 rd rs1 imm ∧
      (row.1.wellFormed x = true → accepted m (m.effectiveAddress rs1 imm) row.2.2.1 →
        (∀ k, k < row.2.2.1 →
          readByte m.cfg m.mem (accessAddr (m.effectiveAddress rs1 imm) k) = some (byte k)) →
        writesRegister m row.1 rd
          (extended x row.2.2.1 row.2.2.2 (bytesValue byte row.2.2.1)) (m.pc + 4#x.bits)) ∧
      (row.1.wellFormed x = true ↔ row.2.1 ∈ [3#3, 6#3] → x = .x64) ∧
      (row.1.wellFormed x = false →
        decodeInstr x (encode row.1) = .error .safeNoOp ∧ onlyMovesPc m row.1 (m.pc + 4#x.bits))

/-- R219 to R222: each store of the width, where the memory accepts the access: the low `n` bytes of
`x[rs2]` at the effective address, and no other byte and no register; at `XLEN = 32` the word of SD is a
safe no-op. -/
def Obligations.StoreResults : Prop :=
  ∀ (x : XLen) (m : CoreState x) (rs2 rs1 : RegIndex) (imm : BitVec 12),
    ∀ row ∈ [
      (Instr.sb rs2 rs1 imm, 0#3, 1), (Instr.sh rs2 rs1 imm, 1#3, 2),
      (Instr.sw rs2 rs1 imm, 2#3, 4), (Instr.sd rs2 rs1 imm, 3#3, 8)],
      (opcodeOf (encode row.1) = 0x23#7 ∧ funct3Of (encode row.1) = row.2.1 ∧
        rs1Of (encode row.1) = rs1 ∧ rs2Of (encode row.1) = rs2 ∧ immS (encode row.1) = imm) ∧
      (row.1.wellFormed x = true → accepted m (m.effectiveAddress rs1 imm) row.2.2 →
        storesBytes m row.1 (m.effectiveAddress rs1 imm) row.2.2 (m.readReg rs2)) ∧
      (row.1.wellFormed x = true ↔ row.2.1 = 3#3 → x = .x64) ∧
      (row.1.wellFormed x = false →
        decodeInstr x (encode row.1) = .error .safeNoOp ∧ onlyMovesPc m row.1 (m.pc + 4#x.bits))

/-- R31, R41, R210, R218, R254: a load or store that the memory does not accept takes
`OutOfRange(ea)`; nothing is read into a register and nothing is written.  That an access with only some
of its bytes outside the extent, under `split` too, is refused whole and stores nothing is the model's
reading of these rules (DEDUCED, log entry 15). -/
def Obligations.RefusedAccessesAreOutOfRange : Prop :=
  ∀ (x : XLen) (m : CoreState x) (r rs1 : RegIndex) (imm : BitVec 12),
    ∀ row ∈ [
      (Instr.lb r rs1 imm, 1), (Instr.lh r rs1 imm, 2), (Instr.lw r rs1 imm, 4),
      (Instr.lbu r rs1 imm, 1), (Instr.lhu r rs1 imm, 2), (Instr.lwu r rs1 imm, 4),
      (Instr.ld r rs1 imm, 8), (Instr.sb r rs1 imm, 1), (Instr.sh r rs1 imm, 2),
      (Instr.sw r rs1 imm, 4), (Instr.sd r rs1 imm, 8)],
      row.1.wellFormed x = true → ¬ accepted m (m.effectiveAddress rs1 imm) row.2 →
        failsOutOfRange m row.1 (m.effectiveAddress rs1 imm)

/-- R232 to R237: each branch's fields, its comparison operation, and its effect: to its own address plus
the offset when the comparison of the two registers holds, else to the next instruction; no register is
written.  This is the branch alone in the machine: what the pipelined core fetches in between is
`DelaySlotIsFetchedAndKept`. -/
def Obligations.BranchResults : Prop :=
  ∀ (x : XLen) (m : CoreState x) (rs1 rs2 : RegIndex) (imm : BitVec 13) (a b : Word x),
    a = m.readReg rs1 → b = m.readReg rs2 → imm.getLsbD 0 = false →
    ∀ row ∈ [
      (Instr.beq rs1 rs2 imm, 0#3, AluOp.SUB, decide (a = b)),
      (Instr.bne rs1 rs2 imm, 1#3, AluOp.SUB, decide (a ≠ b)),
      (Instr.blt rs1 rs2 imm, 4#3, AluOp.SLT, decide (a.toInt < b.toInt)),
      (Instr.bge rs1 rs2 imm, 5#3, AluOp.SLT, decide (b.toInt ≤ a.toInt)),
      (Instr.bltu rs1 rs2 imm, 6#3, AluOp.SLTU, decide (a.toNat < b.toNat)),
      (Instr.bgeu rs1 rs2 imm, 7#3, AluOp.SLTU, decide (b.toNat ≤ a.toNat))],
      (opcodeOf (encode row.1) = 0x63#7 ∧ funct3Of (encode row.1) = row.2.1 ∧
        rs1Of (encode row.1) = rs1 ∧ rs2Of (encode row.1) = rs2 ∧ immB (encode row.1) = imm) ∧
      (generate (row.1.fields x) m.pc a b).aluOp = row.2.2.1 ∧
      onlyMovesPc m row.1
        (if row.2.2.2 then m.pc + BitVec.ofInt x.bits imm.toInt else m.pc + 4#x.bits)

/-- R238, R239: the jumps' fields; the link value is the jump's own address plus 4; JAL goes to that
address plus the offset, JALR to the old base register plus the offset with bit 0 cleared.  This is the
jump alone in the machine: the delay slot of pipelined mode is `DelaySlotIsFetchedAndKept`. -/
def Obligations.JumpResults : Prop :=
  ∀ (x : XLen) (m : CoreState x) (rd rs1 : RegIndex) (imm21 : BitVec 21) (imm12 : BitVec 12)
    (t : Word x),
    (t.toNat : Int) =
        (((m.readReg rs1).toNat : Int) + imm12.toInt) % (2 ^ x.bits : Int) / 2 * 2 →
      (hasIFields (.jalr rd rs1 imm12) 0x67#7 0#3 rd rs1 imm12 ∧
        writesRegister m (.jalr rd rs1 imm12) rd (m.pc + 4#x.bits) t) ∧
      (imm21.getLsbD 0 = false →
        (opcodeOf (encode (.jal rd imm21)) = 0x6F#7 ∧ rdOf (encode (.jal rd imm21)) = rd ∧
          immJ (encode (.jal rd imm21)) = imm21) ∧
        writesRegister m (.jal rd imm21) rd (m.pc + 4#x.bits)
          (m.pc + BitVec.ofInt x.bits imm21.toInt))

/-! ## Registers and memory (`10_state.md`, `20_memory.md`) -/

/-- R10, R11: a written register reads back, every other reads as before, `x[0]` reads as zero and a
write to it changes nothing. -/
def Obligations.RegisterFileReadsWhatWasWritten : Prop :=
  ∀ (x : XLen) (m : CoreState x) (r r' : RegIndex) (v : Word x),
    m.readReg 0#5 = 0 ∧ m.writeReg 0#5 v = m ∧
    (r ≠ 0#5 → (m.writeReg r v).readReg r = v) ∧
    (r' ≠ r → (m.writeReg r v).readReg r' = m.readReg r')

/-- R35: for `k` in 0..n-1 the byte at `addr+k` becomes `v[8k+7:8k]`, every other byte stays, and memory
keeps its canonical form. -/
def Obligations.MemWriteChangesExactlyItsBytes : Prop :=
  ∀ (x : XLen) (cfg : Config) (mem : List Host.Cell) (addr v : Word x) (n : Nat),
    n ∈ [1, 2, 4, 8] → dmemCheck cfg addr n = .ok () →
      (∀ k, k < n → readByte cfg (dmemWrite mem addr n v) (accessAddr addr k) =
        some (v.extractLsb' (8 * k) 8)) ∧
      (∀ a, (∀ k, k < n → a ≠ accessAddr addr k) →
        readByte cfg (dmemWrite mem addr n v) a = readByte cfg mem a) ∧
      (memoryWf cfg x.bits mem = true → memoryWf cfg x.bits (dmemWrite mem addr n v) = true)

/-- R34: a read answers the little-endian value of the bytes, sign- or zero-extended. -/
def Obligations.MemReadIsTheLittleEndianValue : Prop :=
  ∀ (x : XLen) (m : CoreState x) (addr : Word x) (n : Nat) (signExtend : Bool)
    (byte : Nat → Byte),
    n ∈ dmemSizes x → accepted m addr n →
    (∀ k, k < n → readByte m.cfg m.mem (accessAddr addr k) = some (byte k)) →
      dmemRead m.cfg m.mem addr n signExtend =
        .ok (extended x n signExtend (bytesValue byte n))

/-- The two misalignment policies, the extent, and the sizes the memory takes (R31, R41, R253).  Two
points are the model's and no rule's: a size the memory does not take is reported whatever the address is
(DESIGN CHOICE, log entry 10; R257 leaves it to the memory's own answer), and one byte outside the extent
refuses the whole access (DEDUCED, log entry 15). -/
def Obligations.DataAccessAcceptance : Prop :=
  ∀ (x : XLen) (m : CoreState x) (addr : Word x) (n : Nat),
    (n ∉ dmemSizes x → dmemCheck m.cfg addr n = .error (.invalidAccessSize addr n)) ∧
    (n ∈ dmemSizes x → accepted m addr n → dmemCheck m.cfg addr n = .ok ()) ∧
    (n ∈ dmemSizes x → ¬ accepted m addr n → dmemCheck m.cfg addr n = .error (.outOfRange addr))

/-- R32, R33, R252: Fetch needs a multiple of 4 and four bytes of the extent; it then reads the word
whose byte `k` is the byte at `pc+k`, and every failure is `InstructionFetchFailure(pc)`. -/
def Obligations.FetchReadsAnAlignedWord : Prop :=
  ∀ (x : XLen) (m : CoreState x) (byte : Nat → Byte),
    (m.pc.toNat % 4 = 0 → (∀ k, k < 4 → readByte m.cfg m.mem (m.pc.toNat + k) = some (byte k)) →
      ∃ w, m.fetchWord = .ok w ∧ w.toNat = bytesValue byte 4) ∧
    (m.pc.toNat % 4 ≠ 0 → m.fetchWord = .error (.instructionFetchFailure m.pc)) ∧
    ((∃ k, k < 4 ∧ readByte m.cfg m.mem (accessAddr m.pc k) = none) →
      m.fetchWord = .error (.instructionFetchFailure m.pc))

/-! ## The clock cycle (`43_pipeline.md`) -/

/-- R134, R136, R138: what Fetch puts into `IF_ID`, and when fetching stops. -/
def Obligations.FetchLatchesTheWordOrStops : Prop :=
  ∀ (x : XLen) (m t : CoreState x), advances m t →
    (∀ w, m.fetches w → t.ifId = some { pc := m.pc, word := w }) ∧
    (m.fetchEnabled = false → t.ifId = none) ∧
    (m.readsSentinel → t.ifId = none ∧ t.fetchStopped = true ∧ t.pc = m.pc) ∧
    (t.fetchStopped = true ↔ m.fetchStopped = true ∨ m.readsSentinel)

/-- R137: `pc` at the clock edge, the four cases in their order. -/
def Obligations.ProgramCounterAtTheClockEdge : Prop :=
  ∀ (x : XLen) (m t : CoreState x), advances m t →
    (m.fetchStopped = true ∨ m.readsSentinel → t.pc = m.pc) ∧
    (¬ (m.fetchStopped = true ∨ m.readsSentinel) →
      (∀ c, m.decodeSignals = some c → c.branchTaken = true → t.pc = c.branchTarget) ∧
      ((∀ c, m.decodeSignals = some c → c.branchTaken = false) →
        ((∃ w, m.fetches w) → t.pc = m.pc + 4#x.bits) ∧
        (m.fetchEnabled = false → t.pc = m.pc)))

/-- R140, R141, R142: Decode reads the registers its format names as they were at the start of the
cycle, whatever WriteBack writes at this edge, and issues the instruction; a bubble moves on uncounted.
That the redirect reaches `pc` is `ProgramCounterAtTheClockEdge`. -/
def Obligations.DecodeReadsTheOldRegisters : Prop :=
  ∀ (x : XLen) (m t : CoreState x), advances m t →
    (∀ (d : IfId x) (f : DecodedFields x), m.ifId = some d → decodeFields x d.word = .ok f →
      ∃ e, t.idEx = some e ∧ e.pc = d.pc ∧ e.fields = f ∧
        e.rs1Value = (if f.format ∈ [.R, .I, .S, .B] then m.readReg f.rs1 else 0) ∧
        e.rs2Value = (if f.format ∈ [.R, .S, .B] then m.readReg f.rs2 else 0) ∧
        e.ctrl = generate f d.pc e.rs1Value e.rs2Value ∧
        t.instructionsIssued = m.instructionsIssued + 1) ∧
    (m.ifId = none → t.idEx = none ∧ t.instructionsIssued = m.instructionsIssued)

/-- R144, R145: Execute's operands by opcode, the ALU's result, and what travels on; a bubble moves on. -/
def Obligations.ExecuteSelectsItsOperandsByOpcode : Prop :=
  ∀ (x : XLen) (m t : CoreState x), advances m t →
    (∀ d : IdEx x, m.idEx = some d →
      ∃ (a b : Word x) (e : ExM x), t.exM = some e ∧
        execute a b d.ctrl.aluOp = .ok e.aluResult ∧ e.pc = d.pc ∧ e.fields = d.fields ∧
        e.storeData = d.rs2Value ∧ e.ctrl = d.ctrl ∧
        (d.fields.opcode ∈ [0x33#7, 0x63#7] → a = d.rs1Value ∧ b = d.rs2Value) ∧
        (d.fields.opcode ∈ [0x13#7, 0x03#7, 0x23#7] →
          a = d.rs1Value ∧ b = d.fields.immediate) ∧
        (d.fields.opcode = 0x37#7 → a = 0 ∧ b = d.fields.immediate) ∧
        (d.fields.opcode = 0x17#7 → a = d.pc ∧ b = d.fields.immediate) ∧
        (d.fields.opcode ∈ [0x6F#7, 0x67#7] → a = d.pc ∧ b = 4#x.bits)) ∧
    (m.idEx = none → t.exM = none)

/-- R147, R148, R149: Memory reads for a load in the columns of the table, commits a store, and hands
the instruction on; a bubble moves on and touches nothing. -/
def Obligations.MemoryStageReadsOrCommits : Prop :=
  ∀ (x : XLen) (m t : CoreState x), advances m t →
    (∀ e : ExM x, m.exM = some e →
      ∃ w, t.mWb = some w ∧ w.pc = e.pc ∧ w.rd = e.fields.rd ∧ w.aluResult = e.aluResult ∧
        w.ctrl = e.ctrl ∧
        (e.ctrl.memRead = false → w.memData = 0) ∧
        (∀ col ∈ [(0#3, 1, true), (1#3, 2, true), (2#3, 4, true), (4#3, 1, false), (5#3, 2, false)],
          e.ctrl.memRead = true → e.fields.funct3 = col.1 →
            dmemRead m.cfg m.mem e.aluResult col.2.1 col.2.2 = .ok w.memData) ∧
        (∀ col ∈ [(3#3, 8, true), (6#3, 4, false)],
          x = .x64 → e.ctrl.memRead = true → e.fields.funct3 = col.1 →
            dmemRead m.cfg m.mem e.aluResult col.2.1 col.2.2 = .ok w.memData) ∧
        (e.ctrl.memWrite = false → t.mem = m.mem) ∧
        (∀ col ∈ [(0#3, 1), (1#3, 2), (2#3, 4)],
          e.ctrl.memWrite = true → e.fields.funct3 = col.1 →
            t.mem = dmemWrite m.mem e.aluResult col.2 e.storeData) ∧
        (x = .x64 → e.ctrl.memWrite = true → e.fields.funct3 = 3#3 →
          t.mem = dmemWrite m.mem e.aluResult 8 e.storeData)) ∧
    (m.exM = none → t.mWb = none ∧ t.mem = m.mem)

/-- R150, R151: WriteBack's value, its register, and its count; every other register stays. -/
def Obligations.WriteBackCommitsItsRegister : Prop :=
  ∀ (x : XLen) (m t : CoreState x), advances m t →
    (∀ w, m.mWb = some w →
      t.instructionsCompleted = m.instructionsCompleted + 1 ∧
      (w.ctrl.regWrite = true → t.readReg w.rd =
        (if w.rd = 0#5 then 0 else if w.ctrl.memRead then w.memData else w.aluResult)) ∧
      (∀ r, r ≠ w.rd ∨ w.ctrl.regWrite = false → t.readReg r = m.readReg r)) ∧
    (m.mWb = none →
      t.instructionsCompleted = m.instructionsCompleted ∧ sameRegs m t)

/-- R152: a bubble moves like an instruction and does nothing. -/
def Obligations.BubblesDoNothing : Prop :=
  ∀ (x : XLen) (m t : CoreState x), advances m t →
    (m.ifId = none → t.idEx = none ∧ t.instructionsIssued = m.instructionsIssued ∧ t.diag = m.diag) ∧
    (m.idEx = none → t.exM = none) ∧
    (m.exM = none → t.mWb = none ∧ t.mem = m.mem) ∧
    (m.mWb = none → sameRegs m t ∧ t.instructionsCompleted = m.instructionsCompleted) ∧
    (t.idEx.isSome = m.ifId.isSome ∧ t.exM.isSome = m.idEx.isSome ∧ t.mWb.isSome = m.exM.isSome) ∧
    (t.ifId = none ↔ ¬ ∃ w, m.fetches w)

/-- R153: the cycle counter counts exactly the cycles in which Fetch fetched an instruction or a
pipeline register was valid. -/
def Obligations.CycleCounterCountsActiveCycles : Prop :=
  ∀ (x : XLen) (m t : CoreState x), advances m t →
    ((∃ w, m.fetches w) ∨ m.occupancy ≠ 0 → t.cycles = m.cycles + 1) ∧
    ((¬ ∃ w, m.fetches w) ∧ m.occupancy = 0 → t.cycles = m.cycles)

/-- R143, R268: one line for each decoded instruction when `debugMode` is on, none when it is off; the
channel influences nothing else (log entry 12: an abandoned cycle leaves no line). -/
def Obligations.DiagnosticChannelOnlyObserves : Prop :=
  ∀ (x : XLen) (m t : CoreState x), advances m t →
    (m.cfg.debugMode = false → t.diag = m.diag) ∧
    (∀ d f, m.cfg.debugMode = true → m.ifId = some d → decodeFields x d.word = .ok f →
      t.diag = m.diag ++ [{ pc := d.pc, fields := f }]) ∧
    ∀ (cfg : Config) (l : List (DiagLine x)), cfg = { m.cfg with debugMode := !m.cfg.debugMode } →
      ∃ l', step { xlen := x, core := { m with cfg := cfg, diag := l } } =
        .next { xlen := x, core := { t with cfg := cfg, diag := l' } }

/-- R154, R256: the result of `step()`: Fatal with nothing changed but `status` (no clock edge happens);
EndOfProgram when Fetch has stopped and the pipeline is empty; Continue otherwise.  The equality of the
Fatal case includes `diag`: that an abandoned cycle leaves no line is the model's reading (DEDUCED, log
entry 12). -/
def Obligations.StepAnswersContinueEndOrFatal : Prop :=
  ∀ (x : XLen) (m t : CoreState x), m.status = .running →
    step { xlen := x, core := m } = .next { xlen := x, core := t } →
      (∃ c, t.result = .fatal c ∧ t = { m with status := .failed c }) ∨
      (t.result = .endOfProgram ∧ t.status = .ended ∧ t.fetchStopped = true ∧ t.occupancy = 0) ∨
      (t.result = .continue ∧ t.status = .running ∧ ¬ (t.fetchStopped = true ∧ t.occupancy = 0))

/-- R156, R240: once Fetch has stopped, four cycles end the run, whatever is in flight: at most the
instruction in `IF_ID` is still issued, `pc` stays, every counted cycle is one of the four, and a run
that ends normally has completed what it issued. -/
def Obligations.DrainEndsWithinFourCycles : Prop :=
  ∀ (x : XLen) (m : CoreState x), Inv m → m.fetchStopped = true →
    ∃ t : CoreState x, stepN 4 { xlen := x, core := m } = .next { xlen := x, core := t } ∧
      t.status ≠ .running ∧ t.pc = m.pc ∧ t.fetchStopped = true ∧
      t.instructionsIssued ≤ m.instructionsIssued + m.ifId.isSome.toNat ∧
      t.cycles ≤ m.cycles + 4 ∧
      (t.status = .ended → t.instructionsCompleted = m.instructionsCompleted + m.occupancy)

/-- R161: after the end a step changes nothing. -/
def Obligations.NothingChangesAfterTheEnd : Prop :=
  ∀ (x : XLen) (m : CoreState x) (n : Nat), m.status ≠ .running →
    stepN n { xlen := x, core := m } = .next { xlen := x, core := m }

/-! ## Fatal conditions (`60_exceptions.md`) -/

/-- R257: in one cycle Fetch's condition is reported over Decode's and Decode's over Memory's, and the
sentinel masks none of them.  Each equality includes `diag`: that an abandoned cycle leaves no line is
the model's reading (DEDUCED, log entry 12). -/
def Obligations.EarlierStageIsReported : Prop :=
  ∀ (x : XLen) (m : CoreState x), m.status = .running →
    (∀ c, m.fetchEnabled = true → m.fetchWord = .error c →
      step { xlen := x, core := m } = .next { xlen := x, core := m.raise c }) ∧
    (∀ d, (m.fetchEnabled = false ∨ ∃ w, m.fetchWord = .ok w) → m.ifId = some d →
      formatOf (opcodeOf d.word) = .Unknown →
      step { xlen := x, core := m } =
        .next { xlen := x, core := m.raise (.illegalInstruction d.pc d.word) }) ∧
    (∀ e n signExtend c, (m.fetchEnabled = false ∨ ∃ w, m.fetchWord = .ok w) →
      (∀ d, m.ifId = some d → formatOf (opcodeOf d.word) ≠ .Unknown) →
      (∀ d, m.idEx = some d → issuedProperly d.pc d.fields d.ctrl) →
      m.exM = some e → e.ctrl.memRead = true → loadWidth x e.fields.funct3 = some (n, signExtend) →
      dmemRead m.cfg m.mem e.aluResult n signExtend = .error c →
      step { xlen := x, core := m } = .next { xlen := x, core := m.raise c }) ∧
    (∀ e n c, (m.fetchEnabled = false ∨ ∃ w, m.fetchWord = .ok w) →
      (∀ d, m.ifId = some d → formatOf (opcodeOf d.word) ≠ .Unknown) →
      (∀ d, m.idEx = some d → issuedProperly d.pc d.fields d.ctrl) →
      m.exM = some e → e.ctrl.memRead = false → e.ctrl.memWrite = true →
      storeWidth x e.fields.funct3 = some n → dmemCheck m.cfg e.aluResult n = .error c →
      step { xlen := x, core := m } = .next { xlen := x, core := m.raise c })

/-- R102, R251, R253: in a state of the invariant a step always answers a next state, and the only
conditions it can raise are IllegalInstruction of Decode, InstructionFetchFailure and OutOfRange; the
ALU's IllegalInstruction and InvalidAccessSize cannot occur. -/
def Obligations.StepNeverGetsStuck : Prop :=
  ∀ (x : XLen) (m : CoreState x), Inv m →
    ∃ t : CoreState x, step { xlen := x, core := m } = .next { xlen := x, core := t } ∧
      (m.status = .running → ∀ c, t.status = .failed c →
        (∃ pc w, c = .illegalInstruction pc w) ∨ c = .instructionFetchFailure m.pc ∨
        (∃ e, m.exM = some e ∧ c = .outOfRange e.aluResult))

/-! ## Reset and invariants (`10_state.md`, `70_reset_and_hazards.md`) -/

/-- R29, R280: the reset action sets every piece of state to the table's value and touches neither the
parameters nor the memory. -/
def Obligations.ResetSetsTheTable : Prop :=
  ∀ (x : XLen) (m : CoreState x) (r : ResetValues x) (t : CoreState x), t = m.resetWith r →
    t.ifId = none ∧ t.idEx = none ∧ t.exM = none ∧ t.mWb = none ∧ t.pc = r.entryPc ∧
    t.readReg 0#5 = 0 ∧
    (∀ i : Fin 31, t.readReg (BitVec.ofNat 5 (i.val + 1)) = r.xInit[i]) ∧
    t.fetchStopped = false ∧ t.status = .running ∧ t.instructionsIssued = 0 ∧
    t.instructionsCompleted = 0 ∧ t.cycles = 0 ∧ t.cfg = m.cfg ∧ t.mem = m.mem

/-- The invariant holds right after reset: of `State.reset`, whose width, parameters, register values
and memory contents are the model's choices (log entries 1 to 7), and of every core the host can build
with an even entry address. -/
def Obligations.InvariantHoldsAtReset : Prop :=
  Inv State.reset.core ∧
  ∀ (x : XLen) (cfg : Config) (image : List Host.Cell) (r : ResetValues x) (s : State),
    construct x cfg image r = .ok s → r.entryPc.toNat % 2 = 0 → Inv s.core

/-- Every step, a clock cycle or a `run()` of them, from every state of the invariant, keeps it. -/
def Obligations.EveryCycleKeepsTheInvariant : Prop :=
  ∀ (s t : State), Inv s.core → step s = .next t → Inv t.core

/-- R4, R16: no step changes the width or a parameter. -/
def Obligations.ParametersNeverChange : Prop :=
  ∀ (s t : State), step s = .next t → t.xlen = s.xlen ∧ t.core.cfg = s.core.cfg

/-- R267: the counters never decrease, and at any edge
`instructionsCompleted <= instructionsIssued <= instructionsCompleted + 3`; equal at a normal end. -/
def Obligations.CountersStayInTheirBounds : Prop :=
  ∀ (s t : State), Inv s.core → step s = .next t →
    s.core.instructionsIssued ≤ t.core.instructionsIssued ∧
    s.core.instructionsCompleted ≤ t.core.instructionsCompleted ∧
    s.core.cycles ≤ t.core.cycles ∧
    t.core.instructionsCompleted ≤ t.core.instructionsIssued ∧
    t.core.instructionsIssued ≤ t.core.instructionsCompleted + 3 ∧
    (t.core.status = .ended → t.core.instructionsIssued = t.core.instructionsCompleted)

/-- R153, R292: a run that fetches `N >= 1` instructions and then the sentinel takes `N + 4` counted
cycles pipelined and `5N` non-pipelined, `N` the final `instructionsIssued`, whatever the program. -/
def Obligations.CycleCountAtTheEndOfARun : Prop :=
  ∀ (x : XLen) (cfg : Config) (mem : List Host.Cell) (r : ResetValues x) (n : Nat) (t : CoreState x),
    stepN n { xlen := x, core := CoreState.build cfg mem r } = .next { xlen := x, core := t } →
    t.status = .ended → 1 ≤ t.instructionsIssued →
      t.cycles =
        (if cfg.pipelining then t.instructionsIssued + 4 else 5 * t.instructionsIssued)

/-! ## Instructions and cycles (`70_reset_and_hazards.md`) -/

/-- A step runs the decoded instruction.  When the four bytes at `pc` are those of an instruction `i` of
the width, sequential execution runs `i` by `exec`, and in non-pipelined mode with nothing in flight
five clock cycles, and one step that is a `run()` of five cycles, are that same `exec i`.  From every
state, with the word of `i` placed by `withFetchWord`, the next step is `exec i`.  That the host's call is
held in the state and that `withFetchWord` makes it `run()` in non-pipelined mode are the model's choices
(log entries 14 and 24). -/
def Obligations.StepsRunTheDecodedInstruction : Prop :=
  (∀ (x : XLen) (m : CoreState x) (i : Instr),
    m.status = .running → m.betweenInstructions → i.wellFormed x = true →
    encode i ≠ m.cfg.sentinel → m.pc.toNat % 4 = 0 →
    (∀ k, (h : k < 4) → readByte m.cfg m.mem (m.pc.toNat + k) = (encodeBytes i)[k]?) →
      instrStep { xlen := x, core := m } = exec i { xlen := x, core := m } ∧
      stepN 5 { xlen := x, core := m } = exec i { xlen := x, core := m } ∧
      step { xlen := x, core := m, call := .run 5 } = exec i { xlen := x, core := m }) ∧
  ∀ (s : State) (i : Instr), i.wellFormed s.xlen = true → encode i ≠ s.core.cfg.sentinel →
    step (s.withFetchWord 32 (encode i).toNat) = exec i (s.withFetchWord 32 (encode i).toNat)

/-- R157, R291: in non-pipelined mode the machine is sequential execution: from every state between
instructions, `5n` clock cycles are `n` instructions, fatal conditions, safe no-ops and the sentinel
included, for every program. -/
def Obligations.NonPipelinedCyclesAreSequentialExecution : Prop :=
  ∀ (n : Nat) (x : XLen) (m : CoreState x), m.betweenInstructions →
    stepN (5 * n) { xlen := x, core := m } = instrRun n { xlen := x, core := m }

/-- R286, R288, R289: in pipelined mode, an instruction fetched while none of the three before it is yet
to write a register it reads has, when everything drains, the effect `exec` gives it after those before
it: on registers, memory, the instruction counters and the channel.  Where the drained machine before
it ended normally, the run with it ends normally exactly when `exec` raises no condition. -/
def Obligations.HazardFreeInstructionsRunAsInSequence : Prop :=
  ∀ (x : XLen) (m m' d d' : CoreState x) (i : Instr) (w : InstrWord),
    m.status = .running → m.cfg.pipelining = true → m.fetches w → decodeInstr x w = .ok i →
    m.hazardFree (i.fields x) = true →
    step { xlen := x, core := m } = .next { xlen := x, core := m' } →
    stepN 4 { xlen := x, core := m.stopFetch } = .next { xlen := x, core := d } →
    d.status = .ended →
    stepN 4 { xlen := x, core := m'.stopFetch } = .next { xlen := x, core := d' } →
      ∃ e : CoreState x, exec i { xlen := x, core := d } = .next { xlen := x, core := e } ∧
        (e.status = .ended ↔ d'.status = .ended) ∧
        (d'.status = .ended →
          d'.regs = e.regs ∧ d'.mem = e.mem ∧ d'.instructionsIssued = e.instructionsIssued ∧
          d'.instructionsCompleted = e.instructionsCompleted ∧ d'.diag = e.diag)

/-- R153, R156, R160: in pipelined mode an instruction fetched into the empty machine and followed by the
sentinel ends the run in five cycles with exactly its own effect, `pc` at the sentinel. -/
def Obligations.OneInstructionProgramEndsInFiveCycles : Prop :=
  ∀ (x : XLen) (m : CoreState x) (i : Instr) (w : InstrWord),
    m.status = .running → m.cfg.pipelining = true → m.empty = true → m.fetches w →
    decodeInstr x w = .ok i →
    ({ m with pc := m.pc + 4#x.bits } : CoreState x).fetchWord = .ok m.cfg.sentinel →
      ∃ t : CoreState x, exec i { xlen := x, core := m } = .next { xlen := x, core := t } ∧
        stepN 5 { xlen := x, core := m } =
          .next { xlen := x
                  core := { t with pc := m.pc + 4#x.bits, fetchStopped := true,
                                   status := if t.status = .running then .ended else t.status } }

/-- R231, R287: in pipelined mode the word fetched while a taken transfer is in Decode is not discarded:
it goes into `IF_ID` as the delay slot while `pc` goes to the target. -/
def Obligations.DelaySlotIsFetchedAndKept : Prop :=
  ∀ (x : XLen) (m t : CoreState x) (w : InstrWord) (c : ControlSignals x),
    advances m t → m.cfg.pipelining = true → m.fetches w → m.decodeSignals = some c →
    c.branchTaken = true →
      t.ifId = some { pc := m.pc, word := w } ∧ t.pc = c.branchTarget ∧ t.idEx.isSome = true
end

