-- ==== Sys2Proof/Laws/Alu.lean ====
section
/-!
SUPPORT. The ALU's values and the branch tests as statements about integers (rules R91 to R103, R117).
-/

namespace Sys2Proof.Machine

variable {x : XLen}

/-- 1 or 0 by a decision. -/
theorem boolWord_eq {b : Bool} {c : Prop} [Decidable c] (h : b = true ↔ c) :
    (boolWord b : Word x) = if c then 1#x.bits else 0#x.bits := by
  unfold boolWord
  by_cases hc : c
  · rw [if_pos hc, if_pos (h.2 hc)]
  · rw [if_neg hc, if_neg (fun hb => hc (h.1 hb))]

theorem one_ne_zero_word (x : XLen) : (1#x.bits) ≠ 0#x.bits := by cases x <;> decide

theorem isOne_boolWord (b : Bool) : isOne (boolWord b : Word x) = b := by
  cases b
  · simpa [isOne, boolWord] using (one_ne_zero_word x).symm
  · simp [isOne, boolWord]

theorem isZero_boolWord (b : Bool) : isZero (boolWord b : Word x) = !b := by
  cases b
  · simp [isZero, boolWord]
  · simpa [isZero, boolWord] using one_ne_zero_word x

/-! ## The six branch decisions (rules R232 to R237) -/

theorem takenEq_iff (a b : Word x) : takenEq a b = true ↔ a = b := by
  simp [takenEq, isZero, aluSub, BitVec.sub_eq_iff_eq_add]

theorem takenNe_iff (a b : Word x) : takenNe a b = true ↔ a ≠ b := by
  simp [takenNe, isNonzero, aluSub, BitVec.sub_eq_iff_eq_add]

theorem takenLt_iff (a b : Word x) : takenLt a b = true ↔ a.toInt < b.toInt := by
  rw [takenLt, aluSlt, isOne_boolWord, BitVec.slt_iff_toInt_lt]

theorem takenGe_iff (a b : Word x) : takenGe a b = true ↔ b.toInt ≤ a.toInt := by
  rw [takenGe, aluSlt, isZero_boolWord, Bool.not_eq_true', ← Bool.not_eq_true,
    BitVec.slt_iff_toInt_lt, not_lt]

theorem takenLtu_iff (a b : Word x) : takenLtu a b = true ↔ a.toNat < b.toNat := by
  rw [takenLtu, aluSltu, isOne_boolWord, BitVec.ult_iff_lt, BitVec.lt_def]

theorem takenGeu_iff (a b : Word x) : takenGeu a b = true ↔ b.toNat ≤ a.toNat := by
  rw [takenGeu, aluSltu, isZero_boolWord, Bool.not_eq_true', ← Bool.not_eq_true, BitVec.ult_iff_lt,
    BitVec.lt_def, not_lt]

/-! ## Sums, differences and shifts as integers -/

theorem aluAdd_eq_ofInt (a b : Word x) :
    aluAdd a b = BitVec.ofInt x.bits ((a.toNat : Int) + b.toNat) := by
  apply BitVec.eq_of_toInt_eq
  rw [aluAdd, BitVec.toInt_add, BitVec.toInt_ofInt, BitVec.toInt_eq_toNat_bmod a,
    BitVec.toInt_eq_toNat_bmod b, Int.bmod_add_bmod, Int.add_bmod_bmod]

theorem aluSub_eq_ofInt (a b : Word x) :
    aluSub a b = BitVec.ofInt x.bits ((a.toNat : Int) - b.toNat) := by
  apply BitVec.eq_of_toInt_eq
  rw [aluSub, BitVec.toInt_sub, BitVec.toInt_ofInt, BitVec.toInt_eq_toNat_bmod a,
    BitVec.toInt_eq_toNat_bmod b, Int.bmod_sub_bmod, Int.sub_bmod_bmod]

/-- Adding a sign-extended value is adding its signed number (rule R6). -/
theorem add_sext_eq_ofInt (a : Word x) {n : Nat} (v : BitVec n) :
    a + sext x v = BitVec.ofInt x.bits ((a.toNat : Int) + v.toInt) := by
  apply BitVec.eq_of_toInt_eq
  rw [BitVec.toInt_add, BitVec.toInt_ofInt, BitVec.toInt_eq_toNat_bmod a, sext, BitVec.signExtend,
    BitVec.toInt_ofInt, Int.bmod_add_bmod, Int.add_bmod_bmod]

theorem aluSll_eq_ofNat (a b : Word x) :
    aluSll a b = BitVec.ofNat x.bits (a.toNat * 2 ^ (b.toNat % x.bits)) := by
  apply BitVec.eq_of_toNat_eq
  rw [aluSll, shiftAmount, BitVec.toNat_shiftLeft, BitVec.toNat_ofNat, Nat.shiftLeft_eq]

theorem aluSrl_eq_ofNat (a b : Word x) :
    aluSrl a b = BitVec.ofNat x.bits (a.toNat / 2 ^ (b.toNat % x.bits)) := by
  apply BitVec.eq_of_toNat_eq
  rw [aluSrl, shiftAmount, BitVec.toNat_ushiftRight, BitVec.toNat_ofNat, Nat.shiftRight_eq_div_pow,
    Nat.mod_eq_of_lt (Nat.lt_of_le_of_lt (Nat.div_le_self _ _) a.isLt)]

/-- An arithmetic shift is floor division of the signed value. -/
theorem sshiftRight_eq_ofInt (a : Word x) (k : Nat) :
    a.sshiftRight k = BitVec.ofInt x.bits (a.toInt / 2 ^ k) := by
  have h1 : (a.sshiftRight k).toInt = a.toInt / 2 ^ k := by
    rw [BitVec.toInt_sshiftRight, Int.shiftRight_eq_div_pow]; norm_cast
  rw [← h1, BitVec.ofInt_toInt]

theorem aluSra_eq_ofInt (a b : Word x) :
    aluSra a b = BitVec.ofInt x.bits (a.toInt / 2 ^ (b.toNat % x.bits)) :=
  sshiftRight_eq_ofInt a _

/-! ## Shift amounts of the immediate forms (rules R61, R197) -/

theorem shamtFits_iff (x : XLen) (s : BitVec 6) : shamtFits x s = true ↔ s.toNat < x.bits := by
  cases x
  · revert s; decide
  · simp only [shamtFits, XLen.bits, true_iff]; exact s.isLt

theorem shamtWord_toNat (x : XLen) (s : BitVec 6) : (shamtWord x s).toNat = s.toNat := by
  have hb : 2 ^ 6 ≤ 2 ^ x.bits := Nat.pow_le_pow_right (by decide) (by have := x.bits_ge; omega)
  rw [shamtWord, BitVec.toNat_setWidth, Nat.mod_eq_of_lt (by omega)]

/-- The upper immediate is the 20-bit field times 4096 (rules R57, R200). -/
theorem upperImmediate_eq_ofInt (x : XLen) (imm20 : BitVec 20) :
    upperImmediate x imm20 = BitVec.ofInt x.bits (imm20.toInt * 4096) := by
  have h : (imm20 ++ 0#12).toInt = imm20.toInt * 4096 := by
    have hn : (imm20 ++ 0#12).toNat = imm20.toNat * 4096 := by
      rw [BitVec.toNat_append, Nat.shiftLeft_eq]; simp
    rw [BitVec.toInt_eq_toNat_cond, hn, BitVec.toInt_eq_toNat_cond]
    split <;> split <;> omega
  rw [upperImmediate, sext, BitVec.signExtend, h]

/-- Clearing bit 0 rounds down to an even number (rules R120, R239). -/
theorem clearBit0_toNat (v : Word x) : (clearBit0 v).toNat = v.toNat / 2 * 2 := by
  have h : clearBit0 v = (v >>> 1) <<< 1 := by
    apply BitVec.eq_of_getLsbD_eq
    intro i hi
    have hb := x.bits_pos
    rcases i with _ | i
    · simp [clearBit0, hb]
    · simp only [clearBit0, BitVec.getLsbD_and, BitVec.getLsbD_not, BitVec.getLsbD_one,
        BitVec.getLsbD_shiftLeft, BitVec.getLsbD_ushiftRight]
      simp [hi, Nat.add_comm 1 i]
  rw [h, BitVec.toNat_shiftLeft, BitVec.toNat_ushiftRight, Nat.shiftLeft_eq,
    Nat.shiftRight_eq_div_pow, Nat.pow_one, Nat.mod_eq_of_lt]
  have := v.isLt
  omega

end Sys2Proof.Machine
end

