-- ==== Sys2Proof/Laws/Decode.lean ====
section
/-!
SUPPORT. The bit fields of an instruction word as numbers, and what each field of an encoded word is.
-/

namespace Sys2Proof

/-! ## Numbers of concatenations and slices -/

theorem toNat_append_add {n m : Nat} (a : BitVec n) (b : BitVec m) :
    (a ++ b).toNat = a.toNat * 2 ^ m + b.toNat := by
  rw [BitVec.toNat_append, Nat.shiftLeft_eq, Nat.mul_comm, Nat.two_pow_add_eq_or_of_lt b.isLt]

theorem toNat_slice {n : Nat} (w : BitVec n) (s len : Nat) :
    (w.extractLsb' s len).toNat = w.toNat / 2 ^ s % 2 ^ len := by
  rw [BitVec.extractLsb'_toNat, Nat.shiftRight_eq_div_pow]

theorem opcodeOf_toNat (w : InstrWord) : (opcodeOf w).toNat = w.toNat % 2 ^ 7 := by
  rw [opcodeOf, toNat_slice, Nat.pow_zero, Nat.div_one]

theorem rdOf_toNat (w : InstrWord) : (rdOf w).toNat = w.toNat / 2 ^ 7 % 2 ^ 5 := toNat_slice w 7 5

theorem funct3Of_toNat (w : InstrWord) : (funct3Of w).toNat = w.toNat / 2 ^ 12 % 2 ^ 3 :=
  toNat_slice w 12 3

theorem rs1Of_toNat (w : InstrWord) : (rs1Of w).toNat = w.toNat / 2 ^ 15 % 2 ^ 5 := toNat_slice w 15 5

theorem rs2Of_toNat (w : InstrWord) : (rs2Of w).toNat = w.toNat / 2 ^ 20 % 2 ^ 5 := toNat_slice w 20 5

theorem funct7Of_toNat (w : InstrWord) : (funct7Of w).toNat = w.toNat / 2 ^ 25 % 2 ^ 7 :=
  toNat_slice w 25 7

theorem immI_toNat (w : InstrWord) : (immI w).toNat = w.toNat / 2 ^ 20 := by
  rw [immI, toNat_slice]; omega

theorem immS_toNat (w : InstrWord) :
    (immS w).toNat = w.toNat / 2 ^ 25 * 2 ^ 5 + w.toNat / 2 ^ 7 % 2 ^ 5 := by
  show BitVec.toNat (w := 7 + 5) (w.extractLsb' 25 7 ++ w.extractLsb' 7 5) = _
  simp only [toNat_append_add, toNat_slice]
  omega

theorem immB_toNat (w : InstrWord) :
    (immB w).toNat = w.toNat / 2 ^ 31 * 2 ^ 12 + w.toNat / 2 ^ 7 % 2 * 2 ^ 11 +
      w.toNat / 2 ^ 25 % 2 ^ 6 * 2 ^ 5 + w.toNat / 2 ^ 8 % 2 ^ 4 * 2 := by
  show BitVec.toNat (w := 1 + 1 + 6 + 4 + 1) (w.extractLsb' 31 1 ++ w.extractLsb' 7 1 ++
    w.extractLsb' 25 6 ++ w.extractLsb' 8 4 ++ 0#1) = _
  simp only [toNat_append_add, toNat_slice, BitVec.toNat_ofNat]
  omega

theorem immU_toNat (w : InstrWord) : (immU w).toNat = w.toNat / 2 ^ 12 * 2 ^ 12 := by
  show BitVec.toNat (w := 20 + 12) (w.extractLsb' 12 20 ++ 0#12) = _
  simp only [toNat_append_add, toNat_slice, BitVec.toNat_ofNat]
  omega

theorem immJ_toNat (w : InstrWord) :
    (immJ w).toNat = w.toNat / 2 ^ 31 * 2 ^ 20 + w.toNat / 2 ^ 12 % 2 ^ 8 * 2 ^ 12 +
      w.toNat / 2 ^ 20 % 2 * 2 ^ 11 + w.toNat / 2 ^ 21 % 2 ^ 10 * 2 := by
  show BitVec.toNat (w := 1 + 8 + 1 + 10 + 1) (w.extractLsb' 31 1 ++ w.extractLsb' 12 8 ++
    w.extractLsb' 20 1 ++ w.extractLsb' 21 10 ++ 0#1) = _
  simp only [toNat_append_add, toNat_slice, BitVec.toNat_ofNat]
  omega

/-! ## Numbers of the six layouts -/

theorem encodeR_toNat (f7 : BitVec 7) (b a : RegIndex) (f3 : BitVec 3) (d : RegIndex)
    (op : BitVec 7) :
    (encodeR f7 b a f3 d op).toNat = f7.toNat * 2 ^ 25 + b.toNat * 2 ^ 20 + a.toNat * 2 ^ 15 +
      f3.toNat * 2 ^ 12 + d.toNat * 2 ^ 7 + op.toNat := by
  show BitVec.toNat (w := 7 + 5 + 5 + 3 + 5 + 7) (f7 ++ b ++ a ++ f3 ++ d ++ op) = _
  simp only [toNat_append_add]
  omega

theorem encodeI_toNat (imm : BitVec 12) (a : RegIndex) (f3 : BitVec 3) (d : RegIndex)
    (op : BitVec 7) :
    (encodeI imm a f3 d op).toNat = imm.toNat * 2 ^ 20 + a.toNat * 2 ^ 15 + f3.toNat * 2 ^ 12 +
      d.toNat * 2 ^ 7 + op.toNat := by
  show BitVec.toNat (w := 12 + 5 + 3 + 5 + 7) (imm ++ a ++ f3 ++ d ++ op) = _
  simp only [toNat_append_add]
  omega

theorem encodeS_toNat (imm : BitVec 12) (b a : RegIndex) (f3 : BitVec 3) (op : BitVec 7) :
    (encodeS imm b a f3 op).toNat = imm.toNat / 2 ^ 5 * 2 ^ 25 + b.toNat * 2 ^ 20 +
      a.toNat * 2 ^ 15 + f3.toNat * 2 ^ 12 + imm.toNat % 2 ^ 5 * 2 ^ 7 + op.toNat := by
  show BitVec.toNat (w := 7 + 5 + 5 + 3 + 5 + 7) (imm.extractLsb' 5 7 ++ b ++ a ++ f3 ++
    imm.extractLsb' 0 5 ++ op) = _
  simp only [toNat_append_add, toNat_slice]
  omega

theorem encodeB_toNat (imm : BitVec 13) (b a : RegIndex) (f3 : BitVec 3) (op : BitVec 7) :
    (encodeB imm b a f3 op).toNat = imm.toNat / 2 ^ 12 * 2 ^ 31 +
      imm.toNat / 2 ^ 5 % 2 ^ 6 * 2 ^ 25 + b.toNat * 2 ^ 20 + a.toNat * 2 ^ 15 + f3.toNat * 2 ^ 12 +
      imm.toNat / 2 % 2 ^ 4 * 2 ^ 8 + imm.toNat / 2 ^ 11 % 2 * 2 ^ 7 + op.toNat := by
  show BitVec.toNat (w := 1 + 6 + 5 + 5 + 3 + 4 + 1 + 7) (imm.extractLsb' 12 1 ++
    imm.extractLsb' 5 6 ++ b ++ a ++ f3 ++ imm.extractLsb' 1 4 ++ imm.extractLsb' 11 1 ++ op) = _
  simp only [toNat_append_add, toNat_slice]
  omega

theorem encodeU_toNat (imm20 : BitVec 20) (d : RegIndex) (op : BitVec 7) :
    (encodeU imm20 d op).toNat = imm20.toNat * 2 ^ 12 + d.toNat * 2 ^ 7 + op.toNat := by
  show BitVec.toNat (w := 20 + 5 + 7) (imm20 ++ d ++ op) = _
  simp only [toNat_append_add]
  omega

theorem encodeJ_toNat (imm : BitVec 21) (d : RegIndex) (op : BitVec 7) :
    (encodeJ imm d op).toNat = imm.toNat / 2 ^ 20 * 2 ^ 31 + imm.toNat / 2 % 2 ^ 10 * 2 ^ 21 +
      imm.toNat / 2 ^ 11 % 2 * 2 ^ 20 + imm.toNat / 2 ^ 12 % 2 ^ 8 * 2 ^ 12 + d.toNat * 2 ^ 7 +
      op.toNat := by
  show BitVec.toNat (w := 1 + 10 + 1 + 8 + 5 + 7) (imm.extractLsb' 20 1 ++ imm.extractLsb' 1 10 ++
    imm.extractLsb' 11 1 ++ imm.extractLsb' 12 8 ++ d ++ op) = _
  simp only [toNat_append_add, toNat_slice]
  omega

/-! ## The fields of an encoded word -/

/-- A word that is `hi` above a 7-bit opcode. -/
theorem opcodeOf_of_toNat {w : InstrWord} {op : BitVec 7} (hi : Nat)
    (h : w.toNat = hi * 2 ^ 7 + op.toNat) : opcodeOf w = op := by
  apply BitVec.eq_of_toNat_eq; rw [opcodeOf_toNat, h]; omega

/-- A field of a number, with `lo` below it and `hi` above it. -/
theorem field_of_parts {w len v : Nat} (s hi lo : Nat) (h : w = (hi * 2 ^ len + v) * 2 ^ s + lo)
    (hv : v < 2 ^ len) (hlo : lo < 2 ^ s) : w / 2 ^ s % 2 ^ len = v := by
  rw [h, Nat.add_comm, Nat.add_mul_div_right _ _ (Nat.two_pow_pos s), Nat.div_eq_of_lt hlo,
    Nat.zero_add, Nat.add_comm, Nat.add_mul_mod_self_right, Nat.mod_eq_of_lt hv]

/-- A field of width `len` at bit `s`, with `lo` below it and `hi` above it. -/
theorem slice_of_parts {w : InstrWord} {len : Nat} {v : BitVec len} (s hi lo : Nat)
    (h : w.toNat = (hi * 2 ^ len + v.toNat) * 2 ^ s + lo) (hlo : lo < 2 ^ s) :
    w.extractLsb' s len = v := by
  apply BitVec.eq_of_toNat_eq
  rw [toNat_slice, field_of_parts s hi lo h v.isLt hlo]

section R
variable (f7 : BitVec 7) (b a : RegIndex) (f3 : BitVec 3) (d : RegIndex) (op : BitVec 7)

@[simp] theorem opcodeOf_encodeR : opcodeOf (encodeR f7 b a f3 d op) = op :=
  opcodeOf_of_toNat (f7.toNat * 2 ^ 18 + b.toNat * 2 ^ 13 + a.toNat * 2 ^ 8 + f3.toNat * 2 ^ 5 +
    d.toNat) (by rw [encodeR_toNat]; omega)

@[simp] theorem rdOf_encodeR : rdOf (encodeR f7 b a f3 d op) = d :=
  slice_of_parts 7 (f7.toNat * 2 ^ 13 + b.toNat * 2 ^ 8 + a.toNat * 2 ^ 3 + f3.toNat) op.toNat
    (by rw [encodeR_toNat]; omega) op.isLt

@[simp] theorem funct3Of_encodeR : funct3Of (encodeR f7 b a f3 d op) = f3 :=
  slice_of_parts 12 (f7.toNat * 2 ^ 10 + b.toNat * 2 ^ 5 + a.toNat) (d.toNat * 2 ^ 7 + op.toNat)
    (by rw [encodeR_toNat]; omega) (by omega)

@[simp] theorem rs1Of_encodeR : rs1Of (encodeR f7 b a f3 d op) = a :=
  slice_of_parts 15 (f7.toNat * 2 ^ 5 + b.toNat) (f3.toNat * 2 ^ 12 + d.toNat * 2 ^ 7 + op.toNat)
    (by rw [encodeR_toNat]; omega) (by omega)

@[simp] theorem rs2Of_encodeR : rs2Of (encodeR f7 b a f3 d op) = b :=
  slice_of_parts 20 f7.toNat
    (a.toNat * 2 ^ 15 + f3.toNat * 2 ^ 12 + d.toNat * 2 ^ 7 + op.toNat)
    (by rw [encodeR_toNat]; omega) (by omega)

@[simp] theorem funct7Of_encodeR : funct7Of (encodeR f7 b a f3 d op) = f7 :=
  slice_of_parts 25 0
    (b.toNat * 2 ^ 20 + a.toNat * 2 ^ 15 + f3.toNat * 2 ^ 12 + d.toNat * 2 ^ 7 + op.toNat)
    (by rw [encodeR_toNat]; omega) (by omega)

end R

section I
variable (imm : BitVec 12) (a : RegIndex) (f3 : BitVec 3) (d : RegIndex) (op : BitVec 7)

@[simp] theorem opcodeOf_encodeI : opcodeOf (encodeI imm a f3 d op) = op :=
  opcodeOf_of_toNat (imm.toNat * 2 ^ 13 + a.toNat * 2 ^ 8 + f3.toNat * 2 ^ 5 + d.toNat)
    (by rw [encodeI_toNat]; omega)

@[simp] theorem rdOf_encodeI : rdOf (encodeI imm a f3 d op) = d :=
  slice_of_parts 7 (imm.toNat * 2 ^ 8 + a.toNat * 2 ^ 3 + f3.toNat) op.toNat
    (by rw [encodeI_toNat]; omega) op.isLt

@[simp] theorem funct3Of_encodeI : funct3Of (encodeI imm a f3 d op) = f3 :=
  slice_of_parts 12 (imm.toNat * 2 ^ 5 + a.toNat) (d.toNat * 2 ^ 7 + op.toNat)
    (by rw [encodeI_toNat]; omega) (by omega)

@[simp] theorem rs1Of_encodeI : rs1Of (encodeI imm a f3 d op) = a :=
  slice_of_parts 15 imm.toNat (f3.toNat * 2 ^ 12 + d.toNat * 2 ^ 7 + op.toNat)
    (by rw [encodeI_toNat]; omega) (by omega)

@[simp] theorem immI_encodeI : immI (encodeI imm a f3 d op) = imm :=
  slice_of_parts 20 0 (a.toNat * 2 ^ 15 + f3.toNat * 2 ^ 12 + d.toNat * 2 ^ 7 + op.toNat)
    (by rw [encodeI_toNat]; omega) (by omega)

/-- `funct7` of an I-format word is the top of its immediate. -/
@[simp] theorem funct7Of_encodeI : funct7Of (encodeI imm a f3 d op) = imm.extractLsb' 5 7 := by
  apply BitVec.eq_of_toNat_eq
  rw [funct7Of_toNat, encodeI_toNat, toNat_slice]
  omega

end I

section S
variable (imm : BitVec 12) (b a : RegIndex) (f3 : BitVec 3) (op : BitVec 7)

@[simp] theorem opcodeOf_encodeS : opcodeOf (encodeS imm b a f3 op) = op :=
  opcodeOf_of_toNat (imm.toNat / 2 ^ 5 * 2 ^ 18 + b.toNat * 2 ^ 13 + a.toNat * 2 ^ 8 +
    f3.toNat * 2 ^ 5 + imm.toNat % 2 ^ 5) (by rw [encodeS_toNat]; omega)

@[simp] theorem funct3Of_encodeS : funct3Of (encodeS imm b a f3 op) = f3 :=
  slice_of_parts 12 (imm.toNat / 2 ^ 5 * 2 ^ 10 + b.toNat * 2 ^ 5 + a.toNat)
    (imm.toNat % 2 ^ 5 * 2 ^ 7 + op.toNat) (by rw [encodeS_toNat]; omega) (by omega)

@[simp] theorem rs1Of_encodeS : rs1Of (encodeS imm b a f3 op) = a :=
  slice_of_parts 15 (imm.toNat / 2 ^ 5 * 2 ^ 5 + b.toNat)
    (f3.toNat * 2 ^ 12 + imm.toNat % 2 ^ 5 * 2 ^ 7 + op.toNat) (by rw [encodeS_toNat]; omega)
    (by omega)

@[simp] theorem rs2Of_encodeS : rs2Of (encodeS imm b a f3 op) = b :=
  slice_of_parts 20 (imm.toNat / 2 ^ 5)
    (a.toNat * 2 ^ 15 + f3.toNat * 2 ^ 12 + imm.toNat % 2 ^ 5 * 2 ^ 7 + op.toNat)
    (by rw [encodeS_toNat]; omega) (by omega)

@[simp] theorem immS_encodeS : immS (encodeS imm b a f3 op) = imm := by
  apply BitVec.eq_of_toNat_eq
  rw [immS_toNat, encodeS_toNat]
  omega

end S

section B
variable (imm : BitVec 13) (b a : RegIndex) (f3 : BitVec 3) (op : BitVec 7)

@[simp] theorem opcodeOf_encodeB : opcodeOf (encodeB imm b a f3 op) = op :=
  opcodeOf_of_toNat (imm.toNat / 2 ^ 12 * 2 ^ 24 + imm.toNat / 2 ^ 5 % 2 ^ 6 * 2 ^ 18 +
    b.toNat * 2 ^ 13 + a.toNat * 2 ^ 8 + f3.toNat * 2 ^ 5 + imm.toNat / 2 % 2 ^ 4 * 2 +
    imm.toNat / 2 ^ 11 % 2) (by rw [encodeB_toNat]; omega)

@[simp] theorem funct3Of_encodeB : funct3Of (encodeB imm b a f3 op) = f3 :=
  slice_of_parts 12 (imm.toNat / 2 ^ 12 * 2 ^ 16 + imm.toNat / 2 ^ 5 % 2 ^ 6 * 2 ^ 10 +
    b.toNat * 2 ^ 5 + a.toNat)
    (imm.toNat / 2 % 2 ^ 4 * 2 ^ 8 + imm.toNat / 2 ^ 11 % 2 * 2 ^ 7 + op.toNat)
    (by rw [encodeB_toNat]; omega) (by omega)

@[simp] theorem rs1Of_encodeB : rs1Of (encodeB imm b a f3 op) = a :=
  slice_of_parts 15 (imm.toNat / 2 ^ 12 * 2 ^ 11 + imm.toNat / 2 ^ 5 % 2 ^ 6 * 2 ^ 5 + b.toNat)
    (f3.toNat * 2 ^ 12 + imm.toNat / 2 % 2 ^ 4 * 2 ^ 8 + imm.toNat / 2 ^ 11 % 2 * 2 ^ 7 + op.toNat)
    (by rw [encodeB_toNat]; omega) (by omega)

@[simp] theorem rs2Of_encodeB : rs2Of (encodeB imm b a f3 op) = b :=
  slice_of_parts 20 (imm.toNat / 2 ^ 12 * 2 ^ 6 + imm.toNat / 2 ^ 5 % 2 ^ 6)
    (a.toNat * 2 ^ 15 + f3.toNat * 2 ^ 12 + imm.toNat / 2 % 2 ^ 4 * 2 ^ 8 +
      imm.toNat / 2 ^ 11 % 2 * 2 ^ 7 + op.toNat) (by rw [encodeB_toNat]; omega) (by omega)

theorem toNat_mod_two_of_lsb {n : Nat} {v : BitVec n} (h : v.getLsbD 0 = false) :
    v.toNat % 2 = 0 := by
  simpa [BitVec.getLsbD, Nat.testBit_zero] using h

theorem immB_encodeB (h : imm.getLsbD 0 = false) : immB (encodeB imm b a f3 op) = imm := by
  have h0 := toNat_mod_two_of_lsb h
  apply BitVec.eq_of_toNat_eq
  rw [immB_toNat]
  generalize hw : (encodeB imm b a f3 op).toNat = w
  rw [encodeB_toNat] at hw
  have h1 : w / 2 ^ 31 = imm.toNat / 2 ^ 12 := by omega
  have h2 : w / 2 ^ 7 % 2 = imm.toNat / 2 ^ 11 % 2 := by omega
  have h3 : w / 2 ^ 25 % 2 ^ 6 = imm.toNat / 2 ^ 5 % 2 ^ 6 :=
    field_of_parts 25 (imm.toNat / 2 ^ 12) (b.toNat * 2 ^ 20 + a.toNat * 2 ^ 15 + f3.toNat * 2 ^ 12 +
      imm.toNat / 2 % 2 ^ 4 * 2 ^ 8 + imm.toNat / 2 ^ 11 % 2 * 2 ^ 7 + op.toNat) (by omega)
      (by omega) (by omega)
  have h4 : w / 2 ^ 8 % 2 ^ 4 = imm.toNat / 2 % 2 ^ 4 := by omega
  rw [h1, h2, h3, h4]
  clear hw h1 h2 h3 h4
  omega

end B

section U
variable (imm20 : BitVec 20) (d : RegIndex) (op : BitVec 7)

@[simp] theorem opcodeOf_encodeU : opcodeOf (encodeU imm20 d op) = op :=
  opcodeOf_of_toNat (imm20.toNat * 2 ^ 5 + d.toNat) (by rw [encodeU_toNat]; omega)

@[simp] theorem rdOf_encodeU : rdOf (encodeU imm20 d op) = d :=
  slice_of_parts 7 imm20.toNat op.toNat (by rw [encodeU_toNat]; omega) op.isLt

@[simp] theorem immU_encodeU : immU (encodeU imm20 d op) = imm20 ++ 0#12 := by
  apply BitVec.eq_of_toNat_eq
  rw [immU_toNat, encodeU_toNat, toNat_append_add, BitVec.toNat_ofNat]
  omega

end U

section J
variable (imm : BitVec 21) (d : RegIndex) (op : BitVec 7)

@[simp] theorem opcodeOf_encodeJ : opcodeOf (encodeJ imm d op) = op :=
  opcodeOf_of_toNat (imm.toNat / 2 ^ 20 * 2 ^ 24 + imm.toNat / 2 % 2 ^ 10 * 2 ^ 14 +
    imm.toNat / 2 ^ 11 % 2 * 2 ^ 13 + imm.toNat / 2 ^ 12 % 2 ^ 8 * 2 ^ 5 + d.toNat)
    (by rw [encodeJ_toNat]; omega)

@[simp] theorem rdOf_encodeJ : rdOf (encodeJ imm d op) = d :=
  slice_of_parts 7 (imm.toNat / 2 ^ 20 * 2 ^ 19 + imm.toNat / 2 % 2 ^ 10 * 2 ^ 9 +
    imm.toNat / 2 ^ 11 % 2 * 2 ^ 8 + imm.toNat / 2 ^ 12 % 2 ^ 8) op.toNat
    (by rw [encodeJ_toNat]; omega) op.isLt

theorem immJ_encodeJ (h : imm.getLsbD 0 = false) : immJ (encodeJ imm d op) = imm := by
  have h0 := toNat_mod_two_of_lsb h
  apply BitVec.eq_of_toNat_eq
  rw [immJ_toNat]
  generalize hw : (encodeJ imm d op).toNat = w
  rw [encodeJ_toNat] at hw
  have h1 : w / 2 ^ 31 = imm.toNat / 2 ^ 20 := by omega
  have h2 : w / 2 ^ 12 % 2 ^ 8 = imm.toNat / 2 ^ 12 % 2 ^ 8 := by omega
  have h3 : w / 2 ^ 20 % 2 = imm.toNat / 2 ^ 11 % 2 := by omega
  have h4 : w / 2 ^ 21 % 2 ^ 10 = imm.toNat / 2 % 2 ^ 10 := by omega
  rw [h1, h2, h3, h4]
  clear hw h1 h2 h3 h4
  omega

end J

/-! ## A word is made of its fields -/

theorem encodeR_fields (w : InstrWord) :
    encodeR (funct7Of w) (rs2Of w) (rs1Of w) (funct3Of w) (rdOf w) (opcodeOf w) = w := by
  apply BitVec.eq_of_toNat_eq
  rw [encodeR_toNat, funct7Of_toNat, rs2Of_toNat, rs1Of_toNat, funct3Of_toNat, rdOf_toNat,
    opcodeOf_toNat]
  omega

theorem encodeI_fields (w : InstrWord) :
    encodeI (immI w) (rs1Of w) (funct3Of w) (rdOf w) (opcodeOf w) = w := by
  apply BitVec.eq_of_toNat_eq
  rw [encodeI_toNat, immI_toNat, rs1Of_toNat, funct3Of_toNat, rdOf_toNat, opcodeOf_toNat]
  omega

theorem encodeS_fields (w : InstrWord) :
    encodeS (immS w) (rs2Of w) (rs1Of w) (funct3Of w) (opcodeOf w) = w := by
  apply BitVec.eq_of_toNat_eq
  rw [encodeS_toNat, immS_toNat, rs2Of_toNat, rs1Of_toNat, funct3Of_toNat, opcodeOf_toNat]
  omega

theorem encodeB_fields (w : InstrWord) :
    encodeB (immB w) (rs2Of w) (rs1Of w) (funct3Of w) (opcodeOf w) = w := by
  apply BitVec.eq_of_toNat_eq
  have h1 : (immB w).toNat / 2 ^ 12 = w.toNat / 2 ^ 31 := by rw [immB_toNat]; omega
  have h2 : (immB w).toNat / 2 ^ 5 % 2 ^ 6 = w.toNat / 2 ^ 25 % 2 ^ 6 :=
    field_of_parts 5 (w.toNat / 2 ^ 31 * 2 + w.toNat / 2 ^ 7 % 2) (w.toNat / 2 ^ 8 % 2 ^ 4 * 2)
      (by rw [immB_toNat]; ring) (by omega) (by omega)
  have h3 : (immB w).toNat / 2 ^ 1 % 2 ^ 4 = w.toNat / 2 ^ 8 % 2 ^ 4 :=
    field_of_parts 1 (w.toNat / 2 ^ 31 * 2 ^ 7 + w.toNat / 2 ^ 7 % 2 * 2 ^ 6 +
      w.toNat / 2 ^ 25 % 2 ^ 6) 0 (by rw [immB_toNat]; ring) (by omega) (by omega)
  have h4 : (immB w).toNat / 2 ^ 11 % 2 ^ 1 = w.toNat / 2 ^ 7 % 2 :=
    field_of_parts 11 (w.toNat / 2 ^ 31)
      (w.toNat / 2 ^ 25 % 2 ^ 6 * 2 ^ 5 + w.toNat / 2 ^ 8 % 2 ^ 4 * 2) (by rw [immB_toNat]; ring)
      (by omega) (by omega)
  rw [Nat.pow_one] at h3 h4
  rw [encodeB_toNat, h1, h2, h3, h4, rs2Of_toNat, rs1Of_toNat, funct3Of_toNat, opcodeOf_toNat]
  clear h1 h2 h3 h4
  omega

theorem encodeU_fields (w : InstrWord) :
    encodeU (w.extractLsb' 12 20) (rdOf w) (opcodeOf w) = w := by
  apply BitVec.eq_of_toNat_eq
  rw [encodeU_toNat, toNat_slice, rdOf_toNat, opcodeOf_toNat]
  omega

theorem encodeJ_fields (w : InstrWord) : encodeJ (immJ w) (rdOf w) (opcodeOf w) = w := by
  apply BitVec.eq_of_toNat_eq
  have h1 : (immJ w).toNat / 2 ^ 20 = w.toNat / 2 ^ 31 := by rw [immJ_toNat]; omega
  have h2 : (immJ w).toNat / 2 ^ 1 % 2 ^ 10 = w.toNat / 2 ^ 21 % 2 ^ 10 :=
    field_of_parts 1 (w.toNat / 2 ^ 31 * 2 ^ 9 + w.toNat / 2 ^ 12 % 2 ^ 8 * 2 +
      w.toNat / 2 ^ 20 % 2) 0 (by rw [immJ_toNat]; ring) (by omega) (by omega)
  have h3 : (immJ w).toNat / 2 ^ 11 % 2 ^ 1 = w.toNat / 2 ^ 20 % 2 :=
    field_of_parts 11 (w.toNat / 2 ^ 31 * 2 ^ 8 + w.toNat / 2 ^ 12 % 2 ^ 8)
      (w.toNat / 2 ^ 21 % 2 ^ 10 * 2) (by rw [immJ_toNat]; ring) (by omega) (by omega)
  have h4 : (immJ w).toNat / 2 ^ 12 % 2 ^ 8 = w.toNat / 2 ^ 12 % 2 ^ 8 :=
    field_of_parts 12 (w.toNat / 2 ^ 31)
      (w.toNat / 2 ^ 20 % 2 * 2 ^ 11 + w.toNat / 2 ^ 21 % 2 ^ 10 * 2) (by rw [immJ_toNat]; ring)
      (by omega) (by omega)
  rw [Nat.pow_one] at h2 h3
  rw [encodeJ_toNat, h1, h2, h3, h4, rdOf_toNat, opcodeOf_toNat]
  clear h1 h2 h3 h4
  omega

/-- A branch's or jump's immediate is even in every word (rules R56, R58). -/
theorem immB_even (w : InstrWord) : evenOffset (immB w) = true := by
  have h : (immB w).toNat % 2 = 0 := by rw [immB_toNat]; omega
  simp [evenOffset, BitVec.getLsbD, Nat.testBit_zero, h]

theorem immJ_even (w : InstrWord) : evenOffset (immJ w) = true := by
  have h : (immJ w).toNat % 2 = 0 := by rw [immJ_toNat]; omega
  simp [evenOffset, BitVec.getLsbD, Nat.testBit_zero, h]

/-! ## Narrowing a sign-extended immediate gives it back -/

/-- `sext` keeps the low bits (rule R6). -/
theorem setWidth_sext (x : XLen) {n : Nat} (v : BitVec n) (hn : n ≤ 32) (k : Nat) (hk : k ≤ n) :
    (sext x v).setWidth k = v.setWidth k := by
  have hb := x.bits_ge
  apply BitVec.eq_of_getLsbD_eq
  intro i hi
  simp only [sext, BitVec.getLsbD_setWidth, BitVec.getLsbD_signExtend]
  simp [show i < x.bits by omega, show i < n by omega]

/-- An immediate read back at its own width. -/
theorem setWidth_sext_self (x : XLen) {n : Nat} (v : BitVec n) (hn : n ≤ 32) :
    (sext x v).setWidth n = v := by
  rw [setWidth_sext x v hn n (Nat.le_refl n), BitVec.setWidth_eq]

theorem sext_inj {x : XLen} {n : Nat} (hn : n ≤ 32) {a b : BitVec n} (h : sext x a = sext x b) :
    a = b := by
  have := congrArg (fun v => v.setWidth n) h
  simpa only [setWidth_sext_self x _ hn] using this

/-- The shift amount of a shift-immediate's 12-bit immediate (rule R61). -/
theorem shamt_of_immediate (x : XLen) (u s : BitVec 6) : (sext x (u ++ s)).setWidth 6 = s := by
  rw [setWidth_sext x _ (by omega) 6 (by omega)]
  apply BitVec.eq_of_toNat_eq
  rw [BitVec.toNat_setWidth, toNat_append_add]; omega

/-- The upper bits of a shift-immediate pick the logical shift (rules R61, R197, R198). -/
theorem shiftSelector_logical (x : XLen) (s : BitVec 6) (h : shamtFits x s = true) :
    shiftSelector x ((0b000000#6 ++ s).extractLsb' 5 7) = some false := by
  revert x s; intro x; cases x <;> decide

/-- The upper bits of a shift-immediate pick the arithmetic shift (rules R61, R199). -/
theorem shiftSelector_arithmetic (x : XLen) (s : BitVec 6) (h : shamtFits x s = true) :
    shiftSelector x ((0b010000#6 ++ s).extractLsb' 5 7) = some true := by
  revert x s; intro x; cases x <;> decide

/-- At `XLEN = 32` a shift amount of 32 or more leaves no row (rules R66, R197). -/
theorem shiftSelector_none (s : BitVec 6) (h : shamtFits .x32 s = false) :
    shiftSelector .x32 ((0b000000#6 ++ s).extractLsb' 5 7) = none ∧
      shiftSelector .x32 ((0b010000#6 ++ s).extractLsb' 5 7) = none := by
  revert s; decide

/-- The 20-bit field of a sign-extended U immediate. -/
theorem slice_sext_upper (x : XLen) (imm20 : BitVec 20) :
    (sext x (imm20 ++ 0#12)).extractLsb' 12 20 = imm20 := by
  have hb := x.bits_ge
  apply BitVec.eq_of_getLsbD_eq
  intro i hi
  simp only [sext, BitVec.getLsbD_extractLsb', BitVec.getLsbD_signExtend, BitVec.getLsbD_append]
  simp [show 12 + i < x.bits by omega, show 12 + i < 20 + 12 by omega, hi]

/-- The value of a sign-extended immediate (rules R6, R59). -/
theorem sext_toInt (x : XLen) {n : Nat} (v : BitVec n) (hn : n ≤ 32) : (sext x v).toInt = v.toInt :=
  BitVec.toInt_signExtend_of_le (Nat.le_trans hn x.bits_ge)

/-! ## The record of an encoded word (rules R73 to R75) -/

theorem decodeFields_ok {x : XLen} {w : InstrWord} {f : DecodedFields x}
    (h : decodeFields x w = .ok f) :
    formatOf (opcodeOf w) ≠ .Unknown ∧ f = fieldsAs x (formatOf (opcodeOf w)) w := by
  unfold decodeFields at h
  split at h
  · simp at h
  · next h1 => exact ⟨h1, by injection h with h; exact h.symm⟩

/-- A word of a known opcode decodes to its fields. -/
theorem decodeFields_of_known {x : XLen} {w : InstrWord} (h : formatOf (opcodeOf w) ≠ .Unknown) :
    decodeFields x w = .ok (fieldsOfWord x w) := by
  unfold decodeFields fieldsOfWord
  split <;> simp_all

/-- A word of an unknown opcode does not decode. -/
theorem decodeFields_of_unknown {x : XLen} {w : InstrWord} (h : formatOf (opcodeOf w) = .Unknown) :
    decodeFields x w = .error .illegalInstruction := by
  unfold decodeFields; rw [h]

theorem fieldsOfWord_encodeR (x : XLen) (f7 : BitVec 7) (b a : RegIndex) (f3 : BitVec 3)
    (d : RegIndex) {op : BitVec 7} (h : formatOf op = .R) :
    fieldsOfWord x (encodeR f7 b a f3 d op) =
      { opcode := op, funct3 := f3, funct7 := f7, rs1 := a, rs2 := b, rd := d, immediate := 0,
        format := .R } := by
  simp [fieldsOfWord, fieldsAs, h, Format.hasRs1, Format.hasRs2, Format.hasRd, immediateOf]

theorem fieldsOfWord_encodeI (x : XLen) (imm : BitVec 12) (a : RegIndex) (f3 : BitVec 3)
    (d : RegIndex) {op : BitVec 7} (h : formatOf op = .I) :
    fieldsOfWord x (encodeI imm a f3 d op) =
      { opcode := op, funct3 := f3, funct7 := imm.extractLsb' 5 7, rs1 := a, rs2 := 0, rd := d,
        immediate := sext x imm, format := .I } := by
  simp [fieldsOfWord, fieldsAs, h, Format.hasRs1, Format.hasRs2, Format.hasRd, immediateOf]

theorem fieldsOfWord_encodeS (x : XLen) (imm : BitVec 12) (b a : RegIndex) (f3 : BitVec 3)
    {op : BitVec 7} (h : formatOf op = .S) :
    fieldsOfWord x (encodeS imm b a f3 op) =
      { opcode := op, funct3 := f3, funct7 := funct7Of (encodeS imm b a f3 op), rs1 := a, rs2 := b,
        rd := 0, immediate := sext x imm, format := .S } := by
  simp [fieldsOfWord, fieldsAs, h, Format.hasRs1, Format.hasRs2, Format.hasRd, immediateOf]

theorem fieldsOfWord_encodeB (x : XLen) (imm : BitVec 13) (b a : RegIndex) (f3 : BitVec 3)
    {op : BitVec 7} (h : formatOf op = .B) (he : imm.getLsbD 0 = false) :
    fieldsOfWord x (encodeB imm b a f3 op) =
      { opcode := op, funct3 := f3, funct7 := funct7Of (encodeB imm b a f3 op), rs1 := a, rs2 := b,
        rd := 0, immediate := sext x imm, format := .B } := by
  simp [fieldsOfWord, fieldsAs, h, Format.hasRs1, Format.hasRs2, Format.hasRd, immediateOf,
    immB_encodeB imm b a f3 op he]

theorem fieldsOfWord_encodeU (x : XLen) (imm20 : BitVec 20) (d : RegIndex) {op : BitVec 7}
    (h : formatOf op = .U) :
    fieldsOfWord x (encodeU imm20 d op) =
      { opcode := op, funct3 := funct3Of (encodeU imm20 d op),
        funct7 := funct7Of (encodeU imm20 d op), rs1 := 0, rs2 := 0, rd := d,
        immediate := upperImmediate x imm20, format := .U } := by
  simp [fieldsOfWord, fieldsAs, h, Format.hasRs1, Format.hasRs2, Format.hasRd, immediateOf,
    upperImmediate]

theorem fieldsOfWord_encodeJ (x : XLen) (imm : BitVec 21) (d : RegIndex) {op : BitVec 7}
    (h : formatOf op = .J) (he : imm.getLsbD 0 = false) :
    fieldsOfWord x (encodeJ imm d op) =
      { opcode := op, funct3 := funct3Of (encodeJ imm d op),
        funct7 := funct7Of (encodeJ imm d op), rs1 := 0, rs2 := 0, rd := d,
        immediate := sext x imm, format := .J } := by
  simp [fieldsOfWord, fieldsAs, h, Format.hasRs1, Format.hasRs2, Format.hasRd, immediateOf,
    immJ_encodeJ imm d op he]

/-- Decoding a word of a known opcode is looking for its row. -/
theorem decodeInstr_of_known {x : XLen} {w : InstrWord} (h : formatOf (opcodeOf w) ≠ .Unknown) :
    decodeInstr x w =
      match instrOfFields (fieldsOfWord x w) with
      | some i => .ok i
      | none => .error .safeNoOp := by
  cases h2 : instrOfFields (fieldsOfWord x w) <;> simp only [decodeInstr, decodeFields_of_known h, h2]

end Sys2Proof
end

