-- ==== Sys2Proof/Laws/State.lean ====
section
/-!
SUPPORT. What each update of a core leaves in each field: one lemma per field per update, so that no
later proof unfolds a record update.
-/

namespace Sys2Proof.Machine

variable {x : XLen}

/-! ## `writeReg` (its effect on `regs` is in `Laws/Registers.lean`) -/

@[simp] theorem writeReg_cfg (m : CoreState x) (r : RegIndex) (v : Word x) :
    (m.writeReg r v).cfg = m.cfg := by
  unfold CoreState.writeReg; split <;> rfl

@[simp] theorem writeReg_pc (m : CoreState x) (r : RegIndex) (v : Word x) :
    (m.writeReg r v).pc = m.pc := by
  unfold CoreState.writeReg; split <;> rfl

@[simp] theorem writeReg_mem (m : CoreState x) (r : RegIndex) (v : Word x) :
    (m.writeReg r v).mem = m.mem := by
  unfold CoreState.writeReg; split <;> rfl

@[simp] theorem writeReg_ifId (m : CoreState x) (r : RegIndex) (v : Word x) :
    (m.writeReg r v).ifId = m.ifId := by
  unfold CoreState.writeReg; split <;> rfl

@[simp] theorem writeReg_idEx (m : CoreState x) (r : RegIndex) (v : Word x) :
    (m.writeReg r v).idEx = m.idEx := by
  unfold CoreState.writeReg; split <;> rfl

@[simp] theorem writeReg_exM (m : CoreState x) (r : RegIndex) (v : Word x) :
    (m.writeReg r v).exM = m.exM := by
  unfold CoreState.writeReg; split <;> rfl

@[simp] theorem writeReg_mWb (m : CoreState x) (r : RegIndex) (v : Word x) :
    (m.writeReg r v).mWb = m.mWb := by
  unfold CoreState.writeReg; split <;> rfl

@[simp] theorem writeReg_fetchStopped (m : CoreState x) (r : RegIndex) (v : Word x) :
    (m.writeReg r v).fetchStopped = m.fetchStopped := by
  unfold CoreState.writeReg; split <;> rfl

@[simp] theorem writeReg_status (m : CoreState x) (r : RegIndex) (v : Word x) :
    (m.writeReg r v).status = m.status := by
  unfold CoreState.writeReg; split <;> rfl

@[simp] theorem writeReg_instructionsIssued (m : CoreState x) (r : RegIndex) (v : Word x) :
    (m.writeReg r v).instructionsIssued = m.instructionsIssued := by
  unfold CoreState.writeReg; split <;> rfl

@[simp] theorem writeReg_instructionsCompleted (m : CoreState x) (r : RegIndex) (v : Word x) :
    (m.writeReg r v).instructionsCompleted = m.instructionsCompleted := by
  unfold CoreState.writeReg; split <;> rfl

@[simp] theorem writeReg_cycles (m : CoreState x) (r : RegIndex) (v : Word x) :
    (m.writeReg r v).cycles = m.cycles := by
  unfold CoreState.writeReg; split <;> rfl

@[simp] theorem writeReg_diag (m : CoreState x) (r : RegIndex) (v : Word x) :
    (m.writeReg r v).diag = m.diag := by
  unfold CoreState.writeReg; split <;> rfl

/-! ## `raise` -/

@[simp] theorem raise_cfg (m : CoreState x) (c : Condition x) :
    (m.raise c).cfg = m.cfg := rfl

@[simp] theorem raise_pc (m : CoreState x) (c : Condition x) :
    (m.raise c).pc = m.pc := rfl

@[simp] theorem raise_regs (m : CoreState x) (c : Condition x) :
    (m.raise c).regs = m.regs := rfl

@[simp] theorem raise_mem (m : CoreState x) (c : Condition x) :
    (m.raise c).mem = m.mem := rfl

@[simp] theorem raise_ifId (m : CoreState x) (c : Condition x) :
    (m.raise c).ifId = m.ifId := rfl

@[simp] theorem raise_idEx (m : CoreState x) (c : Condition x) :
    (m.raise c).idEx = m.idEx := rfl

@[simp] theorem raise_exM (m : CoreState x) (c : Condition x) :
    (m.raise c).exM = m.exM := rfl

@[simp] theorem raise_mWb (m : CoreState x) (c : Condition x) :
    (m.raise c).mWb = m.mWb := rfl

@[simp] theorem raise_fetchStopped (m : CoreState x) (c : Condition x) :
    (m.raise c).fetchStopped = m.fetchStopped := rfl

@[simp] theorem raise_status (m : CoreState x) (c : Condition x) :
    (m.raise c).status = .failed c := rfl

@[simp] theorem raise_instructionsIssued (m : CoreState x) (c : Condition x) :
    (m.raise c).instructionsIssued = m.instructionsIssued := rfl

@[simp] theorem raise_instructionsCompleted (m : CoreState x) (c : Condition x) :
    (m.raise c).instructionsCompleted = m.instructionsCompleted := rfl

@[simp] theorem raise_cycles (m : CoreState x) (c : Condition x) :
    (m.raise c).cycles = m.cycles := rfl

@[simp] theorem raise_diag (m : CoreState x) (c : Condition x) :
    (m.raise c).diag = m.diag := rfl

/-! ## `passFields` -/

@[simp] theorem passFields_cfg (m : CoreState x) (f : DecodedFields x) :
    (m.passFields f).cfg = m.cfg := rfl

@[simp] theorem passFields_pc (m : CoreState x) (f : DecodedFields x) :
    (m.passFields f).pc = m.pc + 4#x.bits := rfl

@[simp] theorem passFields_regs (m : CoreState x) (f : DecodedFields x) :
    (m.passFields f).regs = m.regs := rfl

@[simp] theorem passFields_mem (m : CoreState x) (f : DecodedFields x) :
    (m.passFields f).mem = m.mem := rfl

@[simp] theorem passFields_ifId (m : CoreState x) (f : DecodedFields x) :
    (m.passFields f).ifId = m.ifId := rfl

@[simp] theorem passFields_idEx (m : CoreState x) (f : DecodedFields x) :
    (m.passFields f).idEx = m.idEx := rfl

@[simp] theorem passFields_exM (m : CoreState x) (f : DecodedFields x) :
    (m.passFields f).exM = m.exM := rfl

@[simp] theorem passFields_mWb (m : CoreState x) (f : DecodedFields x) :
    (m.passFields f).mWb = m.mWb := rfl

@[simp] theorem passFields_fetchStopped (m : CoreState x) (f : DecodedFields x) :
    (m.passFields f).fetchStopped = m.fetchStopped := rfl

@[simp] theorem passFields_status (m : CoreState x) (f : DecodedFields x) :
    (m.passFields f).status = m.status := rfl

@[simp] theorem passFields_instructionsIssued (m : CoreState x) (f : DecodedFields x) :
    (m.passFields f).instructionsIssued = m.instructionsIssued + 1 := rfl

@[simp] theorem passFields_instructionsCompleted (m : CoreState x) (f : DecodedFields x) :
    (m.passFields f).instructionsCompleted = m.instructionsCompleted + 1 := rfl

@[simp] theorem passFields_cycles (m : CoreState x) (f : DecodedFields x) :
    (m.passFields f).cycles = m.cycles + 5 := rfl

@[simp] theorem passFields_diag (m : CoreState x) (f : DecodedFields x) :
    (m.passFields f).diag = m.diagWith m.pc f := rfl

/-! ## `pass` -/

@[simp] theorem pass_cfg (m : CoreState x) (i : Instr) :
    (m.pass i).cfg = m.cfg := rfl

@[simp] theorem pass_pc (m : CoreState x) (i : Instr) :
    (m.pass i).pc = m.pc + 4#x.bits := rfl

@[simp] theorem pass_regs (m : CoreState x) (i : Instr) :
    (m.pass i).regs = m.regs := rfl

@[simp] theorem pass_mem (m : CoreState x) (i : Instr) :
    (m.pass i).mem = m.mem := rfl

@[simp] theorem pass_ifId (m : CoreState x) (i : Instr) :
    (m.pass i).ifId = m.ifId := rfl

@[simp] theorem pass_idEx (m : CoreState x) (i : Instr) :
    (m.pass i).idEx = m.idEx := rfl

@[simp] theorem pass_exM (m : CoreState x) (i : Instr) :
    (m.pass i).exM = m.exM := rfl

@[simp] theorem pass_mWb (m : CoreState x) (i : Instr) :
    (m.pass i).mWb = m.mWb := rfl

@[simp] theorem pass_fetchStopped (m : CoreState x) (i : Instr) :
    (m.pass i).fetchStopped = m.fetchStopped := rfl

@[simp] theorem pass_status (m : CoreState x) (i : Instr) :
    (m.pass i).status = m.status := rfl

@[simp] theorem pass_instructionsIssued (m : CoreState x) (i : Instr) :
    (m.pass i).instructionsIssued = m.instructionsIssued + 1 := rfl

@[simp] theorem pass_instructionsCompleted (m : CoreState x) (i : Instr) :
    (m.pass i).instructionsCompleted = m.instructionsCompleted + 1 := rfl

@[simp] theorem pass_cycles (m : CoreState x) (i : Instr) :
    (m.pass i).cycles = m.cycles + 5 := rfl

@[simp] theorem pass_diag (m : CoreState x) (i : Instr) :
    (m.pass i).diag = m.diagWith m.pc (i.fields x) := rfl

/-! ## `passTo` -/

@[simp] theorem passTo_cfg (m : CoreState x) (i : Instr) (target : Word x) :
    (m.passTo i target).cfg = m.cfg := rfl

@[simp] theorem passTo_pc (m : CoreState x) (i : Instr) (target : Word x) :
    (m.passTo i target).pc = target := rfl

@[simp] theorem passTo_regs (m : CoreState x) (i : Instr) (target : Word x) :
    (m.passTo i target).regs = m.regs := rfl

@[simp] theorem passTo_mem (m : CoreState x) (i : Instr) (target : Word x) :
    (m.passTo i target).mem = m.mem := rfl

@[simp] theorem passTo_ifId (m : CoreState x) (i : Instr) (target : Word x) :
    (m.passTo i target).ifId = m.ifId := rfl

@[simp] theorem passTo_idEx (m : CoreState x) (i : Instr) (target : Word x) :
    (m.passTo i target).idEx = m.idEx := rfl

@[simp] theorem passTo_exM (m : CoreState x) (i : Instr) (target : Word x) :
    (m.passTo i target).exM = m.exM := rfl

@[simp] theorem passTo_mWb (m : CoreState x) (i : Instr) (target : Word x) :
    (m.passTo i target).mWb = m.mWb := rfl

@[simp] theorem passTo_fetchStopped (m : CoreState x) (i : Instr) (target : Word x) :
    (m.passTo i target).fetchStopped = m.fetchStopped := rfl

@[simp] theorem passTo_status (m : CoreState x) (i : Instr) (target : Word x) :
    (m.passTo i target).status = m.status := rfl

@[simp] theorem passTo_instructionsIssued (m : CoreState x) (i : Instr) (target : Word x) :
    (m.passTo i target).instructionsIssued = m.instructionsIssued + 1 := rfl

@[simp] theorem passTo_instructionsCompleted (m : CoreState x) (i : Instr) (target : Word x) :
    (m.passTo i target).instructionsCompleted = m.instructionsCompleted + 1 := rfl

@[simp] theorem passTo_cycles (m : CoreState x) (i : Instr) (target : Word x) :
    (m.passTo i target).cycles = m.cycles + 5 := rfl

@[simp] theorem passTo_diag (m : CoreState x) (i : Instr) (target : Word x) :
    (m.passTo i target).diag = m.diagWith m.pc (i.fields x) := rfl

/-! ## `passBranch` -/

@[simp] theorem passBranch_cfg (m : CoreState x) (i : Instr) (taken : Bool) (target : Word x) :
    (m.passBranch i taken target).cfg = m.cfg := by
  unfold CoreState.passBranch; split <;> simp [*]

@[simp] theorem passBranch_pc (m : CoreState x) (i : Instr) (taken : Bool) (target : Word x) :
    (m.passBranch i taken target).pc = if taken then target else m.pc + 4#x.bits := by
  unfold CoreState.passBranch; split <;> simp [*]

@[simp] theorem passBranch_regs (m : CoreState x) (i : Instr) (taken : Bool) (target : Word x) :
    (m.passBranch i taken target).regs = m.regs := by
  unfold CoreState.passBranch; split <;> simp [*]

@[simp] theorem passBranch_mem (m : CoreState x) (i : Instr) (taken : Bool) (target : Word x) :
    (m.passBranch i taken target).mem = m.mem := by
  unfold CoreState.passBranch; split <;> simp [*]

@[simp] theorem passBranch_ifId (m : CoreState x) (i : Instr) (taken : Bool) (target : Word x) :
    (m.passBranch i taken target).ifId = m.ifId := by
  unfold CoreState.passBranch; split <;> simp [*]

@[simp] theorem passBranch_idEx (m : CoreState x) (i : Instr) (taken : Bool) (target : Word x) :
    (m.passBranch i taken target).idEx = m.idEx := by
  unfold CoreState.passBranch; split <;> simp [*]

@[simp] theorem passBranch_exM (m : CoreState x) (i : Instr) (taken : Bool) (target : Word x) :
    (m.passBranch i taken target).exM = m.exM := by
  unfold CoreState.passBranch; split <;> simp [*]

@[simp] theorem passBranch_mWb (m : CoreState x) (i : Instr) (taken : Bool) (target : Word x) :
    (m.passBranch i taken target).mWb = m.mWb := by
  unfold CoreState.passBranch; split <;> simp [*]

@[simp] theorem passBranch_fetchStopped (m : CoreState x) (i : Instr) (taken : Bool) (target : Word x) :
    (m.passBranch i taken target).fetchStopped = m.fetchStopped := by
  unfold CoreState.passBranch; split <;> simp [*]

@[simp] theorem passBranch_status (m : CoreState x) (i : Instr) (taken : Bool) (target : Word x) :
    (m.passBranch i taken target).status = m.status := by
  unfold CoreState.passBranch; split <;> simp [*]

@[simp] theorem passBranch_instructionsIssued (m : CoreState x) (i : Instr) (taken : Bool) (target : Word x) :
    (m.passBranch i taken target).instructionsIssued = m.instructionsIssued + 1 := by
  unfold CoreState.passBranch; split <;> simp [*]

@[simp] theorem passBranch_instructionsCompleted (m : CoreState x) (i : Instr) (taken : Bool) (target : Word x) :
    (m.passBranch i taken target).instructionsCompleted = m.instructionsCompleted + 1 := by
  unfold CoreState.passBranch; split <;> simp [*]

@[simp] theorem passBranch_cycles (m : CoreState x) (i : Instr) (taken : Bool) (target : Word x) :
    (m.passBranch i taken target).cycles = m.cycles + 5 := by
  unfold CoreState.passBranch; split <;> simp [*]

@[simp] theorem passBranch_diag (m : CoreState x) (i : Instr) (taken : Bool) (target : Word x) :
    (m.passBranch i taken target).diag = m.diagWith m.pc (i.fields x) := by
  unfold CoreState.passBranch; split <;> simp [*]

/-! ## `abandonInMemory` -/

@[simp] theorem abandonInMemory_cfg (m : CoreState x) (i : Instr) (ea d : Word x)
    (ctrl : ControlSignals x) (c : Condition x) :
    (m.abandonInMemory i ea d ctrl c).cfg = m.cfg := rfl

@[simp] theorem abandonInMemory_pc (m : CoreState x) (i : Instr) (ea d : Word x)
    (ctrl : ControlSignals x) (c : Condition x) :
    (m.abandonInMemory i ea d ctrl c).pc = m.pc + 4#x.bits := rfl

@[simp] theorem abandonInMemory_regs (m : CoreState x) (i : Instr) (ea d : Word x)
    (ctrl : ControlSignals x) (c : Condition x) :
    (m.abandonInMemory i ea d ctrl c).regs = m.regs := rfl

@[simp] theorem abandonInMemory_mem (m : CoreState x) (i : Instr) (ea d : Word x)
    (ctrl : ControlSignals x) (c : Condition x) :
    (m.abandonInMemory i ea d ctrl c).mem = m.mem := rfl

@[simp] theorem abandonInMemory_ifId (m : CoreState x) (i : Instr) (ea d : Word x)
    (ctrl : ControlSignals x) (c : Condition x) :
    (m.abandonInMemory i ea d ctrl c).ifId = m.ifId := rfl

@[simp] theorem abandonInMemory_idEx (m : CoreState x) (i : Instr) (ea d : Word x)
    (ctrl : ControlSignals x) (c : Condition x) :
    (m.abandonInMemory i ea d ctrl c).idEx = m.idEx := rfl

@[simp] theorem abandonInMemory_exM (m : CoreState x) (i : Instr) (ea d : Word x)
    (ctrl : ControlSignals x) (c : Condition x) :
    (m.abandonInMemory i ea d ctrl c).exM = some { pc := m.pc, fields := i.fields x, aluResult := ea, storeData := d, ctrl := ctrl } := rfl

@[simp] theorem abandonInMemory_mWb (m : CoreState x) (i : Instr) (ea d : Word x)
    (ctrl : ControlSignals x) (c : Condition x) :
    (m.abandonInMemory i ea d ctrl c).mWb = m.mWb := rfl

@[simp] theorem abandonInMemory_fetchStopped (m : CoreState x) (i : Instr) (ea d : Word x)
    (ctrl : ControlSignals x) (c : Condition x) :
    (m.abandonInMemory i ea d ctrl c).fetchStopped = m.fetchStopped := rfl

@[simp] theorem abandonInMemory_status (m : CoreState x) (i : Instr) (ea d : Word x)
    (ctrl : ControlSignals x) (c : Condition x) :
    (m.abandonInMemory i ea d ctrl c).status = .failed c := rfl

@[simp] theorem abandonInMemory_instructionsIssued (m : CoreState x) (i : Instr) (ea d : Word x)
    (ctrl : ControlSignals x) (c : Condition x) :
    (m.abandonInMemory i ea d ctrl c).instructionsIssued = m.instructionsIssued + 1 := rfl

@[simp] theorem abandonInMemory_instructionsCompleted (m : CoreState x) (i : Instr) (ea d : Word x)
    (ctrl : ControlSignals x) (c : Condition x) :
    (m.abandonInMemory i ea d ctrl c).instructionsCompleted = m.instructionsCompleted := rfl

@[simp] theorem abandonInMemory_cycles (m : CoreState x) (i : Instr) (ea d : Word x)
    (ctrl : ControlSignals x) (c : Condition x) :
    (m.abandonInMemory i ea d ctrl c).cycles = m.cycles + 3 := rfl

@[simp] theorem abandonInMemory_diag (m : CoreState x) (i : Instr) (ea d : Word x)
    (ctrl : ControlSignals x) (c : Condition x) :
    (m.abandonInMemory i ea d ctrl c).diag = m.diagWith m.pc (i.fields x) := rfl

/-! ## `abandonInDecode` -/

@[simp] theorem abandonInDecode_cfg (m : CoreState x) (w : InstrWord) :
    (m.abandonInDecode w).cfg = m.cfg := rfl

@[simp] theorem abandonInDecode_pc (m : CoreState x) (w : InstrWord) :
    (m.abandonInDecode w).pc = m.pc + 4#x.bits := rfl

@[simp] theorem abandonInDecode_regs (m : CoreState x) (w : InstrWord) :
    (m.abandonInDecode w).regs = m.regs := rfl

@[simp] theorem abandonInDecode_mem (m : CoreState x) (w : InstrWord) :
    (m.abandonInDecode w).mem = m.mem := rfl

@[simp] theorem abandonInDecode_ifId (m : CoreState x) (w : InstrWord) :
    (m.abandonInDecode w).ifId = some { pc := m.pc, word := w } := rfl

@[simp] theorem abandonInDecode_idEx (m : CoreState x) (w : InstrWord) :
    (m.abandonInDecode w).idEx = m.idEx := rfl

@[simp] theorem abandonInDecode_exM (m : CoreState x) (w : InstrWord) :
    (m.abandonInDecode w).exM = m.exM := rfl

@[simp] theorem abandonInDecode_mWb (m : CoreState x) (w : InstrWord) :
    (m.abandonInDecode w).mWb = m.mWb := rfl

@[simp] theorem abandonInDecode_fetchStopped (m : CoreState x) (w : InstrWord) :
    (m.abandonInDecode w).fetchStopped = m.fetchStopped := rfl

@[simp] theorem abandonInDecode_status (m : CoreState x) (w : InstrWord) :
    (m.abandonInDecode w).status = .failed (.illegalInstruction m.pc w) := rfl

@[simp] theorem abandonInDecode_instructionsIssued (m : CoreState x) (w : InstrWord) :
    (m.abandonInDecode w).instructionsIssued = m.instructionsIssued := rfl

@[simp] theorem abandonInDecode_instructionsCompleted (m : CoreState x) (w : InstrWord) :
    (m.abandonInDecode w).instructionsCompleted = m.instructionsCompleted := rfl

@[simp] theorem abandonInDecode_cycles (m : CoreState x) (w : InstrWord) :
    (m.abandonInDecode w).cycles = m.cycles + 1 := rfl

@[simp] theorem abandonInDecode_diag (m : CoreState x) (w : InstrWord) :
    (m.abandonInDecode w).diag = m.diag := rfl

/-! ## `endRun` -/

@[simp] theorem endRun_cfg (m : CoreState x) :
    (m.endRun).cfg = m.cfg := rfl

@[simp] theorem endRun_pc (m : CoreState x) :
    (m.endRun).pc = m.pc := rfl

@[simp] theorem endRun_regs (m : CoreState x) :
    (m.endRun).regs = m.regs := rfl

@[simp] theorem endRun_mem (m : CoreState x) :
    (m.endRun).mem = m.mem := rfl

@[simp] theorem endRun_ifId (m : CoreState x) :
    (m.endRun).ifId = m.ifId := rfl

@[simp] theorem endRun_idEx (m : CoreState x) :
    (m.endRun).idEx = m.idEx := rfl

@[simp] theorem endRun_exM (m : CoreState x) :
    (m.endRun).exM = m.exM := rfl

@[simp] theorem endRun_mWb (m : CoreState x) :
    (m.endRun).mWb = m.mWb := rfl

@[simp] theorem endRun_fetchStopped (m : CoreState x) :
    (m.endRun).fetchStopped = true := rfl

@[simp] theorem endRun_status (m : CoreState x) :
    (m.endRun).status = .ended := rfl

@[simp] theorem endRun_instructionsIssued (m : CoreState x) :
    (m.endRun).instructionsIssued = m.instructionsIssued := rfl

@[simp] theorem endRun_instructionsCompleted (m : CoreState x) :
    (m.endRun).instructionsCompleted = m.instructionsCompleted := rfl

@[simp] theorem endRun_cycles (m : CoreState x) :
    (m.endRun).cycles = m.cycles := rfl

@[simp] theorem endRun_diag (m : CoreState x) :
    (m.endRun).diag = m.diag := rfl

/-! ## `stopFetch` -/

@[simp] theorem stopFetch_cfg (m : CoreState x) :
    (m.stopFetch).cfg = m.cfg := rfl

@[simp] theorem stopFetch_pc (m : CoreState x) :
    (m.stopFetch).pc = m.pc := rfl

@[simp] theorem stopFetch_regs (m : CoreState x) :
    (m.stopFetch).regs = m.regs := rfl

@[simp] theorem stopFetch_mem (m : CoreState x) :
    (m.stopFetch).mem = m.mem := rfl

@[simp] theorem stopFetch_ifId (m : CoreState x) :
    (m.stopFetch).ifId = m.ifId := rfl

@[simp] theorem stopFetch_idEx (m : CoreState x) :
    (m.stopFetch).idEx = m.idEx := rfl

@[simp] theorem stopFetch_exM (m : CoreState x) :
    (m.stopFetch).exM = m.exM := rfl

@[simp] theorem stopFetch_mWb (m : CoreState x) :
    (m.stopFetch).mWb = m.mWb := rfl

@[simp] theorem stopFetch_fetchStopped (m : CoreState x) :
    (m.stopFetch).fetchStopped = true := rfl

@[simp] theorem stopFetch_status (m : CoreState x) :
    (m.stopFetch).status = m.status := rfl

@[simp] theorem stopFetch_instructionsIssued (m : CoreState x) :
    (m.stopFetch).instructionsIssued = m.instructionsIssued := rfl

@[simp] theorem stopFetch_instructionsCompleted (m : CoreState x) :
    (m.stopFetch).instructionsCompleted = m.instructionsCompleted := rfl

@[simp] theorem stopFetch_cycles (m : CoreState x) :
    (m.stopFetch).cycles = m.cycles := rfl

@[simp] theorem stopFetch_diag (m : CoreState x) :
    (m.stopFetch).diag = m.diag := rfl

/-! ## `resetWith` -/

@[simp] theorem resetWith_cfg (m : CoreState x) (r : ResetValues x) :
    (m.resetWith r).cfg = m.cfg := rfl

@[simp] theorem resetWith_pc (m : CoreState x) (r : ResetValues x) :
    (m.resetWith r).pc = r.entryPc := rfl

@[simp] theorem resetWith_regs (m : CoreState x) (r : ResetValues x) :
    (m.resetWith r).regs = r.regs := rfl

@[simp] theorem resetWith_mem (m : CoreState x) (r : ResetValues x) :
    (m.resetWith r).mem = m.mem := rfl

@[simp] theorem resetWith_ifId (m : CoreState x) (r : ResetValues x) :
    (m.resetWith r).ifId = none := rfl

@[simp] theorem resetWith_idEx (m : CoreState x) (r : ResetValues x) :
    (m.resetWith r).idEx = none := rfl

@[simp] theorem resetWith_exM (m : CoreState x) (r : ResetValues x) :
    (m.resetWith r).exM = none := rfl

@[simp] theorem resetWith_mWb (m : CoreState x) (r : ResetValues x) :
    (m.resetWith r).mWb = none := rfl

@[simp] theorem resetWith_fetchStopped (m : CoreState x) (r : ResetValues x) :
    (m.resetWith r).fetchStopped = false := rfl

@[simp] theorem resetWith_status (m : CoreState x) (r : ResetValues x) :
    (m.resetWith r).status = .running := rfl

@[simp] theorem resetWith_instructionsIssued (m : CoreState x) (r : ResetValues x) :
    (m.resetWith r).instructionsIssued = 0 := rfl

@[simp] theorem resetWith_instructionsCompleted (m : CoreState x) (r : ResetValues x) :
    (m.resetWith r).instructionsCompleted = 0 := rfl

@[simp] theorem resetWith_cycles (m : CoreState x) (r : ResetValues x) :
    (m.resetWith r).cycles = 0 := rfl

@[simp] theorem resetWith_diag (m : CoreState x) (r : ResetValues x) :
    (m.resetWith r).diag = [] := rfl

/-! ## `withWordAtPc` -/

@[simp] theorem withWordAtPc_cfg (m : CoreState x) (w : InstrWord) :
    (m.withWordAtPc w).cfg =
      { Config.withRange m.cfg (alignDown4 m.pc).toNat 4 with pipelining := false } := rfl

@[simp] theorem withWordAtPc_pc (m : CoreState x) (w : InstrWord) :
    (m.withWordAtPc w).pc = alignDown4 m.pc := rfl

@[simp] theorem withWordAtPc_regs (m : CoreState x) (w : InstrWord) :
    (m.withWordAtPc w).regs = m.regs := rfl

@[simp] theorem withWordAtPc_mem (m : CoreState x) (w : InstrWord) :
    (m.withWordAtPc w).mem = placeWord m.mem (alignDown4 m.pc).toNat w := rfl

@[simp] theorem withWordAtPc_empty (m : CoreState x) (w : InstrWord) :
    (m.withWordAtPc w).empty = true := rfl

@[simp] theorem withWordAtPc_fetchStopped (m : CoreState x) (w : InstrWord) :
    (m.withWordAtPc w).fetchStopped = false := rfl

@[simp] theorem withWordAtPc_status (m : CoreState x) (w : InstrWord) :
    (m.withWordAtPc w).status = .running := rfl

/-- A placed word runs alone. -/
theorem withWordAtPc_betweenInstructions (m : CoreState x) (w : InstrWord) :
    (m.withWordAtPc w).betweenInstructions := ⟨rfl, fun _ => ⟨rfl, rfl⟩⟩

/-! ## `State.withFetchWord` -/

@[simp] theorem withFetchWord_xlen (s : State) (nbits w : Nat) :
    (s.withFetchWord nbits w).xlen = s.xlen := rfl

@[simp] theorem withFetchWord_core (s : State) (nbits w : Nat) :
    (s.withFetchWord nbits w).core = s.core.withWordAtPc (tableWord nbits w) := rfl

@[simp] theorem withFetchWord_call (s : State) (nbits w : Nat) :
    (s.withFetchWord nbits w).call = .run passageCycles := rfl

/-! ## `State.next` -/

@[simp] theorem State_next_eq (m : CoreState x) (c : HostCall) (f : CoreState x → CoreState x) :
    State.next { xlen := x, core := m, call := c } f = .next { xlen := x, core := f m } := rfl

end Sys2Proof.Machine
end

