-- ==== Sys2Proof/Laws/Memory.lean ====
section
/-!
SUPPORT. The byte store and its two ports: a read after a write, what a write leaves alone, that every
operation keeps the canonical form, and one lemma per port (rules R30 to R36, R41).
-/

namespace Sys2Proof.Machine

variable {x : XLen}

/-! ## One byte -/

theorem lookupCell_dropCell (mem : List Host.Cell) (a b : Nat) :
    lookupCell (dropCell mem a) b = if b = a then none else lookupCell mem b := by
  induction mem with
  | nil => simp [dropCell, lookupCell]
  | cons c rest ih =>
    obtain ⟨k, v⟩ := c
    simp only [dropCell]
    by_cases h : k = a
    · rw [if_pos h, ih]
      subst h
      by_cases hb : b = k
      · simp [hb]
      · simp [hb, lookupCell, Ne.symm hb]
    · rw [if_neg h]
      simp only [lookupCell, ih]
      by_cases hk : k = b
      · subst hk; simp [h]
      · simp [hk]

theorem lookupCell_setCell (mem : List Host.Cell) (a b : Nat) (v : Byte) :
    lookupCell (setCell mem a v) b = if b = a then some v else lookupCell mem b := by
  induction mem with
  | nil => simp [setCell, lookupCell, eq_comm]
  | cons c rest ih =>
    obtain ⟨k, w⟩ := c
    simp only [setCell]
    split
    · next h =>
      simp only [lookupCell]
      by_cases hb : b = a
      · simp [hb]
      · simp [hb, Ne.symm hb]
    · split
      · next h =>
        subst h
        simp only [lookupCell]
        by_cases hb : b = k
        · simp [hb]
        · simp [hb, Ne.symm hb]
      · next h =>
        simp only [lookupCell, ih]
        by_cases hk : k = b
        · subst hk; simp [h]
        · simp [hk]

/-- Reading any byte after one byte is written; the extent decides what exists. -/
theorem readByte_writeByte (cfg : Config) (mem : List Host.Cell) (a b : Nat) (v : Byte) :
    readByte cfg (writeByte mem a v) b =
      if b = a ∧ holdsAddr cfg a = true then some v else readByte cfg mem b := by
  unfold readByte writeByte
  by_cases hv : v = unlistedByte
  · rw [if_pos hv, lookupCell_dropCell]
    by_cases hb : b = a
    · subst hb; by_cases hh : holdsAddr cfg b = true <;> simp [hh, hv]
    · simp [hb]
  · rw [if_neg hv, lookupCell_setCell]
    by_cases hb : b = a
    · subst hb; by_cases hh : holdsAddr cfg b = true <;> simp [hh]
    · simp [hb]

theorem readByte_writeByte_of_ne (cfg : Config) (mem : List Host.Cell) {a b : Nat} (v : Byte)
    (h : b ≠ a) : readByte cfg (writeByte mem a v) b = readByte cfg mem b := by
  rw [readByte_writeByte]; simp [h]

theorem readByte_writeByte_self (cfg : Config) (mem : List Host.Cell) {a : Nat} (v : Byte)
    (h : holdsAddr cfg a = true) : readByte cfg (writeByte mem a v) a = some v := by
  rw [readByte_writeByte]; simp [h]

/-- A byte reads exactly where the extent holds it. -/
theorem readByte_isSome (cfg : Config) (mem : List Host.Cell) (a : Nat) :
    (readByte cfg mem a).isSome = holdsAddr cfg a := by
  unfold readByte; split <;> simp_all

/-! ## The canonical form -/

theorem cellsFrom_cons (cfg : Config) (bits lo k : Nat) (v : Byte) (rest : List Host.Cell) :
    cellsFrom cfg bits lo ((k, v) :: rest) = true ↔
      lo ≤ k ∧ k < 2 ^ bits ∧ holdsAddr cfg k = true ∧ v ≠ unlistedByte ∧
        cellsFrom cfg bits (k + 1) rest = true := by
  simp [cellsFrom, and_assoc]

theorem cellsFrom_mono (cfg : Config) (bits : Nat) {lo lo' : Nat} (mem : List Host.Cell)
    (hle : lo' ≤ lo) (h : cellsFrom cfg bits lo mem = true) : cellsFrom cfg bits lo' mem = true := by
  cases mem with
  | nil => rfl
  | cons c rest =>
    obtain ⟨k, v⟩ := c
    rw [cellsFrom_cons] at h ⊢
    exact ⟨by omega, h.2⟩

theorem cellsFrom_dropCell (cfg : Config) (bits a : Nat) (mem : List Host.Cell) :
    ∀ lo, cellsFrom cfg bits lo mem = true → cellsFrom cfg bits lo (dropCell mem a) = true := by
  induction mem with
  | nil => intro lo _; rfl
  | cons c rest ih =>
    obtain ⟨k, v⟩ := c
    intro lo h
    rw [cellsFrom_cons] at h
    obtain ⟨h1, h2, h3, h4, h5⟩ := h
    simp only [dropCell]
    split
    · exact cellsFrom_mono cfg bits _ (by omega) (ih _ h5)
    · rw [cellsFrom_cons]; exact ⟨h1, h2, h3, h4, ih _ h5⟩

theorem cellsFrom_setCell (cfg : Config) (bits a : Nat) (v : Byte) (mem : List Host.Cell)
    (ha : a < 2 ^ bits) (hh : holdsAddr cfg a = true) (hv : v ≠ unlistedByte) :
    ∀ lo, lo ≤ a → cellsFrom cfg bits lo mem = true →
      cellsFrom cfg bits lo (setCell mem a v) = true := by
  induction mem with
  | nil => intro lo hlo _; simp [setCell, cellsFrom, ha, hh, hv, hlo]
  | cons c rest ih =>
    obtain ⟨k, w⟩ := c
    intro lo hlo h
    rw [cellsFrom_cons] at h
    obtain ⟨h1, h2, h3, h4, h5⟩ := h
    simp only [setCell]
    split
    · next hak =>
      rw [cellsFrom_cons, cellsFrom_cons]
      exact ⟨hlo, ha, hh, hv, by omega, h2, h3, h4, h5⟩
    · split
      · next hk => subst hk; rw [cellsFrom_cons]; exact ⟨h1, h2, h3, hv, h5⟩
      · next hk =>
        rw [cellsFrom_cons]
        exact ⟨h1, h2, h3, h4, ih _ (by omega) h5⟩

/-- Writing a byte of the extent keeps the canonical form. -/
theorem memoryWf_writeByte (cfg : Config) (bits a : Nat) (v : Byte) (mem : List Host.Cell)
    (ha : a < 2 ^ bits) (hh : holdsAddr cfg a = true) (h : memoryWf cfg bits mem = true) :
    memoryWf cfg bits (writeByte mem a v) = true := by
  unfold memoryWf writeByte at *
  split
  · exact cellsFrom_dropCell cfg bits a mem 0 h
  · next hv => exact cellsFrom_setCell cfg bits a v mem ha hh hv 0 (Nat.zero_le _) h

/-- Two canonical memories that read the same everywhere are the same list: a canonical list's first
entry at or above `lo` is what lookups see. -/
theorem lookupCell_of_cellsFrom (cfg : Config) (bits : Nat) (mem : List Host.Cell) :
    ∀ lo, cellsFrom cfg bits lo mem = true → ∀ a, a < lo → lookupCell mem a = none := by
  induction mem with
  | nil => intro lo _ a _; rfl
  | cons c rest ih =>
    obtain ⟨k, v⟩ := c
    intro lo h a ha
    rw [cellsFrom_cons] at h
    have hk : k ≠ a := by omega
    simp only [lookupCell, if_neg hk]
    exact ih _ h.2.2.2.2 a (by omega)

/-! ## Addresses of an access -/

theorem byteAddr_eq (addr : Word x) (k : Nat) : byteAddr addr k = accessAddr addr k := by
  simp [byteAddr, accessAddr]

theorem accessAddr_lt (addr : Word x) (k : Nat) : accessAddr addr k < 2 ^ x.bits :=
  Nat.mod_lt _ (Nat.two_pow_pos _)

theorem two_pow_bits_ge (x : XLen) : 2 ^ 32 ≤ 2 ^ x.bits :=
  Nat.pow_le_pow_right (by decide) x.bits_ge

/-- The bytes of an access of at most `2^32` bytes have different addresses. -/
theorem accessAddr_inj (addr : Word x) {k j : Nat} (hk : k < 2 ^ 32) (hj : j < 2 ^ 32)
    (h : accessAddr addr k = accessAddr addr j) : k = j := by
  have hb := two_pow_bits_ge x
  have ha := addr.isLt
  unfold accessAddr at h
  have key : ∀ i, i < 2 ^ x.bits → (addr.toNat + i) % 2 ^ x.bits =
      if addr.toNat + i < 2 ^ x.bits then addr.toNat + i else addr.toNat + i - 2 ^ x.bits := by
    intro i hi
    split
    · next hlt => exact Nat.mod_eq_of_lt hlt
    · next hge =>
      rw [Nat.mod_eq_sub_mod (by omega), Nat.mod_eq_of_lt (by omega)]
  rw [key k (by omega), key j (by omega)] at h
  split at h <;> split at h <;> omega

/-! ## Runs of bytes -/

theorem rangeHeld_iff (cfg : Config) (addr : Word x) (n : Nat) :
    ∀ k, rangeHeld cfg addr k n = true ↔
      ∀ j, k ≤ j → j < k + n → holdsAddr cfg (accessAddr addr j) = true := by
  induction n with
  | zero => intro k; simp [rangeHeld]; omega
  | succ n ih =>
    intro k
    simp only [rangeHeld, Bool.and_eq_true, ih, byteAddr_eq]
    constructor
    · rintro ⟨h0, h1⟩ j hj hj'
      by_cases hjk : j = k
      · subst hjk; exact h0
      · exact h1 j (by omega) (by omega)
    · intro h
      exact ⟨h k (by omega) (by omega), fun j hj hj' => h j (by omega) (by omega)⟩

/-- Reading a byte after a run of bytes was written. -/
theorem readByte_writeBytes (cfg : Config) (mem : List Host.Cell) (addr v : Word x) (n : Nat) :
    ∀ k, k + n ≤ 2 ^ 32 →
      (∀ j, k ≤ j → j < k + n → holdsAddr cfg (accessAddr addr j) = true) →
      (∀ j, k ≤ j → j < k + n →
        readByte cfg (writeBytes mem addr v k n) (accessAddr addr j) = some (byteOf v j)) ∧
      (∀ a, (∀ j, k ≤ j → j < k + n → a ≠ accessAddr addr j) →
        readByte cfg (writeBytes mem addr v k n) a = readByte cfg mem a) := by
  induction n with
  | zero =>
    intro k _ _
    exact ⟨fun j hj hj' => absurd hj' (by omega), fun a _ => rfl⟩
  | succ n ih =>
    intro k hk hh
    obtain ⟨ih1, ih2⟩ := ih (k + 1) (by omega) (fun j hj hj' => hh j (by omega) (by omega))
    refine ⟨fun j hj hj' => ?_, fun a ha => ?_⟩
    · simp only [writeBytes, byteAddr_eq]
      by_cases hjk : j = k
      · subst hjk
        exact readByte_writeByte_self _ _ _ (hh j hj hj')
      · rw [readByte_writeByte_of_ne]
        · exact ih1 j (by omega) (by omega)
        · intro he
          exact hjk (accessAddr_inj addr (by omega) (by omega) he)
    · simp only [writeBytes, byteAddr_eq]
      rw [readByte_writeByte_of_ne _ _ _ (ha k (by omega) (by omega))]
      exact ih2 a (fun j hj hj' => ha j (by omega) (by omega))

/-- A run of bytes written inside the extent keeps the canonical form. -/
theorem memoryWf_writeBytes (cfg : Config) (mem : List Host.Cell) (addr v : Word x) (n : Nat)
    (h : memoryWf cfg x.bits mem = true) :
    ∀ k, (∀ j, k ≤ j → j < k + n → holdsAddr cfg (accessAddr addr j) = true) →
      memoryWf cfg x.bits (writeBytes mem addr v k n) = true := by
  induction n with
  | zero => intro k _; exact h
  | succ n ih =>
    intro k hh
    simp only [writeBytes, byteAddr_eq]
    exact memoryWf_writeByte cfg x.bits _ _ _ (accessAddr_lt addr k) (hh k (by omega) (by omega))
      (ih (k + 1) (fun j hj hj' => hh j (by omega) (by omega)))

/-- Reading a run of bytes, each given. -/
theorem readBytes_eq (cfg : Config) (mem : List Host.Cell) (addr : Word x) (byte : Nat → Byte)
    (n : Nat) :
    ∀ k, (∀ j, k ≤ j → j < k + n → readByte cfg mem (accessAddr addr j) = some (byte j)) →
      readBytes cfg mem addr k n = some ((List.range' k n).map byte) := by
  induction n with
  | zero => intro k _; rfl
  | succ n ih =>
    intro k h
    simp only [readBytes, byteAddr_eq, h k (by omega) (by omega),
      ih (k + 1) (fun j hj hj' => h j (by omega) (by omega)), List.range'_succ, List.map_cons]

/-- A run of bytes reads exactly where the extent holds all of it. -/
theorem readBytes_isSome (cfg : Config) (mem : List Host.Cell) (addr : Word x) (n : Nat) :
    ∀ k, (readBytes cfg mem addr k n).isSome = rangeHeld cfg addr k n := by
  induction n with
  | zero => intro k; rfl
  | succ n ih =>
    intro k
    have h1 := readByte_isSome cfg mem (byteAddr addr k)
    have h2 := ih (k + 1)
    simp only [readBytes, rangeHeld]
    cases hb : readByte cfg mem (byteAddr addr k) <;>
      cases hr : readBytes cfg mem addr (k + 1) n <;> simp_all

/-! ## The data port -/

theorem alignmentOk_iff (cfg : Config) (addr : Word x) (n : Nat) :
    alignmentOk cfg addr n = true ↔ (cfg.misaligned = .fault → addr.toNat % n = 0) := by
  unfold alignmentOk; cases cfg.misaligned <;> simp

/-- `accepted` is the two parts of the memory's check. -/
theorem accepted_iff (m : CoreState x) (addr : Word x) (n : Nat) :
    accepted m addr n ↔ (alignmentOk m.cfg addr n && rangeHeld m.cfg addr 0 n) = true := by
  rw [Bool.and_eq_true, alignmentOk_iff, rangeHeld_iff]
  simp [accepted]

/-- The data memory's answer to an access (rules R31, R41, R253). -/
theorem dmemCheck_cases (cfg : Config) (addr : Word x) (n : Nat) :
    (n ∉ dmemSizes x ∧ dmemCheck cfg addr n = .error (.invalidAccessSize addr n)) ∨
    (n ∈ dmemSizes x ∧ (alignmentOk cfg addr n && rangeHeld cfg addr 0 n) = true ∧
      dmemCheck cfg addr n = .ok ()) ∨
    (n ∈ dmemSizes x ∧ (alignmentOk cfg addr n && rangeHeld cfg addr 0 n) = false ∧
      dmemCheck cfg addr n = .error (.outOfRange addr)) := by
  unfold dmemCheck
  by_cases hn : n ∈ dmemSizes x
  · cases hc : (alignmentOk cfg addr n && rangeHeld cfg addr 0 n) <;> simp [hn]
  · simp [hn]

/-- Every byte of an accepted access is in the extent. -/
theorem dmemCheck_ok_held {cfg : Config} {addr : Word x} {n : Nat}
    (h : dmemCheck cfg addr n = .ok ()) :
    ∀ k, k < n → holdsAddr cfg (accessAddr addr k) = true := by
  rcases dmemCheck_cases cfg addr n with ⟨_, hc⟩ | ⟨_, hc, _⟩ | ⟨_, _, hc⟩
  · simp [hc] at h
  · rw [Bool.and_eq_true, rangeHeld_iff] at hc
    intro k hk
    exact hc.2 k (Nat.zero_le _) (by omega)
  · simp [hc] at h

/-- A read fails exactly as the check does, and otherwise gives the widened value of its bytes. -/
theorem dmemRead_eq (cfg : Config) (mem : List Host.Cell) (addr : Word x) (n : Nat) (s : Bool) :
    (∃ c, dmemCheck cfg addr n = .error c ∧ dmemRead cfg mem addr n s = .error c) ∨
    (dmemCheck cfg addr n = .ok () ∧ ∃ bytes, readBytes cfg mem addr 0 n = some bytes ∧
      dmemRead cfg mem addr n s = .ok (widen x n s (littleEndian bytes))) := by
  unfold dmemRead
  cases hc : dmemCheck cfg addr n with
  | error c => exact .inl ⟨c, rfl, rfl⟩
  | ok u =>
    right
    have hs : (readBytes cfg mem addr 0 n).isSome = true := by
      rw [readBytes_isSome, rangeHeld_iff]
      intro j _ hj
      exact dmemCheck_ok_held hc j (by omega)
    obtain ⟨bytes, hb⟩ := Option.isSome_iff_exists.mp hs
    exact ⟨rfl, bytes, hb, by simp [hb]⟩

/-! ## Every memory operation keeps the canonical form -/

/-- `MemWrite` of an access the memory accepts keeps it. -/
theorem memoryWf_dmemWrite (cfg : Config) (mem : List Host.Cell) (addr v : Word x) (n : Nat)
    (hc : dmemCheck cfg addr n = .ok ()) (h : memoryWf cfg x.bits mem = true) :
    memoryWf cfg x.bits (dmemWrite mem addr n v) = true :=
  memoryWf_writeBytes cfg mem addr v n h 0 (fun j _ hj => dmemCheck_ok_held hc j (by omega))

/-- Placing a word in held addresses keeps it. -/
theorem memoryWf_placeWord (cfg : Config) (bits a : Nat) (w : InstrWord) (mem : List Host.Cell)
    (ha : a + 3 < 2 ^ bits) (hh : ∀ k, k < 4 → holdsAddr cfg (a + k) = true)
    (h : memoryWf cfg bits mem = true) : memoryWf cfg bits (placeWord mem a w) = true := by
  unfold placeWord
  exact memoryWf_writeByte _ _ _ _ _ ha (hh 3 (by omega))
    (memoryWf_writeByte _ _ _ _ _ (by omega) (hh 2 (by omega))
      (memoryWf_writeByte _ _ _ _ _ (by omega) (hh 1 (by omega))
        (memoryWf_writeByte _ _ _ _ _ (by omega) (hh 0 (by omega)) h)))

/-- A larger extent keeps it. -/
theorem memoryWf_mono {cfg cfg' : Config} (bits : Nat) (mem : List Host.Cell)
    (hm : ∀ a, holdsAddr cfg a = true → holdsAddr cfg' a = true)
    (h : memoryWf cfg bits mem = true) : memoryWf cfg' bits mem = true := by
  unfold memoryWf at *
  generalize 0 = lo at h ⊢
  induction mem generalizing lo with
  | nil => rfl
  | cons c rest ih =>
    obtain ⟨k, v⟩ := c
    rw [cellsFrom_cons] at h ⊢
    exact ⟨h.1, h.2.1, hm k h.2.2.1, h.2.2.2.1, ih _ h.2.2.2.2⟩

/-- The extent with a range added holds what it held, and the range. -/
theorem holdsAddr_withRange (cfg : Config) (base size : Nat) :
    (∀ a, holdsAddr cfg a = true → holdsAddr (Config.withRange cfg base size) a = true) ∧
      ∀ k, k < size → holdsAddr (Config.withRange cfg base size) (base + k) = true := by
  unfold Config.withRange
  split
  · next h =>
    rw [List.all_eq_true] at h
    exact ⟨fun _ ha => ha, fun k hk => h k (List.mem_range.2 hk)⟩
  · constructor
    · intro a ha
      simp only [holdsAddr, List.any_append] at ha ⊢
      simp [ha]
    · intro k hk
      simp only [holdsAddr, List.any_append]
      simp [Region.has, hk]

/-- Placing a word where Fetch reads keeps the canonical form (log entry 14). -/
theorem memoryWf_withWordAtPc (m : CoreState x) (w : InstrWord) (h : Memory.wf m = true) :
    Memory.wf (m.withWordAtPc w) = true := by
  have hp : (alignDown4 m.pc).toNat + 3 < 2 ^ x.bits := by
    have h2 : (alignDown4 m.pc).getLsbD 0 = false ∧ (alignDown4 m.pc).getLsbD 1 = false := by
      have hb := x.bits_ge
      simp only [alignDown4, BitVec.getLsbD_and, BitVec.getLsbD_not, BitVec.getLsbD_ofNat]
      have h0 : Nat.testBit 3 0 = true := rfl
      have h1 : Nat.testBit 3 1 = true := rfl
      simp [h0, h1, show 0 < x.bits by omega, show 1 < x.bits by omega]
    have h4 : (alignDown4 m.pc).toNat % 4 = 0 := by
      simp only [BitVec.getLsbD, Nat.testBit, Nat.shiftRight_zero] at h2
      simp at h2
      omega
    have hl := (alignDown4 m.pc).isLt
    have hb : 2 ^ x.bits % 4 = 0 := by cases x <;> decide
    omega
  obtain ⟨h1, h2⟩ := holdsAddr_withRange m.cfg (alignDown4 m.pc).toNat 4
  exact memoryWf_placeWord _ _ _ _ _ hp (fun k hk => h2 k hk)
    (memoryWf_mono (cfg' := { Config.withRange m.cfg (alignDown4 m.pc).toNat 4 with pipelining := false })
      _ _ (fun a ha => h1 a ha) h)

/-- Reset memory is in canonical form. -/
theorem memoryWf_reset : Memory.wf State.reset.core = true := rfl

/-! ## The values of accesses -/

/-- The value of bytes is the sum of them in their places (rule R30). -/
theorem littleEndian_range' (byte : Nat → Byte) (n : Nat) :
    ∀ k, littleEndian ((List.range' k n).map byte) =
      ∑ i ∈ Finset.range n, (byte (k + i)).toNat * 256 ^ i := by
  induction n with
  | zero => intro k; simp [littleEndian]
  | succ n ih =>
    intro k
    rw [List.range'_succ, List.map_cons, littleEndian, ih, Finset.sum_range_succ', Finset.mul_sum,
      Nat.add_zero, pow_zero, mul_one, add_comm]
    congr 1
    refine Finset.sum_congr rfl fun i _ => ?_
    rw [show k + 1 + i = k + (i + 1) by omega, pow_succ]
    ring

/-- `n` bytes make a number below `256^n`. -/
theorem littleEndian_lt (bytes : List Byte) : littleEndian bytes < 256 ^ bytes.length := by
  induction bytes with
  | nil => simp [littleEndian]
  | cons b rest ih =>
    have := b.isLt
    rw [littleEndian, List.length_cons, pow_succ]
    omega

/-- Zero-extension keeps the number (rule R34). -/
theorem widen_unsigned {n v : Nat} (hv : v < 2 ^ (8 * n)) :
    widen x n false v = BitVec.ofNat x.bits v := by
  apply BitVec.eq_of_toNat_eq
  simp [widen, Nat.mod_eq_of_lt hv]

/-- Sign-extension takes the number as a two's-complement one (rule R34). -/
theorem widen_signed {n v : Nat} (hv : v < 2 ^ (8 * n)) :
    widen x n true v =
      BitVec.ofInt x.bits (if 2 * v < 2 ^ (8 * n) then (v : Int) else v - (2 ^ (8 * n) : Nat)) := by
  rw [widen, if_pos rfl, BitVec.signExtend, BitVec.toInt_eq_toNat_cond, BitVec.toNat_ofNat,
    Nat.mod_eq_of_lt hv]

end Sys2Proof.Machine
end

