-- ==== Sys2Proof/Laws/Registers.lean ====
section
/-!
SUPPORT. The register file: what a read gives after a write (rules R10, R11).
-/

namespace Sys2Proof.Machine

variable {x : XLen}

/-- A read depends on the register file alone. -/
theorem readReg_congr {m t : CoreState x} (h : t.regs = m.regs) (r : RegIndex) :
    t.readReg r = m.readReg r := by
  simp [CoreState.readReg, h]

/-- A write depends on the register file alone. -/
theorem writeReg_regs_congr {m t : CoreState x} (h : t.regs = m.regs) (r : RegIndex) (v : Word x) :
    (t.writeReg r v).regs = (m.writeReg r v).regs := by
  unfold CoreState.writeReg; split <;> simp [h]

@[simp] theorem readReg_zero (m : CoreState x) : m.readReg 0#5 = 0#x.bits := by
  simp [CoreState.readReg]

@[simp] theorem writeReg_zero (m : CoreState x) (v : Word x) : m.writeReg 0#5 v = m := by
  simp [CoreState.writeReg]

/-- A register reads back what was written; `x[0]` reads 0. -/
theorem readReg_writeReg_self (m : CoreState x) (r : RegIndex) (v : Word x) :
    (m.writeReg r v).readReg r = if r = 0#5 then 0#x.bits else v := by
  unfold CoreState.readReg CoreState.writeReg
  split <;> simp

/-- Every other register reads as before. -/
theorem readReg_writeReg_of_ne (m : CoreState x) {r r' : RegIndex} (v : Word x) (h : r' ≠ r) :
    (m.writeReg r v).readReg r' = m.readReg r' := by
  unfold CoreState.readReg CoreState.writeReg
  split
  · rfl
  · split
    · rfl
    · have hne : r.toNat ≠ r'.toNat := fun he => h (BitVec.eq_of_toNat_eq he.symm)
      simp [hne]

/-- Reading any register after a write. -/
theorem readReg_writeReg (m : CoreState x) (r r' : RegIndex) (v : Word x) :
    (m.writeReg r v).readReg r' =
      if r' = r then (if r = 0#5 then 0#x.bits else v) else m.readReg r' := by
  split
  · next h => subst h; exact readReg_writeReg_self m _ v
  · next h => exact readReg_writeReg_of_ne m v h

/-- The slot of `x[0]` is never written. -/
@[simp] theorem writeReg_regs_zero (m : CoreState x) (r : RegIndex) (v : Word x) :
    (m.writeReg r v).regs[0] = m.regs[0] := by
  unfold CoreState.writeReg
  split
  · rfl
  · next h =>
    have hne : r.toNat ≠ 0 := fun he => h (BitVec.eq_of_toNat_eq he)
    simp [hne]

@[simp] theorem pass_readReg (m : CoreState x) (i : Instr) (r : RegIndex) :
    (m.pass i).readReg r = m.readReg r := rfl

@[simp] theorem passTo_readReg (m : CoreState x) (i : Instr) (t : Word x) (r : RegIndex) :
    (m.passTo i t).readReg r = m.readReg r := rfl

@[simp] theorem passBranch_readReg (m : CoreState x) (i : Instr) (b : Bool) (t : Word x)
    (r : RegIndex) : (m.passBranch i b t).readReg r = m.readReg r :=
  readReg_congr (passBranch_regs m i b t) r

@[simp] theorem stopFetch_readReg (m : CoreState x) (r : RegIndex) :
    m.stopFetch.readReg r = m.readReg r := rfl

end Sys2Proof.Machine
end

