-- ==== Sys2Proof/Laws/Passage.lean ====
section
/-!
SUPPORT. What the shared forms of a meaning do: a passage that writes a register, one that only moves
`pc`, one that stores, one that is refused by the memory.
-/

namespace Sys2Proof.Machine

variable {x : XLen}

/-- A passage changes what every passage changes. -/
theorem passed_pass (m : CoreState x) (i : Instr) : Passed m (m.pass i) i :=
  ⟨rfl, rfl, rfl, rfl, rfl, rfl, rfl, rfl, rfl, rfl, rfl⟩

theorem passed_passTo (m : CoreState x) (i : Instr) (t : Word x) : Passed m (m.passTo i t) i :=
  ⟨rfl, rfl, rfl, rfl, rfl, rfl, rfl, rfl, rfl, rfl, rfl⟩

/-- A register write after a passage keeps it one. -/
theorem passed_writeReg {m t : CoreState x} {i : Instr} (h : Passed m t i) (r : RegIndex)
    (v : Word x) : Passed m (t.writeReg r v) i where
  cfg := by rw [writeReg_cfg, h.cfg]
  ifId := by rw [writeReg_ifId, h.ifId]
  idEx := by rw [writeReg_idEx, h.idEx]
  exM := by rw [writeReg_exM, h.exM]
  mWb := by rw [writeReg_mWb, h.mWb]
  fetchStopped := by rw [writeReg_fetchStopped, h.fetchStopped]
  status := by rw [writeReg_status, h.status]
  issued := by rw [writeReg_instructionsIssued, h.issued]
  completed := by rw [writeReg_instructionsCompleted, h.completed]
  cycles := by rw [writeReg_cycles, h.cycles]
  diag := by rw [writeReg_diag, h.diag]

theorem sameBytes_of_mem {m t : CoreState x} (hc : t.cfg = m.cfg) (hm : t.mem = m.mem) :
    sameBytes m t := by
  intro a; rw [hc, hm]

/-- A passage `t` that left registers and memory alone, followed by one register write. -/
theorem writesRegister_of_passed {m t : CoreState x} {i : Instr} {rd : RegIndex} {v v' pc' : Word x}
    (hv : v = v') (he : exec i { xlen := x, core := m } = .next { xlen := x, core := t.writeReg rd v })
    (hp : Passed m t i) (hr : t.regs = m.regs) (hm : t.mem = m.mem) (hpc : t.pc = pc') :
    writesRegister m i rd v' pc' := by
  subst hv
  refine ⟨_, he, readReg_writeReg_self t rd v, by rw [writeReg_pc, hpc], fun r hne => ?_, ?_, ?_,
    passed_writeReg hp rd v⟩
  · rw [readReg_writeReg_of_ne t v hne, readReg_congr hr]
  · exact sameBytes_of_mem (by rw [writeReg_cfg, hp.cfg]) (by rw [writeReg_mem, hm])
  · rw [writeReg_mem, hm]

/-- The meaning of an instruction that writes one register and goes on to the next. -/
theorem writesRegister_of_pass {m : CoreState x} {i : Instr} {rd : RegIndex} {v v' : Word x}
    (hv : v = v')
    (he : exec i { xlen := x, core := m } =
      .next { xlen := x, core := (m.pass i).writeReg rd v }) :
    writesRegister m i rd v' (m.pc + 4#x.bits) :=
  writesRegister_of_passed hv he (passed_pass m i) rfl rfl rfl

/-- The meaning of a jump: one register written, control to a target. -/
theorem writesRegister_of_passTo {m : CoreState x} {i : Instr} {rd : RegIndex} {v v' t t' : Word x}
    (hv : v = v') (ht : t = t')
    (he : exec i { xlen := x, core := m } =
      .next { xlen := x, core := (m.passTo i t).writeReg rd v }) :
    writesRegister m i rd v' t' :=
  writesRegister_of_passed hv he (passed_passTo m i t) rfl rfl ht

/-- The meaning of an instruction without an effect of its own. -/
theorem onlyMovesPc_of_pass {m : CoreState x} {i : Instr}
    (he : exec i { xlen := x, core := m } = .next { xlen := x, core := m.pass i }) :
    onlyMovesPc m i (m.pc + 4#x.bits) :=
  ⟨_, he, rfl, fun _ => rfl, fun _ => rfl, rfl, passed_pass m i⟩

/-- The meaning of a conditional branch (rule R230). -/
theorem onlyMovesPc_of_passBranch {m : CoreState x} {i : Instr} {taken : Bool} {t : Word x}
    (he : exec i { xlen := x, core := m } =
      .next { xlen := x, core := m.passBranch i taken t }) :
    onlyMovesPc m i (if taken then t else m.pc + 4#x.bits) := by
  cases taken
  · exact onlyMovesPc_of_pass he
  · exact ⟨_, he, rfl, fun _ => rfl, fun _ => rfl, rfl, passed_passTo m i t⟩

/-- The meaning of a load where the memory accepts the access (rule R210). -/
theorem load_ok {m : CoreState x} {i : Instr} {n : Nat} {s : Bool} {rd rs1 : RegIndex}
    {imm : BitVec 12} {v : Word x}
    (h : dmemRead m.cfg m.mem (m.effectiveAddress rs1 imm) n s = .ok v) :
    m.load i n s rd rs1 imm = (m.pass i).writeReg rd v := by
  unfold CoreState.load; simp only [h]

/-- The meaning of a load or store that the memory refuses (rules R210, R218, R254). -/
theorem failsOutOfRange_of_abandon {m : CoreState x} {i : Instr} {ea sd : Word x}
    {ctrl : ControlSignals x}
    (he : exec i { xlen := x, core := m } =
      .next { xlen := x, core := m.abandonInMemory i ea sd ctrl (.outOfRange ea) }) :
    failsOutOfRange m i ea :=
  ⟨_, he, rfl, rfl, rfl, rfl, rfl⟩

/-- A load that the memory refuses. -/
theorem load_error {m : CoreState x} {i : Instr} {n : Nat} {s : Bool} {rd rs1 : RegIndex}
    {imm : BitVec 12} {c : Condition x}
    (h : dmemCheck m.cfg (m.effectiveAddress rs1 imm) n = .error c) :
    m.load i n s rd rs1 imm =
      m.abandonInMemory i (m.effectiveAddress rs1 imm) 0#x.bits loadSignals c := by
  unfold CoreState.load dmemRead; simp only [h]

/-- A store that the memory accepts (rule R218). -/
theorem store_ok {m : CoreState x} {i : Instr} {n : Nat} {rs2 rs1 : RegIndex} {imm : BitVec 12}
    (h : dmemCheck m.cfg (m.effectiveAddress rs1 imm) n = .ok ()) :
    m.store i n rs2 rs1 imm =
      { m.pass i with mem := dmemWrite m.mem (m.effectiveAddress rs1 imm) n (m.readReg rs2) } := by
  unfold CoreState.store; simp only [h]

/-- A store that the memory refuses. -/
theorem store_error {m : CoreState x} {i : Instr} {n : Nat} {rs2 rs1 : RegIndex} {imm : BitVec 12}
    {c : Condition x} (h : dmemCheck m.cfg (m.effectiveAddress rs1 imm) n = .error c) :
    m.store i n rs2 rs1 imm =
      m.abandonInMemory i (m.effectiveAddress rs1 imm) (m.readReg rs2) storeSignals c := by
  unfold CoreState.store; simp only [h]

/-- The meaning of an accepted store: its bytes and no others (rules R35, R218). -/
theorem storesBytes_of_store {m : CoreState x} {i : Instr} {n : Nat} {rs2 rs1 : RegIndex}
    {imm : BitVec 12} (hn : n ≤ 8)
    (h : dmemCheck m.cfg (m.effectiveAddress rs1 imm) n = .ok ())
    (he : exec i { xlen := x, core := m } = .next { xlen := x, core := m.store i n rs2 rs1 imm }) :
    storesBytes m i (m.effectiveAddress rs1 imm) n (m.readReg rs2) := by
  rw [store_ok h] at he
  have hh := dmemCheck_ok_held h
  obtain ⟨h1, h2⟩ := readByte_writeBytes m.cfg m.mem (m.effectiveAddress rs1 imm) (m.readReg rs2) n 0
    (by omega) (fun j _ hj => hh j (by omega))
  refine ⟨_, he, fun k hk => ?_, fun a ha => ?_, rfl, fun _ => rfl, ?_⟩
  · exact h1 k (Nat.zero_le _) (by omega)
  · exact h2 a (fun j _ hj => ha j (by omega))
  · exact ⟨rfl, rfl, rfl, rfl, rfl, rfl, rfl, rfl, rfl, rfl, rfl⟩

/-- An access of a legal size is accepted or refused as `accepted` says (rules R31, R41, R254). -/
theorem dmemCheck_of_accepted {m : CoreState x} {addr : Word x} {n : Nat} (hn : n ∈ dmemSizes x) :
    (accepted m addr n → dmemCheck m.cfg addr n = .ok ()) ∧
      (¬ accepted m addr n → dmemCheck m.cfg addr n = .error (.outOfRange addr)) := by
  rw [accepted_iff]
  rcases dmemCheck_cases m.cfg addr n with ⟨h, _⟩ | ⟨_, hc, hd⟩ | ⟨_, hc, hd⟩
  · exact absurd hn h
  · exact ⟨fun _ => hd, fun h => absurd hc h⟩
  · exact ⟨fun h => by rw [hc] at h; simp at h, fun _ => hd⟩

/-! ## What every meaning keeps -/

/-- The parameters and the canonical form of memory. -/
def keepsMemoryForm (m t : CoreState x) : Prop :=
  t.cfg = m.cfg ∧ (Memory.wf m = true → Memory.wf t = true)

theorem keepsMemoryForm_of_mem {m t : CoreState x} (hc : t.cfg = m.cfg) (hm : t.mem = m.mem) :
    keepsMemoryForm m t :=
  ⟨hc, fun h => by rw [Memory.wf, hc, hm]; exact h⟩

theorem keepsMemoryForm_load (m : CoreState x) (i : Instr) (n : Nat) (s : Bool) (rd rs1 : RegIndex)
    (imm : BitVec 12) : keepsMemoryForm m (m.load i n s rd rs1 imm) := by
  unfold CoreState.load
  dsimp only
  split
  · exact keepsMemoryForm_of_mem (writeReg_cfg _ _ _) (writeReg_mem _ _ _)
  · exact keepsMemoryForm_of_mem rfl rfl

theorem keepsMemoryForm_store (m : CoreState x) (i : Instr) (n : Nat) (rs2 rs1 : RegIndex)
    (imm : BitVec 12) : keepsMemoryForm m (m.store i n rs2 rs1 imm) := by
  unfold CoreState.store
  dsimp only
  split
  · next h => exact ⟨rfl, fun hw => memoryWf_dmemWrite _ _ _ _ _ h hw⟩
  · exact keepsMemoryForm_of_mem rfl rfl

theorem keepsMemoryForm_writeReg (m : CoreState x) (t : CoreState x) (r : RegIndex) (v : Word x)
    (h : keepsMemoryForm m t) : keepsMemoryForm m (t.writeReg r v) :=
  ⟨by rw [writeReg_cfg, h.1], fun hw => by rw [Memory.wf, writeReg_cfg, writeReg_mem]; exact h.2 hw⟩

/-- Every meaning answers a next state, with the parameters kept and memory in canonical form. -/
theorem exec_next (i : Instr) (m : CoreState x) :
    ∃ t : CoreState x, exec i { xlen := x, core := m } = .next { xlen := x, core := t } ∧
      keepsMemoryForm m t := by
  have hp : keepsMemoryForm m (m.pass i) := keepsMemoryForm_of_mem rfl rfl
  have hb : ∀ b t, keepsMemoryForm m (m.passBranch i b t) := fun b t =>
    keepsMemoryForm_of_mem (passBranch_cfg _ _ _ _) (passBranch_mem _ _ _ _)
  cases i
  case lwu | ld =>
    cases x
    · exact ⟨_, rfl, hp⟩
    · exact ⟨_, rfl, keepsMemoryForm_load _ _ _ _ _ _ _⟩
  case sd =>
    cases x
    · exact ⟨_, rfl, hp⟩
    · exact ⟨_, rfl, keepsMemoryForm_store _ _ _ _ _ _⟩
  case slli rd rs1 s | srli rd rs1 s | srai rd rs1 s =>
    refine ⟨_, rfl, ?_⟩
    dsimp only
    split
    · exact keepsMemoryForm_writeReg _ _ _ _ hp
    · exact hp
  all_goals first
    | exact ⟨_, rfl, hb _ _⟩
    | exact ⟨_, rfl, keepsMemoryForm_writeReg _ _ _ _ hp⟩
    | exact ⟨_, rfl, keepsMemoryForm_load _ _ _ _ _ _ _⟩
    | exact ⟨_, rfl, keepsMemoryForm_store _ _ _ _ _ _⟩

end Sys2Proof.Machine
end

