-- ==== Sys2Proof/Laws/Table.lean ====
section
/-!
SUPPORT. What a mask of the opcode table keeps of a word (rule R63): its opcode, and its function codes.
-/

namespace Sys2Proof

/-- The upper six bits, which select a shift-immediate at `XLEN = 64` (rule R61). -/
def top6Of (w : InstrWord) : BitVec 6 := w.extractLsb' 26 6

/-- `funct3` and the opcode in their places, every other bit 0. -/
def codeWord3 (f3 : BitVec 3) (op : BitVec 7) : InstrWord :=
  f3.setWidth 32 <<< 12 ||| op.setWidth 32

/-- `funct7`, `funct3` and the opcode in their places. -/
def codeWord7 (f7 : BitVec 7) (f3 : BitVec 3) (op : BitVec 7) : InstrWord :=
  f7.setWidth 32 <<< 25 ||| codeWord3 f3 op

/-- The upper six bits, `funct3` and the opcode in their places. -/
def codeWord6 (f6 : BitVec 6) (f3 : BitVec 3) (op : BitVec 7) : InstrWord :=
  f6.setWidth 32 <<< 26 ||| codeWord3 f3 op

theorem and_opcodeMask (w : InstrWord) (op : BitVec 7) :
    w &&& 0x0000007F#32 = op.setWidth 32 ↔ opcodeOf w = op := by
  have h1 : w &&& 0x0000007F#32 = (opcodeOf w).setWidth 32 := by
    apply BitVec.eq_of_getLsbD_eq; intro i hi; interval_cases i <;> simp [opcodeOf]
  rw [h1]
  constructor
  · intro h
    have := congrArg (fun v : BitVec 32 => v.setWidth 7) h
    simpa using this
  · rintro rfl; rfl

theorem fields_codeWord3 (f3 : BitVec 3) (op : BitVec 7) :
    funct3Of (codeWord3 f3 op) = f3 ∧ opcodeOf (codeWord3 f3 op) = op := by
  constructor <;> apply BitVec.eq_of_getLsbD_eq <;> intro i hi <;> interval_cases i <;>
    simp [codeWord3, funct3Of, opcodeOf]

theorem and_funct3Mask (w : InstrWord) (f3 : BitVec 3) (op : BitVec 7) :
    w &&& 0x0000707F#32 = codeWord3 f3 op ↔ opcodeOf w = op ∧ funct3Of w = f3 := by
  have h1 : w &&& 0x0000707F#32 = codeWord3 (funct3Of w) (opcodeOf w) := by
    apply BitVec.eq_of_getLsbD_eq; intro i hi
    interval_cases i <;> simp [codeWord3, funct3Of, opcodeOf]
  rw [h1]
  constructor
  · intro h
    have e1 := congrArg funct3Of h
    have e2 := congrArg opcodeOf h
    rw [(fields_codeWord3 _ _).1, (fields_codeWord3 _ _).1] at e1
    rw [(fields_codeWord3 _ _).2, (fields_codeWord3 _ _).2] at e2
    exact ⟨e2, e1⟩
  · rintro ⟨rfl, rfl⟩; rfl

theorem fields_codeWord7 (f7 : BitVec 7) (f3 : BitVec 3) (op : BitVec 7) :
    funct7Of (codeWord7 f7 f3 op) = f7 ∧ funct3Of (codeWord7 f7 f3 op) = f3 ∧
      opcodeOf (codeWord7 f7 f3 op) = op := by
  refine ⟨?_, ?_, ?_⟩ <;> apply BitVec.eq_of_getLsbD_eq <;> intro i hi <;> interval_cases i <;>
    simp [codeWord7, codeWord3, funct7Of, funct3Of, opcodeOf]

theorem and_funct7Mask (w : InstrWord) (f7 : BitVec 7) (f3 : BitVec 3) (op : BitVec 7) :
    w &&& 0xFE00707F#32 = codeWord7 f7 f3 op ↔
      opcodeOf w = op ∧ funct3Of w = f3 ∧ funct7Of w = f7 := by
  have h1 : w &&& 0xFE00707F#32 = codeWord7 (funct7Of w) (funct3Of w) (opcodeOf w) := by
    apply BitVec.eq_of_getLsbD_eq; intro i hi
    interval_cases i <;> simp [codeWord7, codeWord3, funct7Of, funct3Of, opcodeOf]
  rw [h1]
  constructor
  · intro h
    have e1 := congrArg funct7Of h
    have e2 := congrArg funct3Of h
    have e3 := congrArg opcodeOf h
    rw [(fields_codeWord7 _ _ _).1, (fields_codeWord7 _ _ _).1] at e1
    rw [(fields_codeWord7 _ _ _).2.1, (fields_codeWord7 _ _ _).2.1] at e2
    rw [(fields_codeWord7 _ _ _).2.2, (fields_codeWord7 _ _ _).2.2] at e3
    exact ⟨e3, e2, e1⟩
  · rintro ⟨rfl, rfl, rfl⟩; rfl

theorem fields_codeWord6 (f6 : BitVec 6) (f3 : BitVec 3) (op : BitVec 7) :
    top6Of (codeWord6 f6 f3 op) = f6 ∧ funct3Of (codeWord6 f6 f3 op) = f3 ∧
      opcodeOf (codeWord6 f6 f3 op) = op := by
  refine ⟨?_, ?_, ?_⟩ <;> apply BitVec.eq_of_getLsbD_eq <;> intro i hi <;> interval_cases i <;>
    simp [codeWord6, codeWord3, top6Of, funct3Of, opcodeOf]

theorem and_top6Mask (w : InstrWord) (f6 : BitVec 6) (f3 : BitVec 3) (op : BitVec 7) :
    w &&& 0xFC00707F#32 = codeWord6 f6 f3 op ↔
      opcodeOf w = op ∧ funct3Of w = f3 ∧ top6Of w = f6 := by
  have h1 : w &&& 0xFC00707F#32 = codeWord6 (top6Of w) (funct3Of w) (opcodeOf w) := by
    apply BitVec.eq_of_getLsbD_eq; intro i hi
    interval_cases i <;> simp [codeWord6, codeWord3, top6Of, funct3Of, opcodeOf]
  rw [h1]
  constructor
  · intro h
    have e1 := congrArg top6Of h
    have e2 := congrArg funct3Of h
    have e3 := congrArg opcodeOf h
    rw [(fields_codeWord6 _ _ _).1, (fields_codeWord6 _ _ _).1] at e1
    rw [(fields_codeWord6 _ _ _).2.1, (fields_codeWord6 _ _ _).2.1] at e2
    rw [(fields_codeWord6 _ _ _).2.2, (fields_codeWord6 _ _ _).2.2] at e3
    exact ⟨e3, e2, e1⟩
  · rintro ⟨rfl, rfl, rfl⟩; rfl

/-! ## The four masks of the table -/

theorem owns_opcode (mn : String) {v : InstrWord} (op : BitVec 7) (hv : v = op.setWidth 32)
    (w : InstrWord) :
    (TableRow.mk mn 0x0000007F#32 v).owns w = true ↔ opcodeOf w = op := by
  rw [TableRow.owns, beq_iff_eq, hv, and_opcodeMask]

theorem owns_funct3 (mn : String) {v : InstrWord} (f3 : BitVec 3) (op : BitVec 7)
    (hv : v = codeWord3 f3 op) (w : InstrWord) :
    (TableRow.mk mn 0x0000707F#32 v).owns w = true ↔ opcodeOf w = op ∧ funct3Of w = f3 := by
  rw [TableRow.owns, beq_iff_eq, hv, and_funct3Mask]

theorem owns_funct7 (mn : String) {v : InstrWord} (f7 : BitVec 7) (f3 : BitVec 3) (op : BitVec 7)
    (hv : v = codeWord7 f7 f3 op) (w : InstrWord) :
    (TableRow.mk mn 0xFE00707F#32 v).owns w = true ↔
      opcodeOf w = op ∧ funct3Of w = f3 ∧ funct7Of w = f7 := by
  rw [TableRow.owns, beq_iff_eq, hv, and_funct7Mask]

theorem owns_top6 (mn : String) {v : InstrWord} (f6 : BitVec 6) (f3 : BitVec 3) (op : BitVec 7)
    (hv : v = codeWord6 f6 f3 op) (w : InstrWord) :
    (TableRow.mk mn 0xFC00707F#32 v).owns w = true ↔
      opcodeOf w = op ∧ funct3Of w = f3 ∧ top6Of w = f6 := by
  rw [TableRow.owns, beq_iff_eq, hv, and_top6Mask]

/-- The upper six bits of an I-format word. -/
theorem top6Of_encodeI (imm : BitVec 12) (a : RegIndex) (f3 : BitVec 3) (d : RegIndex)
    (op : BitVec 7) : top6Of (encodeI imm a f3 d op) = imm.extractLsb' 6 6 := by
  apply BitVec.eq_of_toNat_eq
  rw [top6Of, toNat_slice, toNat_slice, encodeI_toNat]
  omega

/-- The upper six bits of a shift-immediate's immediate. -/
theorem upper_of_shift (u s : BitVec 6) : (u ++ s).extractLsb' 6 6 = u := by
  apply BitVec.eq_of_toNat_eq
  rw [toNat_slice, toNat_append_add]
  omega

end Sys2Proof
end

