-- ==== Sys2Proof/Laws/PerInstr.lean ====
section
/-!
SUPPORT. Statements made per instruction.  The family `OwnedByItsRow` says that the word of an
instruction belongs to the row of the opcode table that has its mnemonic (rule R63).
-/

namespace Sys2Proof.Laws

/-- The 40-row table has a row with the instruction's mnemonic that owns the instruction's word. -/
def OwnedByItsRow.Statement (i : Instr) : Prop :=
  ∃ r, r ∈ opcodeTable .x64 ∧ r.mnemonic = i.mnemonic ∧ r.owns (encode i) = true

theorem OwnedByItsRow.add (rd rs1 rs2 : RegIndex) :
    Statement (.add rd rs1 rs2) :=
  ⟨⟨"ADD", 0xFE00707F#32, 0x00000033#32⟩, by decide, rfl,
    (owns_funct7 _ 0x0#7 0#3 0x33#7 (by decide) _).2 (by simp [encode])⟩

theorem OwnedByItsRow.sub (rd rs1 rs2 : RegIndex) :
    Statement (.sub rd rs1 rs2) :=
  ⟨⟨"SUB", 0xFE00707F#32, 0x40000033#32⟩, by decide, rfl,
    (owns_funct7 _ 0x20#7 0#3 0x33#7 (by decide) _).2 (by simp [encode])⟩

theorem OwnedByItsRow.sll (rd rs1 rs2 : RegIndex) :
    Statement (.sll rd rs1 rs2) :=
  ⟨⟨"SLL", 0xFE00707F#32, 0x00001033#32⟩, by decide, rfl,
    (owns_funct7 _ 0x0#7 1#3 0x33#7 (by decide) _).2 (by simp [encode])⟩

theorem OwnedByItsRow.slt (rd rs1 rs2 : RegIndex) :
    Statement (.slt rd rs1 rs2) :=
  ⟨⟨"SLT", 0xFE00707F#32, 0x00002033#32⟩, by decide, rfl,
    (owns_funct7 _ 0x0#7 2#3 0x33#7 (by decide) _).2 (by simp [encode])⟩

theorem OwnedByItsRow.sltu (rd rs1 rs2 : RegIndex) :
    Statement (.sltu rd rs1 rs2) :=
  ⟨⟨"SLTU", 0xFE00707F#32, 0x00003033#32⟩, by decide, rfl,
    (owns_funct7 _ 0x0#7 3#3 0x33#7 (by decide) _).2 (by simp [encode])⟩

theorem OwnedByItsRow.xor (rd rs1 rs2 : RegIndex) :
    Statement (.xor rd rs1 rs2) :=
  ⟨⟨"XOR", 0xFE00707F#32, 0x00004033#32⟩, by decide, rfl,
    (owns_funct7 _ 0x0#7 4#3 0x33#7 (by decide) _).2 (by simp [encode])⟩

theorem OwnedByItsRow.srl (rd rs1 rs2 : RegIndex) :
    Statement (.srl rd rs1 rs2) :=
  ⟨⟨"SRL", 0xFE00707F#32, 0x00005033#32⟩, by decide, rfl,
    (owns_funct7 _ 0x0#7 5#3 0x33#7 (by decide) _).2 (by simp [encode])⟩

theorem OwnedByItsRow.sra (rd rs1 rs2 : RegIndex) :
    Statement (.sra rd rs1 rs2) :=
  ⟨⟨"SRA", 0xFE00707F#32, 0x40005033#32⟩, by decide, rfl,
    (owns_funct7 _ 0x20#7 5#3 0x33#7 (by decide) _).2 (by simp [encode])⟩

theorem OwnedByItsRow.or (rd rs1 rs2 : RegIndex) :
    Statement (.or rd rs1 rs2) :=
  ⟨⟨"OR", 0xFE00707F#32, 0x00006033#32⟩, by decide, rfl,
    (owns_funct7 _ 0x0#7 6#3 0x33#7 (by decide) _).2 (by simp [encode])⟩

theorem OwnedByItsRow.and (rd rs1 rs2 : RegIndex) :
    Statement (.and rd rs1 rs2) :=
  ⟨⟨"AND", 0xFE00707F#32, 0x00007033#32⟩, by decide, rfl,
    (owns_funct7 _ 0x0#7 7#3 0x33#7 (by decide) _).2 (by simp [encode])⟩

theorem OwnedByItsRow.addi (rd rs1 : RegIndex) (imm : BitVec 12) :
    Statement (.addi rd rs1 imm) :=
  ⟨⟨"ADDI", 0x0000707F#32, 0x00000013#32⟩, by decide, rfl,
    (owns_funct3 _ 0#3 0x13#7 (by decide) _).2 (by simp [encode])⟩

theorem OwnedByItsRow.slti (rd rs1 : RegIndex) (imm : BitVec 12) :
    Statement (.slti rd rs1 imm) :=
  ⟨⟨"SLTI", 0x0000707F#32, 0x00002013#32⟩, by decide, rfl,
    (owns_funct3 _ 2#3 0x13#7 (by decide) _).2 (by simp [encode])⟩

theorem OwnedByItsRow.sltiu (rd rs1 : RegIndex) (imm : BitVec 12) :
    Statement (.sltiu rd rs1 imm) :=
  ⟨⟨"SLTIU", 0x0000707F#32, 0x00003013#32⟩, by decide, rfl,
    (owns_funct3 _ 3#3 0x13#7 (by decide) _).2 (by simp [encode])⟩

theorem OwnedByItsRow.xori (rd rs1 : RegIndex) (imm : BitVec 12) :
    Statement (.xori rd rs1 imm) :=
  ⟨⟨"XORI", 0x0000707F#32, 0x00004013#32⟩, by decide, rfl,
    (owns_funct3 _ 4#3 0x13#7 (by decide) _).2 (by simp [encode])⟩

theorem OwnedByItsRow.ori (rd rs1 : RegIndex) (imm : BitVec 12) :
    Statement (.ori rd rs1 imm) :=
  ⟨⟨"ORI", 0x0000707F#32, 0x00006013#32⟩, by decide, rfl,
    (owns_funct3 _ 6#3 0x13#7 (by decide) _).2 (by simp [encode])⟩

theorem OwnedByItsRow.andi (rd rs1 : RegIndex) (imm : BitVec 12) :
    Statement (.andi rd rs1 imm) :=
  ⟨⟨"ANDI", 0x0000707F#32, 0x00007013#32⟩, by decide, rfl,
    (owns_funct3 _ 7#3 0x13#7 (by decide) _).2 (by simp [encode])⟩

theorem OwnedByItsRow.slli (rd rs1 : RegIndex) (shamt : BitVec 6) :
    Statement (.slli rd rs1 shamt) :=
  ⟨⟨"SLLI", 0xFC00707F#32, 0x00001013#32⟩, by decide, rfl,
    (owns_top6 _ 0x0#6 1#3 0x13#7 (by decide) _).2
      (by simp [encode, top6Of_encodeI, upper_of_shift])⟩

theorem OwnedByItsRow.srli (rd rs1 : RegIndex) (shamt : BitVec 6) :
    Statement (.srli rd rs1 shamt) :=
  ⟨⟨"SRLI", 0xFC00707F#32, 0x00005013#32⟩, by decide, rfl,
    (owns_top6 _ 0x0#6 5#3 0x13#7 (by decide) _).2
      (by simp [encode, top6Of_encodeI, upper_of_shift])⟩

theorem OwnedByItsRow.srai (rd rs1 : RegIndex) (shamt : BitVec 6) :
    Statement (.srai rd rs1 shamt) :=
  ⟨⟨"SRAI", 0xFC00707F#32, 0x40005013#32⟩, by decide, rfl,
    (owns_top6 _ 0x10#6 5#3 0x13#7 (by decide) _).2
      (by simp [encode, top6Of_encodeI, upper_of_shift])⟩

theorem OwnedByItsRow.lui (rd : RegIndex) (imm20 : BitVec 20) :
    Statement (.lui rd imm20) :=
  ⟨⟨"LUI", 0x0000007F#32, 0x00000037#32⟩, by decide, rfl,
    (owns_opcode _ 0x37#7 rfl _).2 (by simp [encode])⟩

theorem OwnedByItsRow.auipc (rd : RegIndex) (imm20 : BitVec 20) :
    Statement (.auipc rd imm20) :=
  ⟨⟨"AUIPC", 0x0000007F#32, 0x00000017#32⟩, by decide, rfl,
    (owns_opcode _ 0x17#7 rfl _).2 (by simp [encode])⟩

theorem OwnedByItsRow.lb (rd rs1 : RegIndex) (imm : BitVec 12) :
    Statement (.lb rd rs1 imm) :=
  ⟨⟨"LB", 0x0000707F#32, 0x00000003#32⟩, by decide, rfl,
    (owns_funct3 _ 0#3 0x3#7 (by decide) _).2 (by simp [encode])⟩

theorem OwnedByItsRow.lh (rd rs1 : RegIndex) (imm : BitVec 12) :
    Statement (.lh rd rs1 imm) :=
  ⟨⟨"LH", 0x0000707F#32, 0x00001003#32⟩, by decide, rfl,
    (owns_funct3 _ 1#3 0x3#7 (by decide) _).2 (by simp [encode])⟩

theorem OwnedByItsRow.lw (rd rs1 : RegIndex) (imm : BitVec 12) :
    Statement (.lw rd rs1 imm) :=
  ⟨⟨"LW", 0x0000707F#32, 0x00002003#32⟩, by decide, rfl,
    (owns_funct3 _ 2#3 0x3#7 (by decide) _).2 (by simp [encode])⟩

theorem OwnedByItsRow.lbu (rd rs1 : RegIndex) (imm : BitVec 12) :
    Statement (.lbu rd rs1 imm) :=
  ⟨⟨"LBU", 0x0000707F#32, 0x00004003#32⟩, by decide, rfl,
    (owns_funct3 _ 4#3 0x3#7 (by decide) _).2 (by simp [encode])⟩

theorem OwnedByItsRow.lhu (rd rs1 : RegIndex) (imm : BitVec 12) :
    Statement (.lhu rd rs1 imm) :=
  ⟨⟨"LHU", 0x0000707F#32, 0x00005003#32⟩, by decide, rfl,
    (owns_funct3 _ 5#3 0x3#7 (by decide) _).2 (by simp [encode])⟩

theorem OwnedByItsRow.lwu (rd rs1 : RegIndex) (imm : BitVec 12) :
    Statement (.lwu rd rs1 imm) :=
  ⟨⟨"LWU", 0x0000707F#32, 0x00006003#32⟩, by decide, rfl,
    (owns_funct3 _ 6#3 0x3#7 (by decide) _).2 (by simp [encode])⟩

theorem OwnedByItsRow.ld (rd rs1 : RegIndex) (imm : BitVec 12) :
    Statement (.ld rd rs1 imm) :=
  ⟨⟨"LD", 0x0000707F#32, 0x00003003#32⟩, by decide, rfl,
    (owns_funct3 _ 3#3 0x3#7 (by decide) _).2 (by simp [encode])⟩

theorem OwnedByItsRow.sb (rs2 rs1 : RegIndex) (imm : BitVec 12) :
    Statement (.sb rs2 rs1 imm) :=
  ⟨⟨"SB", 0x0000707F#32, 0x00000023#32⟩, by decide, rfl,
    (owns_funct3 _ 0#3 0x23#7 (by decide) _).2 (by simp [encode])⟩

theorem OwnedByItsRow.sh (rs2 rs1 : RegIndex) (imm : BitVec 12) :
    Statement (.sh rs2 rs1 imm) :=
  ⟨⟨"SH", 0x0000707F#32, 0x00001023#32⟩, by decide, rfl,
    (owns_funct3 _ 1#3 0x23#7 (by decide) _).2 (by simp [encode])⟩

theorem OwnedByItsRow.sw (rs2 rs1 : RegIndex) (imm : BitVec 12) :
    Statement (.sw rs2 rs1 imm) :=
  ⟨⟨"SW", 0x0000707F#32, 0x00002023#32⟩, by decide, rfl,
    (owns_funct3 _ 2#3 0x23#7 (by decide) _).2 (by simp [encode])⟩

theorem OwnedByItsRow.sd (rs2 rs1 : RegIndex) (imm : BitVec 12) :
    Statement (.sd rs2 rs1 imm) :=
  ⟨⟨"SD", 0x0000707F#32, 0x00003023#32⟩, by decide, rfl,
    (owns_funct3 _ 3#3 0x23#7 (by decide) _).2 (by simp [encode])⟩

theorem OwnedByItsRow.beq (rs1 rs2 : RegIndex) (imm : BitVec 13) :
    Statement (.beq rs1 rs2 imm) :=
  ⟨⟨"BEQ", 0x0000707F#32, 0x00000063#32⟩, by decide, rfl,
    (owns_funct3 _ 0#3 0x63#7 (by decide) _).2 (by simp [encode])⟩

theorem OwnedByItsRow.bne (rs1 rs2 : RegIndex) (imm : BitVec 13) :
    Statement (.bne rs1 rs2 imm) :=
  ⟨⟨"BNE", 0x0000707F#32, 0x00001063#32⟩, by decide, rfl,
    (owns_funct3 _ 1#3 0x63#7 (by decide) _).2 (by simp [encode])⟩

theorem OwnedByItsRow.blt (rs1 rs2 : RegIndex) (imm : BitVec 13) :
    Statement (.blt rs1 rs2 imm) :=
  ⟨⟨"BLT", 0x0000707F#32, 0x00004063#32⟩, by decide, rfl,
    (owns_funct3 _ 4#3 0x63#7 (by decide) _).2 (by simp [encode])⟩

theorem OwnedByItsRow.bge (rs1 rs2 : RegIndex) (imm : BitVec 13) :
    Statement (.bge rs1 rs2 imm) :=
  ⟨⟨"BGE", 0x0000707F#32, 0x00005063#32⟩, by decide, rfl,
    (owns_funct3 _ 5#3 0x63#7 (by decide) _).2 (by simp [encode])⟩

theorem OwnedByItsRow.bltu (rs1 rs2 : RegIndex) (imm : BitVec 13) :
    Statement (.bltu rs1 rs2 imm) :=
  ⟨⟨"BLTU", 0x0000707F#32, 0x00006063#32⟩, by decide, rfl,
    (owns_funct3 _ 6#3 0x63#7 (by decide) _).2 (by simp [encode])⟩

theorem OwnedByItsRow.bgeu (rs1 rs2 : RegIndex) (imm : BitVec 13) :
    Statement (.bgeu rs1 rs2 imm) :=
  ⟨⟨"BGEU", 0x0000707F#32, 0x00007063#32⟩, by decide, rfl,
    (owns_funct3 _ 7#3 0x63#7 (by decide) _).2 (by simp [encode])⟩

theorem OwnedByItsRow.jal (rd : RegIndex) (imm : BitVec 21) :
    Statement (.jal rd imm) :=
  ⟨⟨"JAL", 0x0000007F#32, 0x0000006F#32⟩, by decide, rfl,
    (owns_opcode _ 0x6F#7 rfl _).2 (by simp [encode])⟩

theorem OwnedByItsRow.jalr (rd rs1 : RegIndex) (imm : BitVec 12) :
    Statement (.jalr rd rs1 imm) :=
  ⟨⟨"JALR", 0x0000707F#32, 0x00000067#32⟩, by decide, rfl,
    (owns_funct3 _ 0#3 0x67#7 (by decide) _).2 (by simp [encode])⟩

end Sys2Proof.Laws
end

