-- ==== Sys2Proof/Laws/Pipeline.lean ====
section
/-!
SUPPORT. What one clock cycle can do, said once: per stage, at the edge, and for the whole step.
-/

namespace Sys2Proof.Machine

variable {x : XLen}

/-! ## The stages -/

/-- Fetch's evaluate phase (rules R134 to R136). -/
theorem fetchStage_cases (m : CoreState x) :
    (m.fetchEnabled = false ∧ fetchStage m = .ok { ifId := none, sawSentinel := false }) ∨
    (∃ c, m.fetchEnabled = true ∧ m.fetchWord = .error c ∧ fetchStage m = .error (.fatal c)) ∨
    (m.readsSentinel ∧ fetchStage m = .ok { ifId := none, sawSentinel := true }) ∨
    (∃ w, m.fetches w ∧
      fetchStage m = .ok { ifId := some { pc := m.pc, word := w }, sawSentinel := false }) := by
  unfold fetchStage
  cases he : m.fetchEnabled
  · exact .inl ⟨rfl, by simp⟩
  · right
    cases hw : m.fetchWord with
    | error c => exact .inl ⟨c, rfl, rfl, by simp⟩
    | ok w =>
      right
      by_cases hs : w = m.cfg.sentinel
      · exact .inl ⟨⟨he, by rw [hw, hs]⟩, by simp [hs]⟩
      · exact .inr ⟨w, ⟨he, hw, hs⟩, by simp [hs]⟩

/-- Where Fetch fails, it is with `InstructionFetchFailure(pc)` (rule R252). -/
theorem fetchWord_error {m : CoreState x} {c : Condition x} (h : m.fetchWord = .error c) :
    c = .instructionFetchFailure m.pc := by
  unfold CoreState.fetchWord at h
  split at h
  · injection h with h; exact h.symm
  · split at h
    · simp at h
    · injection h with h; exact h.symm

/-- A word is fetched from a multiple of 4 only (rule R134). -/
theorem fetchWord_aligned {m : CoreState x} {w : InstrWord} (h : m.fetchWord = .ok w) :
    m.pc.toNat % 4 = 0 := by
  unfold CoreState.fetchWord at h
  split at h
  · simp at h
  · next h4 => simpa using h4

/-- The word Fetch sees depends on `pc`, memory and the extent alone. -/
theorem fetchWord_congr {m t : CoreState x} (hc : t.cfg = m.cfg) (hm : t.mem = m.mem)
    (hp : t.pc = m.pc) : t.fetchWord = m.fetchWord := by
  unfold CoreState.fetchWord; rw [hc, hm, hp]

/-- Two words Fetch reads in one cycle are one word. -/
theorem fetches_unique {m : CoreState x} {w w' : InstrWord} (h : m.fetches w) (h' : m.fetches w') :
    w = w' := by
  have := h.2.1.symm.trans h'.2.1; injection this

theorem not_fetches_of_disabled {m : CoreState x} (h : m.fetchEnabled = false) (w : InstrWord) :
    ¬ m.fetches w := fun hf => by
  have h1 := hf.1
  simp [h] at h1

theorem not_fetches_of_sentinel {m : CoreState x} (h : m.readsSentinel) (w : InstrWord) :
    ¬ m.fetches w := by
  rintro ⟨_, hw, hne⟩
  have := h.2.symm.trans hw
  injection this with this
  exact hne this.symm

theorem not_sentinel_of_fetches {m : CoreState x} {w : InstrWord} (h : m.fetches w) :
    ¬ m.readsSentinel := fun hs => not_fetches_of_sentinel hs w h

theorem not_sentinel_of_disabled {m : CoreState x} (h : m.fetchEnabled = false) :
    ¬ m.readsSentinel := fun hs => by
  have h1 := hs.1
  simp [h] at h1

/-- With Fetch stopped nothing is fetched (rule R135). -/
theorem fetchEnabled_of_stopped {m : CoreState x} (h : m.fetchStopped = true) :
    m.fetchEnabled = false := by
  simp [CoreState.fetchEnabled, h]

/-- Decode's evaluate phase (rules R139 to R141). -/
theorem decodeStage_cases (m : CoreState x) :
    (m.ifId = none ∧ decodeStage m = .ok { idEx := none, redirect := none, diag := m.diag }) ∨
    (∃ d, m.ifId = some d ∧ formatOf (opcodeOf d.word) = .Unknown ∧
      decodeStage m = .error (.fatal (.illegalInstruction d.pc d.word))) ∨
    (∃ d, m.ifId = some d ∧ formatOf (opcodeOf d.word) ≠ .Unknown ∧
      decodeFields x d.word = .ok (fieldsOfWord x d.word) ∧
      decodeStage m = .ok (decodeIssue m d (fieldsOfWord x d.word))) := by
  unfold decodeStage
  cases hi : m.ifId with
  | none => exact .inl ⟨rfl, rfl⟩
  | some d =>
    right
    by_cases hf : formatOf (opcodeOf d.word) = .Unknown
    · exact .inl ⟨d, rfl, hf, by simp [decodeFields_of_unknown hf]⟩
    · exact .inr ⟨d, rfl, hf, decodeFields_of_known hf, by simp [decodeFields_of_known hf]⟩

/-- Execute's evaluate phase, where it completes (rules R144, R145). -/
theorem executeStage_ok {m : CoreState x} {e : Option (ExM x)} (h : executeStage m = .ok e) :
    (m.idEx = none ∧ e = none) ∨
    (∃ d a b r, m.idEx = some d ∧ aluOperands d = .ok (a, b) ∧ execute a b d.ctrl.aluOp = .ok r ∧
      e = some { pc := d.pc, fields := d.fields, aluResult := r, storeData := d.rs2Value,
                 ctrl := d.ctrl }) := by
  unfold executeStage at h
  split at h
  · next hi => injection h with h; exact .inl ⟨hi, h.symm⟩
  · next d hi =>
    split at h
    · simp at h
    · next a b hab =>
      split at h
      · simp at h
      · next r hr => injection h with h; exact .inr ⟨d, a, b, r, hi, hab, hr, h.symm⟩

/-- Memory's evaluate phase, where it completes (rules R147 to R149). -/
theorem memoryStage_ok {m : CoreState x} {w : MemoryOut x} (h : memoryStage m = .ok w) :
    (m.exM = none ∧ w = { mWb := none, store := none }) ∨
    (∃ e v st, m.exM = some e ∧ loadedValue m e = .ok v ∧ pendingStore m e = .ok st ∧
      w = { mWb := some { pc := e.pc, rd := e.fields.rd, aluResult := e.aluResult, memData := v,
                          ctrl := e.ctrl }
            store := st }) := by
  unfold memoryStage at h
  split at h
  · next hi => injection h with h; exact .inl ⟨hi, h.symm⟩
  · next e hi =>
    split at h
    · simp at h
    · next v hv =>
      split at h
      · simp at h
      · next st hst => injection h with h; exact .inr ⟨e, v, st, hi, hv, hst, h.symm⟩

/-! ## The edge, field by field -/

section Edge
variable (m : CoreState x) (f : FetchOut x) (d : DecodeOut x) (e : Option (ExM x)) (w : MemoryOut x)

@[simp] theorem clockEdge_cfg : (clockEdge m f d e w).cfg = m.cfg := rfl
@[simp] theorem clockEdge_pc : (clockEdge m f d e w).pc = nextPc m f d.redirect := rfl
@[simp] theorem clockEdge_regs : (clockEdge m f d e w).regs = (writeBack m).regs := rfl
@[simp] theorem clockEdge_mem : (clockEdge m f d e w).mem = nextMem m w.store := rfl
@[simp] theorem clockEdge_ifId : (clockEdge m f d e w).ifId = f.ifId := rfl
@[simp] theorem clockEdge_idEx : (clockEdge m f d e w).idEx = d.idEx := rfl
@[simp] theorem clockEdge_exM : (clockEdge m f d e w).exM = e := rfl
@[simp] theorem clockEdge_mWb : (clockEdge m f d e w).mWb = w.mWb := rfl
@[simp] theorem clockEdge_fetchStopped :
    (clockEdge m f d e w).fetchStopped = (m.fetchStopped || f.sawSentinel) := rfl
@[simp] theorem clockEdge_issued :
    (clockEdge m f d e w).instructionsIssued = m.instructionsIssued + m.ifId.isSome.toNat := rfl
@[simp] theorem clockEdge_completed :
    (clockEdge m f d e w).instructionsCompleted =
      m.instructionsCompleted + m.mWb.isSome.toNat := rfl
@[simp] theorem clockEdge_cycles :
    (clockEdge m f d e w).cycles = m.cycles + (f.ifId.isSome || !m.empty).toNat := rfl
@[simp] theorem clockEdge_diag : (clockEdge m f d e w).diag = d.diag := rfl

/-- `status` at the edge, read off the core the edge makes (rule R156). -/
theorem clockEdge_status :
    (clockEdge m f d e w).status =
      if ((clockEdge m f d e w).fetchStopped && (clockEdge m f d e w).empty) = true then .ended
      else m.status := rfl

/-- An edge never fails. -/
theorem clockEdge_not_failed (h : m.status = .running) (c : Condition x) :
    (clockEdge m f d e w).status ≠ .failed c := by
  rw [clockEdge_status, h]; split <;> simp

end Edge

/-- WriteBack changes registers only (rule R150). -/
theorem writeBack_none {m : CoreState x} (h : m.mWb = none) : writeBack m = m := by
  unfold writeBack; rw [h]

theorem writeBack_some {m : CoreState x} {w : MWb x} (h : m.mWb = some w) :
    writeBack m = if w.ctrl.regWrite then m.writeReg w.rd w.value else m := by
  unfold writeBack; rw [h]

/-- WriteBack never writes the slot of `x[0]` (rule R11). -/
@[simp] theorem writeBack_regs_zero (m : CoreState x) : (writeBack m).regs[0] = m.regs[0] := by
  unfold writeBack
  cases m.mWb with
  | none => rfl
  | some w => cases hw : w.ctrl.regWrite <;> simp [hw]

/-- The pipeline is empty exactly when nothing is in it. -/
theorem empty_iff (m : CoreState x) :
    m.empty = true ↔ m.ifId = none ∧ m.idEx = none ∧ m.exM = none ∧ m.mWb = none := by
  simp [CoreState.empty, and_assoc]

theorem occupancy_eq_zero (m : CoreState x) : m.occupancy = 0 ↔ m.empty = true := by
  rw [empty_iff]
  unfold CoreState.occupancy CoreState.issuedInFlight
  cases m.ifId <;> cases m.idEx <;> cases m.exM <;> cases m.mWb <;> simp

/-! ## The whole cycle -/

/-- The four stages have finished their evaluate phase and `t` is the edge's core. -/
structure CycleTo (m t : CoreState x) (f : FetchOut x) (d : DecodeOut x) (e : Option (ExM x))
    (w : MemoryOut x) : Prop where
  fetch : fetchStage m = .ok f
  decode : decodeStage m = .ok d
  execute : executeStage m = .ok e
  memory : memoryStage m = .ok w
  edge : t = clockEdge m f d e w

/-- What `evaluate` answers. -/
theorem evaluate_ok_iff {m t : CoreState x} :
    evaluate m = .ok t ↔ ∃ f d e w, CycleTo m t f d e w := by
  unfold evaluate
  constructor
  · intro h
    split at h
    · simp at h
    · next f hf =>
      split at h
      · simp at h
      · next d hd =>
        split at h
        · simp at h
        · next e he =>
          split at h
          · simp at h
          · next w hw => injection h with h; exact ⟨f, d, e, w, hf, hd, he, hw, h.symm⟩
  · rintro ⟨f, d, e, w, hf, hd, he, hw, ht⟩
    simp only [hf, hd, he, hw, ht]

/-- Everything a step of a running core can do: a whole cycle, a fatal condition, or, in a state no run
reaches, a fault. -/
theorem step_cases {m : CoreState x} (h : m.status = .running) :
    (∃ t f d e w, CycleTo m t f d e w ∧
      step { xlen := x, core := m } = .next { xlen := x, core := t }) ∨
    (∃ c, evaluate m = .error (.fatal c) ∧
      step { xlen := x, core := m } = .next { xlen := x, core := m.raise c }) ∨
    (∃ r, evaluate m = .error (.noNext r) ∧ step { xlen := x, core := m } = .fault r) := by
  unfold step hostCall clockCycle
  simp only [h]
  cases he : evaluate m with
  | ok t =>
    obtain ⟨f, d, e, w, hc⟩ := evaluate_ok_iff.1 he
    exact .inl ⟨t, f, d, e, w, hc, rfl⟩
  | error s =>
    cases s with
    | fatal c => exact .inr (.inl ⟨c, rfl, rfl⟩)
    | noNext r => exact .inr (.inr ⟨r, rfl, rfl⟩)

/-- A step of a core that does not run changes nothing (rule R161). -/
theorem step_of_not_running {m : CoreState x} (h : m.status ≠ .running) :
    step { xlen := x, core := m } = .next { xlen := x, core := m } := by
  unfold step hostCall clockCycle
  cases hs : m.status with
  | running => exact absurd hs h
  | ended => rfl
  | failed c => rfl

/-- `run()` with no fuel left changes nothing. -/
theorem step_run_zero (m : CoreState x) :
    step { xlen := x, core := m, call := .run 0 } = .next { xlen := x, core := m } := rfl

/-- `run()` is a cycle and, while its result is `Continue`, `run()` again (rule R155). -/
theorem step_run_succ (m : CoreState x) (n : Nat) :
    step { xlen := x, core := m, call := .run (n + 1) } =
      match clockCycle m with
      | .error f => .fault f
      | .ok t =>
        if t.status = .running then step { xlen := x, core := t, call := .run n }
        else .next { xlen := x, core := t } := by
  simp only [step, hostCall, runCycles]
  cases clockCycle m with
  | error f => rfl
  | ok t =>
    by_cases h : t.status = .running
    · cases hr : runCycles n t <;> simp only [h, if_true, hr]
    · simp only [h, if_false]

/-- `run()` takes some number of cycles. -/
theorem runCycles_cycles (n : Nat) :
    ∀ {m t : CoreState x}, runCycles n m = .ok t →
      Relation.ReflTransGen (fun a b => clockCycle a = .ok b) m t := by
  induction n with
  | zero => intro m t h; injection h with h; rw [h]
  | succ n ih =>
    intro m t h
    simp only [runCycles] at h
    split at h
    · simp at h
    · next u hu =>
      split at h
      · exact .head hu (ih h)
      · injection h with h; rw [← h]; exact .single hu

/-- Everything any step can do: the width stays, the call is used up, and the core goes through some
number of clock cycles.  What a cycle keeps, a step keeps. -/
theorem step_next {s t : State} (h : step s = .next t) :
    ∃ m, t = { xlen := s.xlen, core := m } ∧
      Relation.ReflTransGen (fun a b => clockCycle a = .ok b) s.core m := by
  unfold step at h
  split at h
  · next m hm =>
    injection h with h
    refine ⟨m, h.symm, ?_⟩
    unfold hostCall at hm
    split at hm
    · exact .single hm
    · exact runCycles_cycles _ hm
  · simp at h

/-- `advances` is one whole cycle. -/
theorem advances_iff {m t : CoreState x} :
    advances m t ↔ m.status = .running ∧ ∃ f d e w, CycleTo m t f d e w := by
  constructor
  · rintro ⟨hr, hs, hn⟩
    refine ⟨hr, ?_⟩
    rcases step_cases hr with ⟨t', f, d, e, w, hc, hs'⟩ | ⟨c, _, hs'⟩ | ⟨r, _, hs'⟩
    · rw [hs'] at hs
      injection hs with hs
      injection hs with _ hs
      have : t' = t := hs
      subst this
      exact ⟨f, d, e, w, hc⟩
    · rw [hs'] at hs
      injection hs with hs
      injection hs with _ hs
      have : m.raise c = t := hs
      subst this
      exact absurd rfl (hn c)
    · rw [hs'] at hs; simp at hs
  · rintro ⟨hr, f, d, e, w, hc⟩
    have he : evaluate m = .ok t := evaluate_ok_iff.2 ⟨f, d, e, w, hc⟩
    refine ⟨hr, ?_, fun c => ?_⟩
    · unfold step hostCall clockCycle; simp only [hr, he]
    · rw [hc.edge]; exact clockEdge_not_failed m f d e w hr c

end Sys2Proof.Machine
end

