-- ==== Sys2Proof/Tests/Slice0.lean ====
section
/-!
SUPPORT. Tests: the checks of `WellFormed`, one word per instruction decoded, one passage per
instruction, single clock cycles, and a witness for every obligation that has hypotheses.

The words of the decode tests are written out, field by field, from the encodings of rule R62, and the
expected values of the passages are the rows of `95_test_vectors.md`, sections 3 to 7.
-/

namespace Sys2Proof

open Sys2Proof.Machine

/-! ## Helpers -/

/-- A core at width `x` with zero registers, the words given from address 0 on, and the memory of the
vectors (`0` to `0x2FF`). -/
def testCore (x : XLen) (words : List InstrWord) : CoreState x :=
  CoreState.build { Config.atReset with extent := [{ base := 0, size := 0x300 }] }
    (imageOfWords [] 0 words) { entryPc := 0, xInit := Vector.replicate 31 0 }

/-- The core with registers set. -/
def withRegs {x : XLen} (m : CoreState x) : List (RegIndex × Nat) → CoreState x
  | [] => m
  | (r, v) :: rest => withRegs (m.writeReg r (BitVec.ofNat x.bits v)) rest

/-- The core with bytes set from an address on. -/
def withBytes {x : XLen} (m : CoreState x) : Nat → List Nat → CoreState x
  | _, [] => m
  | a, v :: rest => withBytes { m with mem := writeByte m.mem a (BitVec.ofNat 8 v) } (a + 1) rest

/-- A core with `pc` set. -/
def atPc (x : XLen) (a : Nat) : CoreState x := { testCore x [] with pc := BitVec.ofNat x.bits a }

/-- The machine after the word's passage. -/
def passage {x : XLen} (m : CoreState x) (w : InstrWord) : Option State :=
  match instrWordStep w { xlen := x, core := m } with
  | .next t => some t
  | .fault _ => none
  | .refused _ => none

/-- Register `r` after the word's passage. -/
def regAfter {x : XLen} (m : CoreState x) (w : InstrWord) (r : RegIndex) : Option Nat :=
  (passage m w).map fun t => (t.core.readReg r).toNat

/-- `pc` after the word's passage. -/
def pcAfter {x : XLen} (m : CoreState x) (w : InstrWord) : Option Nat :=
  (passage m w).map fun t => t.core.pc.toNat

/-- Eight bytes from 0x100 after the word's passage. -/
def bytesAfter {x : XLen} (m : CoreState x) (w : InstrWord) : Option (List (Option Nat)) :=
  (passage m w).map fun t =>
    (List.range 8).map fun k => (readByte t.core.cfg t.core.mem (0x100 + k)).map BitVec.toNat

/-- Some cycles, where each answers a next state. -/
def cyclesFrom {x : XLen} (m : CoreState x) : Nat → Option (CoreState x)
  | 0 => some m
  | n + 1 =>
    match clockCycle m with
    | .ok t => cyclesFrom t n
    | .error _ => none

theorem stepN_of_cyclesFrom {x : XLen} (n : Nat) :
    ∀ {m t : CoreState x}, cyclesFrom m n = some t →
      stepN n { xlen := x, core := m } = .next { xlen := x, core := t } := by
  induction n with
  | zero => intro m t h; simp only [cyclesFrom, Option.some.injEq] at h; rw [h]; rfl
  | succ n ih =>
    intro m t h
    simp only [cyclesFrom] at h
    split at h
    · next u hu => simp only [stepN, step, hostCall, hu]; exact ih h
    · simp at h

/-- A run of cycles whose end has a property that is decided by evaluation. -/
theorem exists_stepN {x : XLen} (n : Nat) (m : CoreState x) (p : CoreState x → Bool)
    (h : (cyclesFrom m n).any p = true) :
    ∃ t, stepN n { xlen := x, core := m } = .next { xlen := x, core := t } ∧ p t = true := by
  cases hc : cyclesFrom m n with
  | none => rw [hc] at h; simp at h
  | some t => rw [hc] at h; exact ⟨t, stepN_of_cyclesFrom n hc, by simpa using h⟩

/-- The evaluate phases of a core finish. -/
def finishes {x : XLen} (m : CoreState x) : Bool :=
  match evaluate m with
  | .ok _ => true
  | .error _ => false

/-- A running core whose evaluate phases finish advances. -/
theorem exists_advances {x : XLen} {m : CoreState x} (hr : m.status = .running)
    (h : finishes m = true) : ∃ t, advances m t := by
  unfold finishes at h
  split at h
  · next t ht => exact ⟨t, advances_iff.2 ⟨hr, evaluate_ok_iff.1 ht⟩⟩
  · simp at h

/-! ## `WellFormed` refuses an ill-formed term for each check -/

theorem test_wellFormed_odd_branch_offset :
    (Instr.beq 1 2 17).wellFormed .x64 = false ∧ (Instr.bne 1 2 1).wellFormed .x32 = false ∧
    (Instr.blt 1 2 3).wellFormed .x32 = false ∧ (Instr.bge 1 2 5).wellFormed .x32 = false ∧
    (Instr.bltu 1 2 7).wellFormed .x32 = false ∧ (Instr.bgeu 1 2 9).wellFormed .x64 = false := by
  decide

theorem test_wellFormed_odd_jump_offset : (Instr.jal 1 2049).wellFormed .x64 = false := by decide

theorem test_wellFormed_shift_amount :
    (Instr.slli 3 1 32).wellFormed .x32 = false ∧ (Instr.srli 3 1 63).wellFormed .x32 = false ∧
    (Instr.srai 3 1 33).wellFormed .x32 = false ∧ (Instr.srai 3 1 33).wellFormed .x64 = true := by
  decide

theorem test_wellFormed_only_64 :
    (Instr.lwu 3 1 0).wellFormed .x32 = false ∧ (Instr.ld 3 1 0).wellFormed .x32 = false ∧
    (Instr.sd 2 1 0).wellFormed .x32 = false ∧ (Instr.sd 2 1 0).wellFormed .x64 = true := by
  decide

/-! ## One word per instruction, field by field (rule R62) -/

theorem test_decode_add : decodeInstr .x64 0b0000000_00010_00001_000_00011_0110011#32 =
    .ok (.add 3 1 2) := by decide

theorem test_decode_sub : decodeInstr .x64 0b0100000_00010_00001_000_00011_0110011#32 =
    .ok (.sub 3 1 2) := by decide

theorem test_decode_sll : decodeInstr .x64 0b0000000_00010_00001_001_00011_0110011#32 =
    .ok (.sll 3 1 2) := by decide

theorem test_decode_slt : decodeInstr .x64 0b0000000_00010_00001_010_00011_0110011#32 =
    .ok (.slt 3 1 2) := by decide

theorem test_decode_sltu : decodeInstr .x64 0b0000000_00010_00001_011_00011_0110011#32 =
    .ok (.sltu 3 1 2) := by decide

theorem test_decode_xor : decodeInstr .x64 0b0000000_00010_00001_100_00011_0110011#32 =
    .ok (.xor 3 1 2) := by decide

theorem test_decode_srl : decodeInstr .x64 0b0000000_00010_00001_101_00011_0110011#32 =
    .ok (.srl 3 1 2) := by decide

theorem test_decode_sra : decodeInstr .x64 0b0100000_00010_00001_101_00011_0110011#32 =
    .ok (.sra 3 1 2) := by decide

theorem test_decode_or : decodeInstr .x64 0b0000000_00010_00001_110_00011_0110011#32 =
    .ok (.or 3 1 2) := by decide

theorem test_decode_and : decodeInstr .x64 0b0000000_00010_00001_111_00011_0110011#32 =
    .ok (.and 3 1 2) := by decide

theorem test_decode_addi : decodeInstr .x64 0b111111111011_00001_000_00011_0010011#32 =
    .ok (.addi 3 1 (BitVec.ofInt 12 (-5))) := by decide

theorem test_decode_slti : decodeInstr .x64 0b111111111011_00001_010_00011_0010011#32 =
    .ok (.slti 3 1 (BitVec.ofInt 12 (-5))) := by decide

theorem test_decode_sltiu : decodeInstr .x64 0b111111111011_00001_011_00011_0010011#32 =
    .ok (.sltiu 3 1 (BitVec.ofInt 12 (-5))) := by decide

theorem test_decode_xori : decodeInstr .x64 0b111111111011_00001_100_00011_0010011#32 =
    .ok (.xori 3 1 (BitVec.ofInt 12 (-5))) := by decide

theorem test_decode_ori : decodeInstr .x64 0b111111111011_00001_110_00011_0010011#32 =
    .ok (.ori 3 1 (BitVec.ofInt 12 (-5))) := by decide

theorem test_decode_andi : decodeInstr .x64 0b111111111011_00001_111_00011_0010011#32 =
    .ok (.andi 3 1 (BitVec.ofInt 12 (-5))) := by decide

theorem test_decode_slli : decodeInstr .x64 0b000000_100001_00001_001_00011_0010011#32 =
    .ok (.slli 3 1 33) := by decide

theorem test_decode_srli : decodeInstr .x64 0b000000_111111_00001_101_00011_0010011#32 =
    .ok (.srli 3 1 63) := by decide

theorem test_decode_srai : decodeInstr .x64 0b010000_000111_00001_101_00011_0010011#32 =
    .ok (.srai 3 1 7) := by decide

theorem test_decode_lui : decodeInstr .x64 0b00010010001101000101_00011_0110111#32 =
    .ok (.lui 3 0x12345) := by decide

theorem test_decode_auipc : decodeInstr .x64 0b00010010001101000101_00011_0010111#32 =
    .ok (.auipc 3 0x12345) := by decide

theorem test_decode_lb : decodeInstr .x64 0b111111111100_00001_000_00011_0000011#32 =
    .ok (.lb 3 1 (BitVec.ofInt 12 (-4))) := by decide

theorem test_decode_lh : decodeInstr .x64 0b111111111100_00001_001_00011_0000011#32 =
    .ok (.lh 3 1 (BitVec.ofInt 12 (-4))) := by decide

theorem test_decode_lw : decodeInstr .x64 0b111111111100_00001_010_00011_0000011#32 =
    .ok (.lw 3 1 (BitVec.ofInt 12 (-4))) := by decide

theorem test_decode_lbu : decodeInstr .x64 0b111111111100_00001_100_00011_0000011#32 =
    .ok (.lbu 3 1 (BitVec.ofInt 12 (-4))) := by decide

theorem test_decode_lhu : decodeInstr .x64 0b111111111100_00001_101_00011_0000011#32 =
    .ok (.lhu 3 1 (BitVec.ofInt 12 (-4))) := by decide

theorem test_decode_lwu : decodeInstr .x64 0b111111111100_00001_110_00011_0000011#32 =
    .ok (.lwu 3 1 (BitVec.ofInt 12 (-4))) := by decide

theorem test_decode_ld : decodeInstr .x64 0b111111111100_00001_011_00011_0000011#32 =
    .ok (.ld 3 1 (BitVec.ofInt 12 (-4))) := by decide

theorem test_decode_sb : decodeInstr .x64 0b1111111_00010_00001_000_11100_0100011#32 =
    .ok (.sb 2 1 (BitVec.ofInt 12 (-4))) := by decide

theorem test_decode_sh : decodeInstr .x64 0b1111111_00010_00001_001_11100_0100011#32 =
    .ok (.sh 2 1 (BitVec.ofInt 12 (-4))) := by decide

theorem test_decode_sw : decodeInstr .x64 0b1111111_00010_00001_010_11100_0100011#32 =
    .ok (.sw 2 1 (BitVec.ofInt 12 (-4))) := by decide

theorem test_decode_sd : decodeInstr .x64 0b1111111_00010_00001_011_11100_0100011#32 =
    .ok (.sd 2 1 (BitVec.ofInt 12 (-4))) := by decide

theorem test_decode_beq : decodeInstr .x64 0b1_111111_00010_00001_000_1100_1_1100011#32 =
    .ok (.beq 1 2 (BitVec.ofInt 13 (-8))) := by decide

theorem test_decode_bne : decodeInstr .x64 0b1_111111_00010_00001_001_1100_1_1100011#32 =
    .ok (.bne 1 2 (BitVec.ofInt 13 (-8))) := by decide

theorem test_decode_blt : decodeInstr .x64 0b1_111111_00010_00001_100_1100_1_1100011#32 =
    .ok (.blt 1 2 (BitVec.ofInt 13 (-8))) := by decide

theorem test_decode_bge : decodeInstr .x64 0b1_111111_00010_00001_101_1100_1_1100011#32 =
    .ok (.bge 1 2 (BitVec.ofInt 13 (-8))) := by decide

theorem test_decode_bltu : decodeInstr .x64 0b1_111111_00010_00001_110_1100_1_1100011#32 =
    .ok (.bltu 1 2 (BitVec.ofInt 13 (-8))) := by decide

theorem test_decode_bgeu : decodeInstr .x64 0b1_111111_00010_00001_111_1100_1_1100011#32 =
    .ok (.bgeu 1 2 (BitVec.ofInt 13 (-8))) := by decide

theorem test_decode_jal : decodeInstr .x64 0b0_0000000000_1_00000000_00001_1101111#32 =
    .ok (.jal 1 2048) := by decide

theorem test_decode_jalr : decodeInstr .x64 0b000000001000_00101_000_00001_1100111#32 =
    .ok (.jalr 1 5 8) := by decide

/-! ## One passage per instruction (`95_test_vectors.md`, section 5) -/

/-- The start of section 5.1 at 32 bits. -/
def opCore32 : CoreState .x32 := withRegs (testCore .x32 []) [(1, 0x80000005), (2, 3), (3, 0x55)]

/-- The start of section 5.1 at 64 bits. -/
def opCore64 : CoreState .x64 :=
  withRegs (testCore .x64 []) [(1, 0xFFFFFFFF80000005), (2, 0x23), (3, 0x55)]

theorem test_exec_add : regAfter opCore32 0x002081B3#32 3 = some 0x80000008 ∧
    regAfter opCore64 0x002081B3#32 3 = some 0xFFFFFFFF80000028 := by decide

theorem test_exec_sub : regAfter opCore32 0x402081B3#32 3 = some 0x80000002 ∧
    regAfter opCore64 0x402081B3#32 3 = some 0xFFFFFFFF7FFFFFE2 := by decide

theorem test_exec_sll : regAfter opCore32 0x002091B3#32 3 = some 0x28 ∧
    regAfter opCore64 0x002091B3#32 3 = some 0x2800000000 := by decide

theorem test_exec_slt : regAfter opCore32 0x0020A1B3#32 3 = some 0x1 ∧
    regAfter opCore64 0x0020A1B3#32 3 = some 0x1 := by decide

theorem test_exec_sltu : regAfter opCore32 0x0020B1B3#32 3 = some 0x0 ∧
    regAfter opCore64 0x0020B1B3#32 3 = some 0x0 := by decide

theorem test_exec_xor : regAfter opCore32 0x0020C1B3#32 3 = some 0x80000006 ∧
    regAfter opCore64 0x0020C1B3#32 3 = some 0xFFFFFFFF80000026 := by decide

theorem test_exec_srl : regAfter opCore32 0x0020D1B3#32 3 = some 0x10000000 ∧
    regAfter opCore64 0x0020D1B3#32 3 = some 0x1FFFFFFF := by decide

theorem test_exec_sra : regAfter opCore32 0x4020D1B3#32 3 = some 0xF0000000 ∧
    regAfter opCore64 0x4020D1B3#32 3 = some 0xFFFFFFFFFFFFFFFF := by decide

theorem test_exec_or : regAfter opCore32 0x0020E1B3#32 3 = some 0x80000007 ∧
    regAfter opCore64 0x0020E1B3#32 3 = some 0xFFFFFFFF80000027 := by decide

theorem test_exec_and : regAfter opCore32 0x0020F1B3#32 3 = some 0x1 ∧
    regAfter opCore64 0x0020F1B3#32 3 = some 0x1 := by decide

/-- A core with `x1` set and `x3 = 0x55`. -/
def immCore (x : XLen) (x1 : Nat) : CoreState x := withRegs (testCore x []) [(1, x1), (3, 0x55)]

theorem test_exec_addi : regAfter (immCore .x32 0xFFFFFFFF) 0xFFB08193#32 3 = some 0xFFFFFFFA ∧
    regAfter (immCore .x64 0xFFFFFFFF) 0xFFB08193#32 3 = some 0xFFFFFFFA := by decide

theorem test_exec_slti : regAfter (immCore .x32 0x3) 0xFFF0A193#32 3 = some 0x0 ∧
    regAfter (immCore .x64 0x3) 0xFFF0A193#32 3 = some 0x0 := by decide

theorem test_exec_sltiu : regAfter (immCore .x32 0xFFFFFFFF) 0xFFF0B193#32 3 = some 0x0 ∧
    regAfter (immCore .x64 0xFFFFFFFF) 0xFFF0B193#32 3 = some 0x1 := by decide

theorem test_exec_xori : regAfter (immCore .x32 0xFFFFFFFF) 0xFFF0C193#32 3 = some 0x0 ∧
    regAfter (immCore .x64 0xFFFFFFFF) 0xFFF0C193#32 3 = some 0xFFFFFFFF00000000 := by decide

theorem test_exec_ori : regAfter (immCore .x32 0x3) 0x0F00E193#32 3 = some 0xF3 ∧
    regAfter (immCore .x64 0x3) 0x0F00E193#32 3 = some 0xF3 := by decide

theorem test_exec_andi : regAfter (immCore .x32 0xFFFFFFFF) 0x0F00F193#32 3 = some 0xF0 ∧
    regAfter (immCore .x64 0xFFFFFFFF) 0x0F00F193#32 3 = some 0xF0 := by decide

theorem test_exec_slli : regAfter (immCore .x32 0x80000001) 0x02009193#32 3 = some 0x55 ∧
    regAfter (immCore .x64 0x8000000000000001) 0x02009193#32 3 = some 0x100000000 := by decide

theorem test_exec_srli : regAfter (immCore .x32 0x80000001) 0x03F0D193#32 3 = some 0x55 ∧
    regAfter (immCore .x64 0x8000000000000001) 0x03F0D193#32 3 = some 0x1 := by decide

theorem test_exec_srai : regAfter (immCore .x32 0x80000001) 0x41F0D193#32 3 = some 0xFFFFFFFF ∧
    regAfter (immCore .x64 0x8000000000000001) 0x41F0D193#32 3 = some 0xFFFFFFFF00000000 := by decide

theorem test_exec_lui : regAfter (testCore .x32 []) 0xFFFFF237#32 4 = some 0xFFFFF000 ∧
    regAfter (testCore .x64 []) 0xFFFFF237#32 4 = some 0xFFFFFFFFFFFFF000 := by decide

theorem test_exec_auipc :
    regAfter (atPc .x32 0x10C) 0xFFFFF317#32 6 = some 0xFFFFF10C ∧
    regAfter (atPc .x64 0x10C) 0xFFFFF317#32 6 =
      some 0xFFFFFFFFFFFFF10C := by decide

/-- The start of section 5.3. -/
def loadCore (x : XLen) : CoreState x :=
  withBytes (withRegs (testCore x []) [(1, 0x104), (3, 0x55)]) 0x100
    [0xEF, 0xCD, 0xAB, 0x89, 0x08, 0x07, 0x06, 0x85]

theorem test_exec_lb : regAfter (loadCore .x32) 0xFFC08183#32 3 = some 0xFFFFFFEF ∧
    regAfter (loadCore .x64) 0xFFC08183#32 3 = some 0xFFFFFFFFFFFFFFEF := by decide

theorem test_exec_lh : regAfter (loadCore .x32) 0xFFC09183#32 3 = some 0xFFFFCDEF ∧
    regAfter (loadCore .x64) 0xFFC09183#32 3 = some 0xFFFFFFFFFFFFCDEF := by decide

theorem test_exec_lw : regAfter (loadCore .x32) 0xFFC0A183#32 3 = some 0x89ABCDEF ∧
    regAfter (loadCore .x64) 0xFFC0A183#32 3 = some 0xFFFFFFFF89ABCDEF := by decide

theorem test_exec_lbu : regAfter (loadCore .x32) 0xFFC0C183#32 3 = some 0xEF ∧
    regAfter (loadCore .x64) 0xFFC0C183#32 3 = some 0xEF := by decide

theorem test_exec_lhu : regAfter (loadCore .x32) 0xFFC0D183#32 3 = some 0xCDEF ∧
    regAfter (loadCore .x64) 0xFFC0D183#32 3 = some 0xCDEF := by decide

theorem test_exec_lwu : regAfter (loadCore .x32) 0xFFC0E183#32 3 = some 0x55 ∧
    regAfter (loadCore .x64) 0xFFC0E183#32 3 = some 0x89ABCDEF := by decide

theorem test_exec_ld : regAfter (loadCore .x32) 0xFFC0B183#32 3 = some 0x55 ∧
    regAfter (loadCore .x64) 0xFFC0B183#32 3 = some 0x8506070889ABCDEF := by decide

/-- The start of section 5.4. -/
def storeCore (x : XLen) : CoreState x :=
  withBytes (withRegs (testCore x []) [(1, 0x104), (2, 0x0102030412345678)]) 0x100
    [0xAA, 0xAA, 0xAA, 0xAA, 0xAA, 0xAA, 0xAA, 0xAA]

theorem test_exec_sb : bytesAfter (storeCore .x32) 0xFE208E23#32 =
      some [some 0x78, some 0xAA, some 0xAA, some 0xAA, some 0xAA, some 0xAA, some 0xAA, some 0xAA] ∧
    bytesAfter (storeCore .x64) 0xFE208E23#32 =
      some [some 0x78, some 0xAA, some 0xAA, some 0xAA, some 0xAA, some 0xAA, some 0xAA, some 0xAA] := by
  decide

theorem test_exec_sh : bytesAfter (storeCore .x32) 0xFE209E23#32 =
      some [some 0x78, some 0x56, some 0xAA, some 0xAA, some 0xAA, some 0xAA, some 0xAA, some 0xAA] ∧
    bytesAfter (storeCore .x64) 0xFE209E23#32 =
      some [some 0x78, some 0x56, some 0xAA, some 0xAA, some 0xAA, some 0xAA, some 0xAA, some 0xAA] := by
  decide

theorem test_exec_sw : bytesAfter (storeCore .x32) 0xFE20AE23#32 =
      some [some 0x78, some 0x56, some 0x34, some 0x12, some 0xAA, some 0xAA, some 0xAA, some 0xAA] ∧
    bytesAfter (storeCore .x64) 0xFE20AE23#32 =
      some [some 0x78, some 0x56, some 0x34, some 0x12, some 0xAA, some 0xAA, some 0xAA, some 0xAA] := by
  decide

theorem test_exec_sd : bytesAfter (storeCore .x32) 0xFE20BE23#32 =
      some [some 0xAA, some 0xAA, some 0xAA, some 0xAA, some 0xAA, some 0xAA, some 0xAA, some 0xAA] ∧
    bytesAfter (storeCore .x64) 0xFE20BE23#32 =
      some [some 0x78, some 0x56, some 0x34, some 0x12, some 0x04, some 0x03, some 0x02, some 0x01] := by
  decide

/-- A core of section 5.5 with `x1` and `x2` set. -/
def branchCore (a b : Nat) : CoreState .x32 := withRegs (testCore .x32 []) [(1, a), (2, b)]

theorem test_exec_beq :
    pcAfter (branchCore 0x5 0x5) 0x00208863#32 = some 0x10 ∧
    pcAfter (branchCore 0xFFFFFFFF 0x1) 0x00208863#32 = some 0x4 ∧
    pcAfter (branchCore 0x1 0xFFFFFFFF) 0x00208863#32 = some 0x4 := by
  decide

theorem test_exec_bne :
    pcAfter (branchCore 0x5 0x5) 0x00209863#32 = some 0x4 ∧
    pcAfter (branchCore 0xFFFFFFFF 0x1) 0x00209863#32 = some 0x10 ∧
    pcAfter (branchCore 0x1 0xFFFFFFFF) 0x00209863#32 = some 0x10 := by
  decide

theorem test_exec_blt :
    pcAfter (branchCore 0x5 0x5) 0x0020C863#32 = some 0x4 ∧
    pcAfter (branchCore 0xFFFFFFFF 0x1) 0x0020C863#32 = some 0x10 ∧
    pcAfter (branchCore 0x1 0xFFFFFFFF) 0x0020C863#32 = some 0x4 := by
  decide

theorem test_exec_bge :
    pcAfter (branchCore 0x5 0x5) 0x0020D863#32 = some 0x10 ∧
    pcAfter (branchCore 0xFFFFFFFF 0x1) 0x0020D863#32 = some 0x4 ∧
    pcAfter (branchCore 0x1 0xFFFFFFFF) 0x0020D863#32 = some 0x10 := by
  decide

theorem test_exec_bltu :
    pcAfter (branchCore 0x5 0x5) 0x0020E863#32 = some 0x4 ∧
    pcAfter (branchCore 0xFFFFFFFF 0x1) 0x0020E863#32 = some 0x4 ∧
    pcAfter (branchCore 0x1 0xFFFFFFFF) 0x0020E863#32 = some 0x10 := by
  decide

theorem test_exec_bgeu :
    pcAfter (branchCore 0x5 0x5) 0x0020F863#32 = some 0x10 ∧
    pcAfter (branchCore 0xFFFFFFFF 0x1) 0x0020F863#32 = some 0x10 ∧
    pcAfter (branchCore 0x1 0xFFFFFFFF) 0x0020F863#32 = some 0x4 := by
  decide

theorem test_exec_jal :
    regAfter (atPc .x32 0x40) 0x001000EF#32 1 = some 0x44 ∧
    pcAfter (atPc .x32 0x40) 0x001000EF#32 = some 0x840 ∧
    pcAfter (testCore .x32 []) 0xFFDFF06F#32 = some 0xFFFFFFFC := by decide

theorem test_exec_jalr :
    pcAfter (withRegs (testCore .x32 []) [(5, 0xD)]) 0x000280E7#32 = some 0xC ∧
    regAfter (withRegs (testCore .x32 []) [(1, 8)]) 0x004080E7#32 1 = some 4 ∧
    pcAfter (withRegs (testCore .x32 []) [(1, 8)]) 0x004080E7#32 = some 0xC := by decide

theorem test_exec_discards_write_to_x0 :
    regAfter (withRegs (testCore .x32 []) [(1, 7), (2, 8)]) 0x00208033#32 0 = some 0 := by decide

theorem test_exec_source_is_destination :
    regAfter (withRegs (testCore .x32 []) [(1, 7)]) 0x001080B3#32 1 = some 0xE := by decide

theorem test_safe_no_op :
    regAfter opCore32 0x022081B3#32 3 = some 0x55 ∧ pcAfter opCore32 0x022081B3#32 = some 4 := by
  decide

/-! ## The names the host asks about -/

theorem test_decodeTableWord :
    decodeTableWord 32 0x402081B3 = some (.sub 3 1 2) ∧ decodeTableWord 32 0x0000000F = none ∧
    decodeTableWord 32 0x022081B3 = none := by decide

/-- From reset with a word placed, the next step answers what `exec` answers, and `p` holds of it. -/
def placedRuns (w : Nat) (i : Instr) (p : CoreState .x64 → Bool) : Bool :=
  match step (State.reset.withFetchWord 32 w), exec i (State.reset.withFetchWord 32 w) with
  | .next ⟨.x64, a, _⟩, .next ⟨.x64, b, _⟩ => decide (a = b) && p a
  | _, _ => false

/-- The very next step runs the placed word whole: `addi x1, x0, 5`, `sd x0, 8(x0)` and `jal x5, 40`. -/
theorem test_withFetchWord :
    placedRuns 0x00500093 (.addi 1 0 5) (fun t =>
      t.readReg 1 == 5#64 && t.pc == 4#64 && t.instructionsCompleted == 1) = true ∧
    placedRuns 0x00003423 (.sd 0 0 8) (fun t => t.pc == 4#64 && t.instructionsCompleted == 1) = true ∧
    placedRuns 0x028002EF (.jal 5 40) (fun t => t.readReg 5 == 4#64 && t.pc == 40#64) = true := by
  decide +kernel

/-- From reset with nothing placed, the first step fetches the zero word of empty memory. -/
theorem test_reset_step :
    (match step State.reset with
      | .next t => (t.core.ifId.map (fun d => d.word)) == some 0#32 && t.core.pc.toNat == 4
      | .fault _ => false
      | .refused _ => false) = true := by decide

/-! ## Single clock cycles on a full pipeline -/

/-- The record of an instruction in `ID_EX`. -/
def inIdEx {x : XLen} (i : Instr) (pc a b : Nat) : IdEx x where
  pc := BitVec.ofNat x.bits pc
  fields := i.fields x
  rs1Value := BitVec.ofNat x.bits a
  rs2Value := BitVec.ofNat x.bits b
  ctrl := generate (i.fields x) (BitVec.ofNat x.bits pc) (BitVec.ofNat x.bits a) (BitVec.ofNat x.bits b)

/-- The record of an instruction in `EX_M`. -/
def inExM {x : XLen} (i : Instr) (pc result store : Nat) : ExM x where
  pc := BitVec.ofNat x.bits pc
  fields := i.fields x
  aluResult := BitVec.ofNat x.bits result
  storeData := BitVec.ofNat x.bits store
  ctrl := generate (i.fields x) (BitVec.ofNat x.bits pc) 0 0

/-- The record of an instruction in `M_WB`. -/
def inMWb {x : XLen} (i : Instr) (pc result : Nat) : MWb x where
  pc := BitVec.ofNat x.bits pc
  rd := (i.fields x).rd
  aluResult := BitVec.ofNat x.bits result
  memData := 0
  ctrl := generate (i.fields x) (BitVec.ofNat x.bits pc) 0 0

/-- Memory of `full`: five words from 0 on, the one at 0x10 being `addi x6, x0, 6`. -/
def fullWords : List InstrWord :=
  [0x00700293#32, 0x10002183#32, 0x00508213#32, 0x00208863#32, 0x00600313#32]

/-- A full pipeline: `addi x5, x0, 7` in `M_WB`, `lw x3, 0x100(x0)` in `EX_M`, `addi x4, x1, 5` in
`ID_EX`, the taken `beq x1, x2, +16` in `IF_ID`, and Fetch at 0x10. -/
def full (x : XLen) : CoreState x :=
  { withBytes (withRegs (testCore x fullWords) [(1, 9), (2, 9)]) 0x100 [0x34, 0x12] with
    pc := BitVec.ofNat x.bits 0x10
    ifId := some { pc := BitVec.ofNat x.bits 0xC, word := 0x00208863#32 }
    idEx := some (inIdEx (.addi 4 1 5) 8 9 0)
    exM := some (inExM (.lw 3 0 0x100) 4 0x100 0)
    mWb := some (inMWb (.addi 5 0 7) 0 7)
    instructionsIssued := 3
    cycles := 4 }

/-- `full` with another instruction in `EX_M`. -/
def fullWith {x : XLen} (e : ExM x) : CoreState x := { full x with exM := some e }

/-- `full` with Fetch at the sentinel. -/
def fullAtSentinel (x : XLen) : CoreState x :=
  { full x with mem := placeWord (full x).mem 0x10 0xDDFFCCFF#32 }

/-- `full` after one cycle, by `p`. -/
def afterCycle {x : XLen} (m : CoreState x) (p : CoreState x → Bool) : Bool := (cyclesFrom m 1).any p

/-- Fetch keeps the delay slot, the branch redirects, WriteBack and Memory do their work. -/
theorem test_full_cycle :
    afterCycle (full .x32) (fun t =>
      t.pc == 0x1C#32 && t.ifId == some { pc := 0x10#32, word := 0x00600313#32 } &&
      (t.mWb.map (fun w => w.memData)) == some 0x1234#32 &&
      (t.exM.map (fun e => e.aluResult)) == some 14#32 &&
      t.readReg 5 == 7#32 && t.instructionsIssued == 4 && t.instructionsCompleted == 1 &&
      t.cycles == 5) = true := by decide

/-- Rule R137: the sentinel read in the cycle of a taken branch wins. -/
theorem test_sentinel_masks_branch :
    afterCycle (fullAtSentinel .x32) (fun t =>
      t.pc == 0x10#32 && t.ifId == none && t.fetchStopped && t.status == .running) = true := by
  decide

/-- Rule R256: an access outside the extent abandons the cycle; only `status` changes. -/
theorem test_refused_load_abandons_cycle :
    afterCycle (fullWith (inExM (.lw 3 0 0) 4 0x300 0 : ExM .x32)) (fun t =>
      t == (fullWith (inExM (.lw 3 0 0) 4 0x300 0 : ExM .x32)).raise (.outOfRange 0x300#32)) =
        true := by decide

/-- Rule R31: the two policies at a misaligned address. -/
theorem test_misaligned_policies :
    dmemRead (x := .x32) (loadCore .x32).cfg (loadCore .x32).mem 0x101#32 2 false =
      .error (Condition.outOfRange (x := .x32) 0x101#32) ∧
    dmemRead (x := .x32) { (loadCore .x32).cfg with misaligned := .split } (loadCore .x32).mem
      0x101#32 2 false = .ok 0xABCD#32 := by decide

/-- The text of one line of the diagnostic channel (rules R67, R143). -/
theorem test_diagnostic_line :
    diagOperands ((Instr.lw 3 1 (BitVec.ofInt 12 (-4))).fields .x32) = [.reg 3, .mem (-4) 1] ∧
    instrOfFields ((Instr.lw 3 1 (BitVec.ofInt 12 (-4))).fields .x32) =
      some (.lw 3 1 (BitVec.ofInt 12 (-4))) := by decide

/-! ## Witnesses: every obligation's hypotheses are met somewhere -/

theorem witness_OnlyTheUnsetOperationFails :
    execute (x := .x32) 5#32 3#32 .UNSET = .error .illegalAluOperation ∧
    execute (x := .x32) 5#32 3#32 .SUB = .ok 2#32 := by decide

theorem witness_DecodeExtractsTheFields :
    formatOf (opcodeOf 0x002081B3#32) = .R ∧ formatOf (opcodeOf 0x800000EF#32) = .J ∧
    formatOf (opcodeOf 0xFFFFF1B7#32) = .U ∧ formatOf (opcodeOf 0x80208063#32) = .B ∧
    formatOf (opcodeOf 0x7E208FA3#32) = .S ∧ formatOf (opcodeOf 0x80000093#32) = .I ∧
    formatOf (opcodeOf 0xDDFFCCFF#32) = .Unknown := by decide

/-- The extreme immediates of every format (`95_test_vectors.md`, section 2). -/
theorem witness_ImmediatesHaveTheirSignedValue :
    (∃ f : DecodedFields .x64, decodeFields .x64 0x022081B3#32 = .ok f ∧ f.format = .R) ∧
    (∃ f : DecodedFields .x64, decodeFields .x64 0x80000093#32 = .ok f ∧ f.format = .I ∧
      f.immediate.toInt = -2048) ∧
    (∃ f : DecodedFields .x64, decodeFields .x64 0x80208023#32 = .ok f ∧ f.format = .S ∧
      f.immediate.toInt = -2048) ∧
    (∃ f : DecodedFields .x64, decodeFields .x64 0x80208063#32 = .ok f ∧ f.format = .B ∧
      f.immediate.toInt = -4096) ∧
    (∃ f : DecodedFields .x64, decodeFields .x64 0x800001B7#32 = .ok f ∧ f.format = .U ∧
      f.immediate.toInt = -2147483648) ∧
    (∃ f : DecodedFields .x64, decodeFields .x64 0x800000EF#32 = .ok f ∧ f.format = .J ∧
      f.immediate.toInt = -1048576) :=
  ⟨⟨_, rfl, by decide⟩, ⟨_, rfl, by decide, by decide⟩, ⟨_, rfl, by decide, by decide⟩,
    ⟨_, rfl, by decide, by decide⟩, ⟨_, rfl, by decide, by decide⟩, ⟨_, rfl, by decide, by decide⟩⟩

theorem witness_DecodeIsInjective :
    ∃ f : DecodedFields .x32, decodeFields .x32 0x002081B3#32 = .ok f := ⟨_, rfl⟩

theorem witness_DecodeOfEncodeIsTheInstruction :
    (Instr.jal 31 (BitVec.ofInt 21 (-1048576))).wellFormed .x32 = true ∧
    (Instr.srai 31 0 63).wellFormed .x64 = true := by decide

theorem witness_EncodeOfDecodeIsTheWord :
    decodeInstr .x32 0x800000EF#32 = .ok (.jal 1 (BitVec.ofInt 21 (-1048576))) := by decide

/-- The sentinel, an `Unknown` opcode, a word that a row owns, and one of a known opcode that none owns. -/
theorem witness_DecoderAgreesWithTheOpcodeTable :
    classifyWord .x64 0xDDFFCCFF#32 0xDDFFCCFF#32 = .sentinel ∧
    formatOf (opcodeOf 0x00000073#32) = .Unknown ∧
    (⟨"SRAI", 0xFC00707F#32, 0x40005013#32⟩ : TableRow) ∈ opcodeTable .x64 ∧
    (⟨"SRAI", 0xFC00707F#32, 0x40005013#32⟩ : TableRow).owns 0x4210D193#32 = true ∧
    classifyWord .x64 0xDDFFCCFF#32 0x4210D193#32 = .instr (.srai 3 1 33) ∧
    formatOf (opcodeOf 0x022081B3#32) ≠ .Unknown ∧
    (∀ r, r ∈ opcodeTable .x64 → r.owns 0x022081B3#32 = false) := by decide

theorem witness_IllegalWordsAreThoseOfUnknownOpcodes :
    formatOf (opcodeOf 0x0000000F#32) = .Unknown ∧ opcodeOf 0x00000073#32 = 0b1110011#7 ∧
    (0#32).toNat % 4 ≠ 3 := by decide

/-- One word for each line of the list, at the boundary of its range. -/
theorem witness_SafeNoOpWordsAreTheListedCombinations :
    decodeInstr .x32 0x022081B3#32 = .error .safeNoOp ∧
    decodeInstr .x32 0x02009193#32 = .error .safeNoOp ∧
    decodeInstr .x64 0x04009193#32 = .error .safeNoOp ∧
    decodeInstr .x32 0x4210D193#32 = .error .safeNoOp ∧
    decodeInstr .x64 0x4410D193#32 = .error .safeNoOp ∧
    decodeInstr .x64 0xFFC0F183#32 = .error .safeNoOp ∧
    decodeInstr .x32 0xFFC0B183#32 = .error .safeNoOp ∧
    decodeInstr .x64 0xFE20CE23#32 = .error .safeNoOp ∧
    decodeInstr .x32 0xFE20BE23#32 = .error .safeNoOp ∧
    decodeInstr .x64 0x0020A863#32 = .error .safeNoOp ∧
    decodeInstr .x64 0x008290E7#32 = .error .safeNoOp := by decide

theorem witness_UnlistedCombinationsGetTheNoOpBundle :
    (∃ f : DecodedFields .x32, decodeFields .x32 0x022081B3#32 = .ok f ∧ instrOfFields f = none) ∧
    (∃ f : DecodedFields .x32, decodeFields .x32 0x002081B3#32 = .ok f ∧ instrOfFields f ≠ none) :=
  ⟨⟨_, rfl, by decide⟩, ⟨_, rfl, by decide⟩⟩

/-- A load, a store, a taken jump, a row that is neither (`95_test_vectors.md`, section 4). -/
theorem witness_BundlesAreConsistent :
    (generate ((Instr.lw 3 1 0).fields .x32) 0x40 0x104 0).memRead = true ∧
    (generate ((Instr.sw 2 1 0).fields .x32) 0x40 0x104 0).memWrite = true ∧
    (generate ((Instr.jal 1 2048).fields .x32) 0x40 0 0).branchTaken = true ∧
    (generate ((Instr.jal 1 2048).fields .x32) 0x40 0 0).regWrite = true ∧
    ((Instr.lui 3 0x12345).fields .x32).opcode ∉ [0x63#7, 0x6F#7, 0x67#7] := by decide

theorem witness_RegisterRegisterRowsSelectTheirOperation :
    ((5, 0x20, .SRA) : Nat × Nat × AluOp) ∈
      [(0, 0, AluOp.ADD), (0, 0x20, .SUB), (1, 0, .SLL), (2, 0, .SLT), (3, 0, .SLTU), (4, 0, .XOR),
        (5, 0, .SRL), (5, 0x20, .SRA), (6, 0, .OR), (7, 0, .AND)] ∧
    opcodeOf 0x4020D1B3#32 = 0x33#7 ∧ (funct3Of 0x4020D1B3#32).toNat = 5 ∧
    (funct7Of 0x4020D1B3#32).toNat = 0x20 := by decide

/-- Both decisions of each comparison, at the extremes of the offset. -/
theorem witness_BranchBundleComparesTheOperands :
    (BitVec.ofInt 13 (-4096)).getLsbD 0 = false ∧ (4094#13).getLsbD 0 = false ∧
    (generate ((Instr.blt 1 2 16).fields .x32) 0x40 0xFFFFFFFF#32 1#32).branchTaken = true ∧
    (generate ((Instr.bltu 1 2 16).fields .x32) 0x40 0xFFFFFFFF#32 1#32).branchTaken = false ∧
    (generate ((Instr.bge 1 2 16).fields .x32) 0x40 5#32 5#32).branchTaken = true ∧
    (generate ((Instr.bgeu 1 2 16).fields .x32) 0x40 0#32 1#32).branchTaken = false ∧
    (generate ((Instr.beq 1 2 16).fields .x32) 0x40 5#32 5#32).branchTaken = true ∧
    (generate ((Instr.bne 1 2 16).fields .x32) 0x40 5#32 5#32).branchTaken = false := by decide

theorem witness_JumpBundlesAreTaken : (BitVec.ofInt 21 (-1048576)).getLsbD 0 = false := by decide

theorem witness_RegisterRegisterResults :
    ∃ a b : Word .x32, a = opCore32.readReg 1 ∧ b = opCore32.readReg 2 := ⟨_, _, rfl, rfl⟩

theorem witness_RegisterImmediateResults :
    ∃ a k : Word .x32, a = (immCore .x32 3).readReg 1 ∧
      k = BitVec.ofInt 32 (BitVec.ofInt 12 (-2048)).toInt := ⟨_, _, rfl, rfl⟩

/-- The largest amount of each width, and the smallest that 32 bits do not have. -/
theorem witness_ShiftImmediateResults :
    (31#6).toNat < XLen.x32.bits ∧ (63#6).toNat < XLen.x64.bits ∧ XLen.x32.bits ≤ (32#6).toNat ∧
    ∃ a : Word .x32, a = (immCore .x32 3).readReg 1 := ⟨by decide, by decide, by decide, _, rfl⟩

theorem witness_UpperImmediateResults :
    ∃ v : Word .x64, v = BitVec.ofInt 64 ((0x80000#20).toInt * 4096) ∧ v.toInt = -2147483648 :=
  ⟨_, rfl, by decide⟩

/-- The bytes of `loadCore` at the effective address of the vectors. -/
def loadBytes (k : Nat) : Byte :=
  ([0xEF#8, 0xCD#8, 0xAB#8, 0x89#8, 0x08#8, 0x07#8, 0x06#8, 0x85#8][k]?).getD 0#8

/-- The smallest and the widest load, aligned, in the extent, the first at its last byte. -/
theorem witness_LoadResults :
    (Instr.ld 3 1 (BitVec.ofInt 12 (-4))).wellFormed .x64 = true ∧
    accepted (loadCore .x64) ((loadCore .x64).effectiveAddress 1 (BitVec.ofInt 12 (-4))) 8 ∧
    (∀ k, k < 8 → readByte (loadCore .x64).cfg (loadCore .x64).mem
      (accessAddr ((loadCore .x64).effectiveAddress 1 (BitVec.ofInt 12 (-4))) k) =
        some (loadBytes k)) ∧
    accepted (loadCore .x32) ((loadCore .x32).effectiveAddress 0 0x2FF) 1 ∧
    (Instr.ld 3 1 (BitVec.ofInt 12 (-4))).wellFormed .x32 = false :=
  ⟨by decide, ⟨by decide, by decide⟩, by decide, ⟨by decide, by decide⟩, by decide⟩

theorem witness_StoreResults :
    (Instr.sd 2 1 (BitVec.ofInt 12 (-4))).wellFormed .x64 = true ∧
    accepted (storeCore .x64) ((storeCore .x64).effectiveAddress 1 (BitVec.ofInt 12 (-4))) 8 ∧
    accepted (storeCore .x32) ((storeCore .x32).effectiveAddress 0 0x2FC) 4 ∧
    (Instr.sd 2 1 (BitVec.ofInt 12 (-4))).wellFormed .x32 = false :=
  ⟨by decide, ⟨by decide, by decide⟩, ⟨by decide, by decide⟩, by decide⟩

/-- A misaligned access, and an aligned one just past the extent. -/
theorem witness_RefusedAccessesAreOutOfRange :
    (Instr.lh 3 1 (BitVec.ofInt 12 (-3))).wellFormed .x32 = true ∧
    ¬ accepted (loadCore .x32) ((loadCore .x32).effectiveAddress 1 (BitVec.ofInt 12 (-3))) 2 ∧
    ¬ accepted (loadCore .x32) ((loadCore .x32).effectiveAddress 0 0x300) 1 :=
  ⟨by decide, fun h => absurd (h.1 rfl) (by decide), fun h => absurd (h.2 0 (by decide)) (by decide)⟩

theorem witness_BranchResults :
    (BitVec.ofInt 13 (-4096)).getLsbD 0 = false ∧
    ∃ a b : Word .x32, a = (branchCore 5 5).readReg 1 ∧ b = (branchCore 5 5).readReg 2 :=
  ⟨by decide, _, _, rfl, rfl⟩

/-- A target with bit 0 cleared, and one that wraps. -/
theorem witness_JumpResults :
    ((0xC#32).toNat : Int) =
      (((withRegs (testCore .x32 []) [(5, 0xD)]).readReg 5).toNat + (0#12).toInt) % 2 ^ 32 / 2 * 2 ∧
    ((0xFFFFFFFE#32).toNat : Int) =
      (((testCore .x32 []).readReg 5).toNat + (BitVec.ofInt 12 (-1)).toInt) % 2 ^ 32 / 2 * 2 ∧
    (BitVec.ofInt 21 (-4)).getLsbD 0 = false := by decide

theorem witness_RegisterFileReadsWhatWasWritten : (31#5) ≠ 0#5 ∧ (1#5) ≠ (31#5) := by decide

theorem witness_MemWriteChangesExactlyItsBytes :
    dmemCheck (x := .x64) (storeCore .x64).cfg 0x2F8#64 8 = .ok () ∧
    dmemCheck (x := .x32) (storeCore .x32).cfg 0x2FF#32 1 = .ok () ∧
    memoryWf (storeCore .x64).cfg 64 (storeCore .x64).mem = true := by decide

theorem witness_MemReadIsTheLittleEndianValue :
    4 ∈ dmemSizes .x32 ∧ accepted (loadCore .x32) 0x100#32 4 ∧
    (∀ k, k < 4 → readByte (loadCore .x32).cfg (loadCore .x32).mem
      (accessAddr (x := .x32) 0x100#32 k) = some (loadBytes k)) :=
  ⟨by decide, ⟨by decide, by decide⟩, by decide⟩

/-- A size the memory does not take, an accepted access at the end of the extent, one past it. -/
theorem witness_DataAccessAcceptance :
    8 ∉ dmemSizes .x32 ∧ 3 ∉ dmemSizes .x64 ∧ 4 ∈ dmemSizes .x32 ∧
    accepted (loadCore .x32) 0x2FC#32 4 ∧ ¬ accepted (loadCore .x32) 0x2FE#32 4 :=
  ⟨by decide, by decide, by decide, ⟨by decide, by decide⟩, fun h => absurd (h.1 rfl) (by decide)⟩

/-- The last word of the extent, a misaligned address, an address past the extent. -/
theorem witness_FetchReadsAnAlignedWord :
    ((atPc .x32 0x2FC).pc.toNat % 4 = 0 ∧ ∀ k, k < 4 →
      readByte (atPc .x32 0x2FC).cfg (atPc .x32 0x2FC).mem ((atPc .x32 0x2FC).pc.toNat + k) =
        some ((fun _ => 0#8 : Nat → Byte) k)) ∧
    (atPc .x32 0x1A).pc.toNat % 4 ≠ 0 ∧
    (∃ k, k < 4 ∧ readByte (atPc .x32 0x300).cfg (atPc .x32 0x300).mem
      (accessAddr (atPc .x32 0x300).pc k) = none) :=
  ⟨⟨by decide, by decide⟩, by decide, 0, by decide, by decide⟩

/-- A cycle of a full pipeline in which Fetch fetches and a branch is taken. -/
theorem advances_full : ∃ t, advances (full .x32) t := exists_advances rfl (by decide)

/-- A cycle in which Fetch reads the sentinel. -/
theorem advances_fullAtSentinel : ∃ t, advances (fullAtSentinel .x32) t :=
  exists_advances rfl (by decide)

/-- A cycle with Fetch stopped. -/
theorem advances_stopped : ∃ t, advances (full .x32).stopFetch t := exists_advances rfl (by decide)

theorem witness_FetchLatchesTheWordOrStops :
    (∃ t, advances (full .x32) t) ∧ (full .x32).fetches 0x00600313#32 ∧
    (∃ t, advances (full .x32).stopFetch t) ∧ (full .x32).stopFetch.fetchEnabled = false ∧
    (∃ t, advances (fullAtSentinel .x32) t) ∧ (fullAtSentinel .x32).readsSentinel :=
  ⟨advances_full, ⟨by decide, by decide, by decide⟩, advances_stopped, by decide,
    advances_fullAtSentinel, ⟨by decide, by decide⟩⟩

/-- `full` with `addi x6, x0, 6` in `IF_ID`, which takes no branch. -/
def fullNotTaken : CoreState .x32 :=
  { full .x32 with ifId := some { pc := 0xC#32, word := 0x00600313#32 } }

/-- `full` in non-pipelined mode, in which Fetch waits. -/
def fullWaiting : CoreState .x32 :=
  { fullNotTaken with cfg := { (full .x32).cfg with pipelining := false } }

theorem witness_ProgramCounterAtTheClockEdge :
    ((∃ t, advances (full .x32).stopFetch t) ∧ (full .x32).stopFetch.fetchStopped = true) ∧
    ((∃ t, advances (fullAtSentinel .x32) t) ∧ (fullAtSentinel .x32).readsSentinel) ∧
    ((∃ t, advances (full .x32) t) ∧
      ((full .x32).decodeSignals.map (fun c => c.branchTaken)) = some true) ∧
    ((∃ t, advances fullNotTaken t) ∧ fullNotTaken.fetches 0x00600313#32 ∧
      (fullNotTaken.decodeSignals.map (fun c => c.branchTaken)) = some false) ∧
    ((∃ t, advances fullWaiting t) ∧ fullWaiting.fetchStopped = false ∧
      fullWaiting.fetchEnabled = false) :=
  ⟨⟨advances_stopped, rfl⟩, ⟨advances_fullAtSentinel, ⟨by decide, by decide⟩⟩,
    ⟨advances_full, by decide⟩,
    ⟨exists_advances rfl (by decide), ⟨by decide, by decide, by decide⟩, by decide⟩,
    ⟨exists_advances rfl (by decide), rfl, by decide⟩⟩

/-- A cycle in which every pipeline register is a bubble. -/
theorem advances_bubbles : ∃ t, advances (testCore .x32 fullWords) t := exists_advances rfl (by decide)

theorem witness_DecodeReadsTheOldRegisters :
    ((∃ t, advances (full .x32) t) ∧ ∃ d f, (full .x32).ifId = some d ∧
      decodeFields .x32 d.word = .ok f) ∧
    (∃ t, advances (testCore .x32 fullWords) t) ∧ (testCore .x32 fullWords).ifId = none :=
  ⟨⟨advances_full, _, _, rfl, rfl⟩, advances_bubbles, rfl⟩

theorem witness_ExecuteSelectsItsOperandsByOpcode :
    ((∃ t, advances (full .x32) t) ∧ ∃ d, (full .x32).idEx = some d) ∧
    (∃ t, advances (testCore .x32 fullWords) t) ∧ (testCore .x32 fullWords).idEx = none :=
  ⟨⟨advances_full, _, rfl⟩, advances_bubbles, rfl⟩

/-- A load, a store, and the accesses of 64 bits only. -/
theorem witness_MemoryStageReadsOrCommits :
    ((∃ t, advances (full .x32) t) ∧ ∃ e, (full .x32).exM = some e ∧ e.ctrl.memRead = true ∧
      e.fields.funct3 = 2#3) ∧
    ((∃ t, advances (fullWith (inExM (.sw 2 0 0x2FC) 4 0x2FC 5 : ExM .x32)) t) ∧
      (inExM (.sw 2 0 0x2FC) 4 0x2FC 5 : ExM .x32).ctrl.memWrite = true) ∧
    ((∃ t, advances (fullWith (inExM (.ld 3 0 0x2F8) 4 0x2F8 0 : ExM .x64)) t) ∧
      (inExM (.ld 3 0 0x2F8) 4 0x2F8 0 : ExM .x64).ctrl.memRead = true) ∧
    ((∃ t, advances (fullWith (inExM (.sd 2 0 0x2F8) 4 0x2F8 5 : ExM .x64)) t) ∧
      (inExM (.sd 2 0 0x2F8) 4 0x2F8 5 : ExM .x64).ctrl.memWrite = true) ∧
    ((∃ t, advances (testCore .x32 fullWords) t) ∧ (testCore .x32 fullWords).exM = none) :=
  ⟨⟨advances_full, _, rfl, by decide, by decide⟩, ⟨exists_advances rfl (by decide), by decide⟩,
    ⟨exists_advances rfl (by decide), by decide⟩, ⟨exists_advances rfl (by decide), by decide⟩,
    advances_bubbles, rfl⟩

theorem witness_WriteBackCommitsItsRegister :
    (∃ t, advances (full .x32) t) ∧ (∃ w, (full .x32).mWb = some w ∧ w.ctrl.regWrite = true) ∧
    (∃ t, advances (testCore .x32 fullWords) t) ∧ (testCore .x32 fullWords).mWb = none :=
  ⟨advances_full, ⟨_, rfl, by decide⟩, advances_bubbles, rfl⟩

theorem witness_BubblesDoNothing :
    (∃ t, advances (testCore .x32 fullWords) t) ∧ (testCore .x32 fullWords).empty = true :=
  ⟨advances_bubbles, rfl⟩

/-- A cycle that counts, and the first cycle of an empty program, which does not. -/
theorem witness_CycleCounterCountsActiveCycles :
    ((∃ t, advances (full .x32) t) ∧ (full .x32).fetches 0x00600313#32) ∧
    ((∃ t, advances (testCore .x32 [0xDDFFCCFF#32]) t) ∧
      (testCore .x32 [0xDDFFCCFF#32]).readsSentinel ∧
      (testCore .x32 [0xDDFFCCFF#32]).occupancy = 0) :=
  ⟨⟨advances_full, ⟨by decide, by decide, by decide⟩⟩,
    ⟨exists_advances rfl (by decide), ⟨by decide, by decide⟩, rfl⟩⟩

/-- `full` with the diagnostic channel on. -/
def fullDebug : CoreState .x32 :=
  { full .x32 with cfg := { (full .x32).cfg with debugMode := true } }

theorem witness_DiagnosticChannelOnlyObserves :
    ((∃ t, advances (full .x32) t) ∧ (full .x32).cfg.debugMode = false) ∧
    ((∃ t, advances fullDebug t) ∧ fullDebug.cfg.debugMode = true ∧
      ∃ d f, fullDebug.ifId = some d ∧ decodeFields .x32 d.word = .ok f) :=
  ⟨⟨advances_full, rfl⟩, ⟨exists_advances rfl (by decide), rfl, _, _, rfl, rfl⟩⟩

/-- A cycle that continues, one that ends the run, one that fails. -/
theorem witness_StepAnswersContinueEndOrFatal :
    (∃ t, stepN 1 { xlen := .x32, core := full .x32 } = .next { xlen := .x32, core := t } ∧
      decide (t.status = .running) = true) ∧
    (∃ t, stepN 1 { xlen := .x32, core := testCore .x32 [0xDDFFCCFF#32] } =
      .next { xlen := .x32, core := t } ∧ decide (t.status = .ended) = true) ∧
    (∃ t, stepN 1 { xlen := .x32, core := atPc .x32 0x300 } = .next { xlen := .x32, core := t } ∧
      decide (t.status = .failed (.instructionFetchFailure 0x300#32)) = true) :=
  ⟨exists_stepN 1 _ _ (by decide), exists_stepN 1 _ _ (by decide), exists_stepN 1 _ _ (by decide)⟩

theorem witness_NothingChangesAfterTheEnd :
    ((full .x32).raise (.outOfRange 0#32)).status ≠ .running ∧
    (full .x32).endRun.status ≠ .running := by decide

/-- The invariant holds of a full pipeline. -/
theorem inv_full : Inv (full .x32) where
  memory := by decide
  zero := by decide
  pcEven := by decide
  ifId := fun d h => by cases h; decide
  idEx := fun d h => by cases h; exact ⟨by decide, ⟨encode (.addi 4 1 5), by decide⟩, 9#32, 0#32, rfl⟩
  exM := fun e h => by cases h; exact ⟨by decide, ⟨encode (.lw 3 0 0x100), by decide⟩, 0#32, 0#32, rfl⟩
  mWb := fun w h => by
    cases h
    exact ⟨(Instr.addi 5 0 7).fields .x32, ⟨by decide, ⟨encode (.addi 5 0 7), by decide⟩, 0#32, 0#32, rfl⟩,
      rfl⟩
  counters := by decide
  ended := by decide
  running := by decide
  serial := by decide

/-- A full pipeline with Fetch stopped: all four instructions are still to complete. -/
theorem witness_DrainEndsWithinFourCycles :
    Inv (full .x32).stopFetch ∧ (full .x32).stopFetch.fetchStopped = true ∧
    (full .x32).stopFetch.occupancy = 4 :=
  ⟨{ memory := inv_full.memory, zero := inv_full.zero, pcEven := inv_full.pcEven
     ifId := inv_full.ifId, idEx := inv_full.idEx, exM := inv_full.exM, mWb := inv_full.mWb
     counters := inv_full.counters, ended := by decide, running := by decide
     serial := inv_full.serial }, rfl, rfl⟩

/-- `full` with the illegal word 0x0000000F in `IF_ID`, a refused load in `EX_M` and debug mode on. -/
def fullIllegal : CoreState .x32 :=
  { fullDebug with
    ifId := some { pc := 0xC#32, word := 0x0000000F#32 }
    exM := some (inExM (.lw 3 0 0) 4 0x300 0) }

/-- One state for each clause.  Fetch fails over an illegal word and a refused load; Decode fails over
that load, with a word fetched and with the sentinel read; a refused load and a refused store with the
earlier stages in order. -/
theorem witness_EarlierStageIsReported :
    (∃ m : CoreState .x32, m.status = .running ∧ m.fetchEnabled = true ∧
      m.fetchWord = .error (.instructionFetchFailure 0x1A#32) ∧
      m = { fullIllegal with pc := 0x1A#32 }) ∧
    (∃ d, fullIllegal.status = .running ∧ fullIllegal.fetchWord = .ok 0x00600313#32 ∧
      fullIllegal.ifId = some d ∧ formatOf (opcodeOf d.word) = .Unknown ∧
      fullIllegal.cfg.debugMode = true) ∧
    (∃ (m : CoreState .x32) (d : IfId .x32), m.status = .running ∧ m.fetchWord = .ok 0xDDFFCCFF#32 ∧
      m.ifId = some d ∧ formatOf (opcodeOf d.word) = .Unknown ∧
      m = { fullIllegal with mem := (fullAtSentinel .x32).mem }) ∧
    (∃ (m : CoreState .x32) (e : ExM .x32), m = fullWith e ∧ m.status = .running ∧
      m.fetchWord = .ok 0x00600313#32 ∧
      (∀ d, m.ifId = some d → formatOf (opcodeOf d.word) ≠ .Unknown) ∧
      (∀ d, m.idEx = some d → issuedProperly d.pc d.fields d.ctrl) ∧
      m.exM = some e ∧ e.ctrl.memRead = true ∧ loadWidth .x32 e.fields.funct3 = some (4, true) ∧
      dmemRead m.cfg m.mem e.aluResult 4 true = .error (.outOfRange 0x300#32)) ∧
    (∃ (m : CoreState .x32) (e : ExM .x32), m = fullWith e ∧ m.status = .running ∧
      m.fetchWord = .ok 0x00600313#32 ∧
      (∀ d, m.ifId = some d → formatOf (opcodeOf d.word) ≠ .Unknown) ∧
      (∀ d, m.idEx = some d → issuedProperly d.pc d.fields d.ctrl) ∧
      m.exM = some e ∧ e.ctrl.memRead = false ∧ e.ctrl.memWrite = true ∧
      storeWidth .x32 e.fields.funct3 = some 4 ∧
      dmemCheck m.cfg e.aluResult 4 = .error (.outOfRange 0x300#32)) :=
  ⟨⟨_, by decide, by decide, by decide, rfl⟩,
    ⟨_, rfl, by decide, rfl, by decide, rfl⟩,
    ⟨_, _, by decide, by decide, rfl, by decide, rfl⟩,
    ⟨_, inExM (.lw 3 0 0) 4 0x300 0, rfl, rfl, by decide, fun d h => by cases h; decide, inv_full.idEx,
      rfl, by decide, by decide, by decide⟩,
    ⟨_, inExM (.sw 2 0 0) 4 0x300 5, rfl, rfl, by decide, fun d h => by cases h; decide, inv_full.idEx,
      rfl, by decide, by decide, by decide, by decide⟩⟩

theorem witness_StepNeverGetsStuck : Inv (full .x32) ∧ (full .x32).status = .running :=
  ⟨inv_full, rfl⟩

theorem witness_ResetSetsTheTable :
    ∃ t : CoreState .x32, t = (full .x32).resetWith { entryPc := 0x100, xInit := Vector.replicate 31 7 } :=
  ⟨_, rfl⟩

/-- A machine the host can build, with memory and an entry address. -/
theorem witness_InvariantHoldsAtReset :
    (∃ s, construct .x32 (full .x32).cfg (full .x32).mem
      { entryPc := 0x10, xInit := Vector.replicate 31 7 } = .ok s) ∧ (0x10#32).toNat % 2 = 0 :=
  ⟨⟨_, rfl⟩, by decide⟩

theorem witness_EveryCycleKeepsTheInvariant :
    Inv (full .x32) ∧ ∃ t, step { xlen := .x32, core := full .x32 } = .next t :=
  ⟨inv_full, by obtain ⟨t, h⟩ := advances_full; exact ⟨_, h.2.1⟩⟩

theorem witness_ParametersNeverChange :
    ∃ t, step { xlen := .x32, core := full .x32 } = .next t :=
  witness_EveryCycleKeepsTheInvariant.2

theorem witness_CountersStayInTheirBounds :
    Inv (full .x32) ∧ ∃ t, step { xlen := .x32, core := full .x32 } = .next t :=
  witness_EveryCycleKeepsTheInvariant

/-- A program of one instruction and the sentinel. -/
def oneWord : List InstrWord := [0x00500093#32, 0xDDFFCCFF#32]

/-- The core of a program of one instruction, in the given mode. -/
def oneWordCore (pipelining : Bool) : CoreState .x32 :=
  CoreState.build { (testCore .x32 []).cfg with pipelining := pipelining } (imageOfWords [] 0 oneWord)
    { entryPc := 0, xInit := Vector.replicate 31 0 }

/-- The shortest run in each mode. -/
theorem witness_CycleCountAtTheEndOfARun :
    (∃ t, stepN 5 { xlen := .x32, core := oneWordCore true } = .next { xlen := .x32, core := t } ∧
      decide (t.status = .ended ∧ 1 ≤ t.instructionsIssued) = true) ∧
    (∃ t, stepN 6 { xlen := .x32, core := oneWordCore false } = .next { xlen := .x32, core := t } ∧
      decide (t.status = .ended ∧ 1 ≤ t.instructionsIssued) = true) :=
  ⟨exists_stepN 5 _ _ (by decide +kernel), exists_stepN 6 _ _ (by decide +kernel)⟩

theorem witness_StepsRunTheDecodedInstruction :
    (oneWordCore false).status = .running ∧ (oneWordCore false).betweenInstructions ∧
    (Instr.addi 1 0 5).wellFormed .x32 = true ∧
    encode (.addi 1 0 5) ≠ (oneWordCore false).cfg.sentinel ∧ (oneWordCore false).pc.toNat % 4 = 0 ∧
    (∀ k, k < 4 → readByte (oneWordCore false).cfg (oneWordCore false).mem
      ((oneWordCore false).pc.toNat + k) = (encodeBytes (.addi 1 0 5))[k]?) ∧
    (Instr.ld 3 1 8).wellFormed State.reset.xlen = true ∧
    encode (.ld 3 1 8) ≠ State.reset.core.cfg.sentinel :=
  ⟨rfl, ⟨rfl, fun _ => ⟨rfl, rfl⟩⟩, by decide, by decide, by decide, by decide, by decide, by decide⟩

theorem witness_NonPipelinedCyclesAreSequentialExecution : (oneWordCore false).betweenInstructions :=
  ⟨rfl, fun _ => ⟨rfl, rfl⟩⟩

/-- `addi x1, x0, 5` in `IF_ID` and `add x3, x2, x2`, which does not read `x1`, at `pc`. -/
def hazardCore : CoreState .x32 :=
  { withRegs (testCore .x32 [0x00500093#32, 0x002101B3#32]) [(2, 9)] with
    pc := 4#32
    ifId := some { pc := 0#32, word := 0x00500093#32 }
    cycles := 1 }

theorem witness_HazardFreeInstructionsRunAsInSequence :
    hazardCore.status = .running ∧ hazardCore.cfg.pipelining = true ∧
    hazardCore.fetches 0x002101B3#32 ∧ decodeInstr .x32 0x002101B3#32 = .ok (.add 3 2 2) ∧
    hazardCore.hazardFree ((Instr.add 3 2 2).fields .x32) = true ∧
    hazardCore.hazardFree ((Instr.add 3 1 2).fields .x32) = false ∧
    (∃ m', step { xlen := .x32, core := hazardCore } = .next { xlen := .x32, core := m' } ∧
      ∃ d', stepN 4 { xlen := .x32, core := m'.stopFetch } = .next { xlen := .x32, core := d' } ∧
        decide (d'.status = .ended) = true) ∧
    (∃ d, stepN 4 { xlen := .x32, core := hazardCore.stopFetch } = .next { xlen := .x32, core := d } ∧
      decide (d.status = .ended) = true) := by
  refine ⟨rfl, rfl, ⟨by decide, by decide, by decide⟩, by decide, by decide, by decide, ?_,
    exists_stepN 4 _ _ (by decide +kernel)⟩
  obtain ⟨t, h1, h2⟩ := exists_stepN 1 hazardCore
    (fun t => (cyclesFrom t.stopFetch 4).any
      (fun d : CoreState .x32 => decide (d.status = RunStatus.ended))) (by decide +kernel)
  refine ⟨t, ?_, exists_stepN 4 _ _ h2⟩
  simp only [stepN] at h1
  split at h1
  · next u hu => injection h1 with h1; rw [hu, h1]
  · simp at h1
  · simp at h1

theorem witness_OneInstructionProgramEndsInFiveCycles :
    (oneWordCore true).status = .running ∧ (oneWordCore true).cfg.pipelining = true ∧
    (oneWordCore true).empty = true ∧ (oneWordCore true).fetches 0x00500093#32 ∧
    decodeInstr .x32 0x00500093#32 = .ok (.addi 1 0 5) ∧
    ({ oneWordCore true with pc := (oneWordCore true).pc + 4#XLen.x32.bits } : CoreState .x32).fetchWord =
      .ok (oneWordCore true).cfg.sentinel :=
  ⟨rfl, rfl, rfl, ⟨by decide, by decide, by decide⟩, by decide, by decide⟩

theorem witness_DelaySlotIsFetchedAndKept :
    (∃ t, advances (full .x32) t) ∧ (full .x32).cfg.pipelining = true ∧
    (full .x32).fetches 0x00600313#32 ∧
    ∃ c, (full .x32).decodeSignals = some c ∧ c.branchTaken = true :=
  ⟨advances_full, rfl, ⟨by decide, by decide, by decide⟩, _, rfl, by decide⟩

end Sys2Proof
end

section
/-!
The statements about the state (`10_state.md`), settled.
-/

namespace Sys2Proof.Machine

/-- Settles O31, from the register file's laws: a write is read back at the register written, unless
that is `x[0]`, and at no other. -/
theorem registerFileReadsWhatWasWritten : Obligations.RegisterFileReadsWhatWasWritten := by
  unfold Obligations.RegisterFileReadsWhatWasWritten
  intro x m r r' v
  refine ⟨readReg_zero m, writeReg_zero m v, fun hr => ?_, readReg_writeReg_of_ne m v⟩
  rw [readReg_writeReg_self, if_neg hr]

end Sys2Proof.Machine
end

section
/-!
The statements about the encoding of the opcode and of the illegal words (`30_encoding.md`), settled.
-/

namespace Sys2Proof

/-! ## The opcode map (rules R52, R64) -/

/-- The map of rule R52 on the number the seven bits make. -/
theorem formatOf_eq_ite (op : BitVec 7) :
    formatOf op =
      if op.toNat = 0x33 then .R
      else if op.toNat ∈ [0x13, 0x03, 0x67] then .I
      else if op.toNat = 0x23 then .S
      else if op.toNat = 0x63 then .B
      else if op.toNat ∈ [0x37, 0x17] then .U
      else if op.toNat = 0x6F then .J
      else .Unknown := by
  unfold formatOf
  split
  case h_10 => simp_all [← BitVec.toNat_inj]
  all_goals rfl

/-- Every opcode of the map ends in `11`: no word of the compressed space has one (rule R65). -/
theorem toNat_mod_four_of_known {op : BitVec 7} (h : formatOf op ≠ .Unknown) : op.toNat % 4 = 3 := by
  unfold formatOf at h
  split at h
  case h_10 => exact absurd rfl h
  all_goals rfl

/-! ## The illegal words (rules R63, R64, R65) -/

/-- A word is illegal exactly when its opcode is outside the map: a known opcode without a row is the
safe no-op instead (rule R66). -/
theorem decodeInstr_illegal_iff (x : XLen) (w : InstrWord) :
    decodeInstr x w = .error .illegalInstruction ↔ formatOf (opcodeOf w) = .Unknown := by
  constructor
  · intro h
    by_contra known
    rw [decodeInstr_of_known known] at h
    split at h <;> simp at h
  · intro unknown
    rw [decodeInstr, decodeFields_of_unknown unknown]

/-- Settles O6: the map on opcodes, read at the word's low seven bits. -/
theorem opcodeMapHasNineEntries : Obligations.OpcodeMapHasNineEntries := by
  unfold Obligations.OpcodeMapHasNineEntries
  intro w
  rw [formatOf_eq_ite, opcodeOf_toNat]

/-- Settles O13: illegality is having an `Unknown` format, which each excluded opcode has, and each
opcode that does not end in `11`. -/
theorem illegalWordsAreThoseOfUnknownOpcodes : Obligations.IllegalWordsAreThoseOfUnknownOpcodes := by
  unfold Obligations.IllegalWordsAreThoseOfUnknownOpcodes
  intro x w
  simp only [decodeInstr_illegal_iff, true_and]
  constructor
  · generalize opcodeOf w = op
    revert op
    decide
  · intro compressed
    by_contra known
    have ends_in_11 := toNat_mod_four_of_known known
    rw [opcodeOf_toNat] at ends_in_11
    omega

end Sys2Proof
end

section
/-!
The statement about the decoder's immediates (`40_decoder.md`), settled.
-/

namespace Sys2Proof

/-! ## Signed numbers of concatenations and slices -/

/-- `toNat_append_add` for signed numbers: only the left part has a sign. -/
theorem toInt_append_add {n m : Nat} (a : BitVec n) (b : BitVec m) (hn : n ≠ 0) :
    (a ++ b).toInt = a.toInt * 2 ^ m + b.toNat := by
  rw [BitVec.toInt_append, if_neg (by simpa using hn), Int.mul_comm]

/-- `toNat_slice` for signed numbers, of a slice that keeps the sign bit. -/
theorem toInt_topSlice {n s len : Nat} (w : BitVec n) (hn : n = len + s) (hlen : len ≠ 0) :
    (w.extractLsb' s len).toInt = w.toInt / 2 ^ s := by
  subst hn
  have low_lt : ((w.extractLsb' 0 s).toNat : Int) < 2 ^ s := by exact_mod_cast (w.extractLsb' 0 s).isLt
  have parts : w.toInt = (w.extractLsb' 0 s).toNat + (w.extractLsb' s len).toInt * 2 ^ s := by
    rw [Int.add_comm, ← toInt_append_add _ _ hlen, BitVec.extractLsb'_append_extractLsb']
  rw [parts, Int.add_mul_ediv_right _ _ (by positivity), Int.ediv_eq_zero_of_lt (by omega) low_lt,
    Int.zero_add]

/-! ## Signed numbers of the immediates (rules R54 to R58) -/

theorem immI_toInt (w : InstrWord) : (immI w).toInt = w.toInt / 2 ^ 20 :=
  toInt_topSlice w rfl (by decide)

theorem immS_toInt (w : InstrWord) :
    (immS w).toInt = w.toInt / 2 ^ 25 * 2 ^ 5 + (w.toNat / 2 ^ 7 % 2 ^ 5 : Nat) := by
  rw [immS, toInt_append_add _ _ (by decide), toInt_topSlice w rfl (by decide), toNat_slice]

theorem immB_toInt (w : InstrWord) :
    (immB w).toInt = w.toInt / 2 ^ 31 * 2 ^ 12 +
      (w.toNat / 2 ^ 7 % 2 * 2 ^ 11 + w.toNat / 2 ^ 25 % 2 ^ 6 * 2 ^ 5 +
        w.toNat / 2 ^ 8 % 2 ^ 4 * 2 : Nat) := by
  have sign := toInt_topSlice (s := 31) (len := 1) w rfl (by decide)
  simp (disch := decide) only [immB, toInt_append_add, sign, toNat_slice, BitVec.toNat_ofNat]
  omega

theorem immU_toInt (w : InstrWord) : (immU w).toInt = w.toInt / 2 ^ 12 * 2 ^ 12 := by
  rw [immU, toInt_append_add _ _ (by decide), toInt_topSlice w rfl (by decide)]
  exact Int.add_zero _

theorem immJ_toInt (w : InstrWord) :
    (immJ w).toInt = w.toInt / 2 ^ 31 * 2 ^ 20 +
      (w.toNat / 2 ^ 12 % 2 ^ 8 * 2 ^ 12 + w.toNat / 2 ^ 20 % 2 * 2 ^ 11 +
        w.toNat / 2 ^ 21 % 2 ^ 10 * 2 : Nat) := by
  have sign := toInt_topSlice (s := 31) (len := 1) w rfl (by decide)
  simp (disch := decide) only [immJ, toInt_append_add, sign, toNat_slice, BitVec.toNat_ofNat]
  omega

/-- Settles O8: the record's immediate is the layout's of its format, sign extension keeps the signed
number, and each layout is a top slice of the word followed by slices without a sign. -/
theorem immediatesHaveTheirSignedValue : Obligations.ImmediatesHaveTheirSignedValue := by
  unfold Obligations.ImmediatesHaveTheirSignedValue
  intro x w f decoded
  obtain ⟨-, rfl⟩ := decodeFields_ok decoded
  generalize formatOf (opcodeOf w) = format
  refine ⟨?R, ?I, ?S, ?B, ?U, ?J⟩ <;> rintro rfl
  case R => exact BitVec.toInt_zero
  case I => exact (sext_toInt x _ (by decide)).trans (immI_toInt w)
  case S => exact (sext_toInt x _ (by decide)).trans (immS_toInt w)
  case B => exact (sext_toInt x _ (by decide)).trans (immB_toInt w)
  case U => exact (sext_toInt x _ (by decide)).trans (immU_toInt w)
  case J => exact (sext_toInt x _ (by decide)).trans (immJ_toInt w)

end Sys2Proof
end

section
/-!
The statements about the ALU (`41_alu.md`), settled.
-/

namespace Sys2Proof.Machine

variable {x : XLen}

/-! ## Values of the results (rules R91, R92, R96 to R98) -/

theorem aluAdd_toNat (a b : Word x) : (aluAdd a b).toNat = (a.toNat + b.toNat) % 2 ^ x.bits :=
  BitVec.toNat_add a b

theorem aluSub_toNat (a b : Word x) :
    ((aluSub a b).toNat : Int) = ((a.toNat : Int) - b.toNat) % 2 ^ x.bits := by
  have mod_nonneg : 0 ≤ ((a.toNat : Int) - b.toNat) % ((2 ^ x.bits : Nat) : Int) :=
    Int.emod_nonneg _ (by positivity)
  rw [aluSub_eq_ofInt, BitVec.toNat_ofInt, Int.toNat_of_nonneg mod_nonneg, Nat.cast_pow, Nat.cast_two]

theorem aluSll_toNat (a b : Word x) :
    (aluSll a b).toNat = a.toNat * 2 ^ (b.toNat % x.bits) % 2 ^ x.bits := by
  rw [aluSll_eq_ofNat, BitVec.toNat_ofNat]

theorem aluSrl_toNat (a b : Word x) : (aluSrl a b).toNat = a.toNat / 2 ^ (b.toNat % x.bits) := by
  rw [aluSrl, shiftAmount, BitVec.toNat_ushiftRight, Nat.shiftRight_eq_div_pow]

/-- The quotient is itself the signed value: it needs no reduction modulo `2 ^ XLEN`. -/
theorem aluSra_toInt (a b : Word x) : (aluSra a b).toInt = a.toInt / 2 ^ (b.toNat % x.bits) := by
  rw [aluSra, shiftAmount, BitVec.toInt_sshiftRight, Int.shiftRight_eq_div_pow, Nat.cast_pow,
    Nat.cast_two]

/-! ## Bits of the logical results (rules R93 to R95) -/

theorem getLsbD_aluAnd (a b : Word x) (i : Nat) :
    (aluAnd a b).getLsbD i = true ↔ a.getLsbD i = true ∧ b.getLsbD i = true := by
  rw [aluAnd, BitVec.getLsbD_and, Bool.and_eq_true]

theorem getLsbD_aluOr (a b : Word x) (i : Nat) :
    (aluOr a b).getLsbD i = true ↔ a.getLsbD i = true ∨ b.getLsbD i = true := by
  rw [aluOr, BitVec.getLsbD_or, Bool.or_eq_true]

theorem getLsbD_aluXor (a b : Word x) (i : Nat) :
    (aluXor a b).getLsbD i = true ↔ a.getLsbD i ≠ b.getLsbD i := by
  rw [aluXor, BitVec.getLsbD_xor, bne_iff_ne]

/-! ## The comparisons (rules R99, R100) -/

theorem boolWord_toNat {c : Bool} {p : Prop} [Decidable p] (h : c = true ↔ p) :
    (boolWord c : Word x).toNat = if p then 1 else 0 := by
  rw [boolWord_eq h]
  split
  · exact Nat.mod_eq_of_lt (Nat.one_lt_two_pow x.bits_pos.ne')
  · exact BitVec.toNat_zero

theorem aluSlt_toNat (a b : Word x) : (aluSlt a b).toNat = if a.toInt < b.toInt then 1 else 0 :=
  boolWord_toNat BitVec.slt_iff_toInt_lt

theorem aluSltu_toNat (a b : Word x) : (aluSltu a b).toNat = if a.toNat < b.toNat then 1 else 0 :=
  boolWord_toNat BitVec.ult_iff_lt

/-! ## The statements -/

/-- Settles O3: at the amount of rule R103, a left shift multiplies before the reduction modulo
`2 ^ XLEN`, and a right shift is floor division of the unsigned or of the signed value. -/
theorem shiftsUseTheAmountModuloXlen : Obligations.ShiftsUseTheAmountModuloXlen := by
  unfold Obligations.ShiftsUseTheAmountModuloXlen
  intro x a b
  exact ⟨aluSll a b, aluSrl a b, aluSra a b, rfl, rfl, rfl,
    aluSll_toNat a b, aluSrl_toNat a b, aluSra_toInt a b⟩

/-- Settles O1: the sum and the difference of the values, reduced modulo `2 ^ XLEN`. -/
theorem additionAndSubtractionWrap : Obligations.AdditionAndSubtractionWrap := by
  unfold Obligations.AdditionAndSubtractionWrap
  intro x a b
  exact ⟨⟨aluAdd a b, rfl, aluAdd_toNat a b⟩, ⟨aluSub a b, rfl, aluSub_toNat a b⟩⟩

/-- Settles O2: each bit of a logical result is decided by the operands' bits at its own place. -/
theorem logicalOperationsAreBitwise : Obligations.LogicalOperationsAreBitwise := by
  unfold Obligations.LogicalOperationsAreBitwise
  intro x a b
  exact ⟨aluAnd a b, aluOr a b, aluXor a b, rfl, rfl, rfl,
    fun i _ => ⟨getLsbD_aluAnd a b i, getLsbD_aluOr a b i, getLsbD_aluXor a b i⟩⟩

/-- Settles O4: the comparison's decision as a word, whose value is 1 or 0 since `XLEN` is positive. -/
theorem comparisonsGiveOneOrZero : Obligations.ComparisonsGiveOneOrZero := by
  unfold Obligations.ComparisonsGiveOneOrZero
  intro x a b
  exact ⟨aluSlt a b, aluSltu a b, rfl, rfl, aluSlt_toNat a b, aluSltu_toNat a b⟩

end Sys2Proof.Machine
end

section
/-!
The statements about the control-signal generator (`42_control.md`), settled.
-/

namespace Sys2Proof.Machine

variable {x : XLen}

/-! ## The generator, opcode by opcode (rules R112 to R120) -/

section Generate
variable {f : DecodedFields x} (pc a b : Word x)

theorem generate_op (h : f.opcode = 0x33#7) :
    generate f pc a b = (opTable f.funct3 f.funct7).elim nopSignals aluSignals := by
  simp only [generate, h]
  cases opTable f.funct3 f.funct7 <;> rfl

theorem generate_opImm (h : f.opcode = 0x13#7) :
    generate f pc a b = (opImmTable x f.funct3 f.funct7).elim nopSignals aluSignals := by
  simp only [generate, h]
  cases opImmTable x f.funct3 f.funct7 <;> rfl

theorem generate_load (h : f.opcode = 0x03#7) :
    generate f pc a b = (loadWidth x f.funct3).elim nopSignals fun _ => loadSignals := by
  simp only [generate, h]
  cases loadWidth x f.funct3 <;> rfl

theorem generate_store (h : f.opcode = 0x23#7) :
    generate f pc a b = (storeWidth x f.funct3).elim nopSignals fun _ => storeSignals := by
  simp only [generate, h]
  cases storeWidth x f.funct3 <;> rfl

theorem generate_branch (h : f.opcode = 0x63#7) : generate f pc a b = generateBranch f pc a b := by
  simp only [generate, h]

theorem generate_lui (h : f.opcode = 0x37#7) : generate f pc a b = aluSignals .PASSTHROUGH := by
  simp only [generate, h]

theorem generate_auipc (h : f.opcode = 0x17#7) : generate f pc a b = aluSignals .ADD := by
  simp only [generate, h]

theorem generate_jal (h : f.opcode = 0x6F#7) :
    generate f pc a b = jumpSignals (pc + f.immediate) := by
  simp only [generate, h]

theorem generate_jalr (h : f.opcode = 0x67#7) :
    generate f pc a b =
      if f.funct3 = 0#3 then jumpSignals (clearBit0 (a + f.immediate)) else nopSignals := by
  simp only [generate, h]

/-- A branch row's bundle, whatever its comparison gives (rule R117). -/
theorem generateBranch_of_row {op : AluOp} {p : Polarity} {c : Word x}
    (row : branchTable f.funct3 = some (op, p)) (compared : execute a b op = .ok c) :
    generateBranch f pc a b = branchSignals op (p.holds c) (pc + f.immediate) := by
  simp only [generateBranch, row, compared]

theorem generateBranch_of_no_row (row : branchTable f.funct3 = none) :
    generateBranch f pc a b = nopSignals := by
  simp only [generateBranch, row]

end Generate

/-! ## The safe no-op bundle is no row's (rule R121) -/

theorem aluSignals_ne_nop (op : AluOp) : (aluSignals op : ControlSignals x) ≠ nopSignals := by
  simp [aluSignals, nopSignals]

theorem loadSignals_ne_nop : (loadSignals : ControlSignals x) ≠ nopSignals := by
  simp [loadSignals, nopSignals]

theorem storeSignals_ne_nop : (storeSignals : ControlSignals x) ≠ nopSignals := by
  simp [storeSignals, nopSignals]

theorem jumpSignals_ne_nop (target : Word x) : jumpSignals target ≠ nopSignals := by
  simp [jumpSignals, nopSignals]

/-- Only its comparison tells a branch that is not taken, with target 0, from the no-op. -/
theorem branchSignals_ne_nop {op : AluOp} (h : op ≠ .PASSTHROUGH) (taken : Bool) (target : Word x) :
    branchSignals op taken target ≠ nopSignals := by
  simp [branchSignals, nopSignals, h]

theorem elim_nop_eq_nop_iff {α : Type} {row : Option α} {bundle : α → ControlSignals x}
    (h : ∀ v, bundle v ≠ nopSignals) : row.elim nopSignals bundle = nopSignals ↔ row = none := by
  cases row <;> simp [h]

theorem branchTable_op {f3 : BitVec 3} {op : AluOp} {p : Polarity}
    (row : branchTable f3 = some (op, p)) : op = .SUB ∨ op = .SLT ∨ op = .SLTU := by
  unfold branchTable at row
  split at row <;> simp_all

theorem generateBranch_eq_nop_iff (f : DecodedFields x) (pc a b : Word x) :
    generateBranch f pc a b = nopSignals ↔ branchTable f.funct3 = none := by
  cases row : branchTable f.funct3 with
  | none => simp [generateBranch_of_no_row pc a b row]
  | some opTest =>
    obtain ⟨op, test⟩ := opTest
    rcases branchTable_op row with rfl | rfl | rfl <;>
      simp [generateBranch_of_row pc a b row rfl, branchSignals_ne_nop]

/-! ## The decoder's rows and the generator's tables have the same function codes (rule R62) -/

theorem funct3_cases (f3 : BitVec 3) :
    f3 = 0#3 ∨ f3 = 1#3 ∨ f3 = 2#3 ∨ f3 = 3#3 ∨ f3 = 4#3 ∨ f3 = 5#3 ∨ f3 = 6#3 ∨ f3 = 7#3 := by
  revert f3
  decide

/-- The decoder's selector of a shift-immediate reads the key of rule R114. -/
theorem shiftSelector_eq_ite (x : XLen) (f7 : BitVec 7) :
    shiftSelector x f7 =
      if shiftKey x f7 = 0#7 then some false
      else if shiftKey x f7 = 0x20#7 then some true
      else none := by
  revert f7
  cases x <;> decide

section Rows
variable (f : DecodedFields x)

theorem opRow_eq_none_iff : opRow f = none ↔ opTable f.funct3 f.funct7 = none := by
  unfold opRow
  split
  case h_1 => rcases funct3_cases f.funct3 with h | h | h | h | h | h | h | h <;> simp_all [opTable]
  case h_2 => split <;> simp_all [opTable]
  case h_3 => unfold opTable; split <;> simp_all

theorem opImmRow_eq_none_iff : opImmRow f = none ↔ opImmTable x f.funct3 f.funct7 = none := by
  unfold opImmRow opImmTable
  rcases funct3_cases f.funct3 with h | shift | h | h | h | shift | h | h
  case inr.inl | inr.inr.inr.inr.inr.inl =>
    simp only [shift, shiftSelector_eq_ite]
    split_ifs <;> simp
  all_goals simp [h]

theorem loadRow_eq_none_iff : loadRow f = none ↔ loadWidth x f.funct3 = none := by
  unfold loadRow loadWidth
  split <;> simp_all

theorem storeRow_eq_none_iff : storeRow f = none ↔ storeWidth x f.funct3 = none := by
  unfold storeRow storeWidth
  split <;> simp_all

theorem branchRow_eq_none_iff : branchRow f = none ↔ branchTable f.funct3 = none := by
  unfold branchRow branchTable
  split <;> simp_all

theorem jalrRow_eq_none_iff : jalrRow f = none ↔ f.funct3 ≠ 0#3 := by
  unfold jalrRow
  split <;> simp_all

end Rows

/-- The nine opcodes of the map (rule R52). -/
theorem opcode_of_known {op : BitVec 7} (h : formatOf op ≠ .Unknown) :
    op = 0x33#7 ∨ op = 0x13#7 ∨ op = 0x03#7 ∨ op = 0x23#7 ∨ op = 0x63#7 ∨ op = 0x37#7 ∨
      op = 0x17#7 ∨ op = 0x6F#7 ∨ op = 0x67#7 := by
  revert op
  decide

/-- Rule R121 on the record itself, whichever word it came from. -/
theorem instrOfFields_eq_none_iff {f : DecodedFields x} (known : formatOf f.opcode ≠ .Unknown)
    (pc a b : Word x) : instrOfFields f = none ↔ generate f pc a b = nopSignals := by
  rcases opcode_of_known known with op | opImm | load | store | branch | lui | auipc | jal | jalr
  · simp only [instrOfFields, op, opRow_eq_none_iff, generate_op pc a b op,
      elim_nop_eq_nop_iff aluSignals_ne_nop]
  · simp only [instrOfFields, opImm, opImmRow_eq_none_iff, generate_opImm pc a b opImm,
      elim_nop_eq_nop_iff aluSignals_ne_nop]
  · simp only [instrOfFields, load, loadRow_eq_none_iff, generate_load pc a b load,
      elim_nop_eq_nop_iff fun _ => loadSignals_ne_nop]
  · simp only [instrOfFields, store, storeRow_eq_none_iff, generate_store pc a b store,
      elim_nop_eq_nop_iff fun _ => storeSignals_ne_nop]
  · simp only [instrOfFields, branch, branchRow_eq_none_iff, generate_branch pc a b branch,
      generateBranch_eq_nop_iff]
  · simp [instrOfFields, lui, generate_lui pc a b lui, aluSignals_ne_nop]
  · simp [instrOfFields, auipc, generate_auipc pc a b auipc, aluSignals_ne_nop]
  · simp [instrOfFields, jal, generate_jal pc a b jal, jumpSignals_ne_nop]
  · simp [instrOfFields, jalr, jalrRow_eq_none_iff, generate_jalr pc a b jalr, jumpSignals_ne_nop]

/-! ## Operations, decisions and targets of the rows (rules R112, R113, R117, R118, R120) -/

/-- The ten rows of rules R112 and R113 by the numbers of their function codes. -/
def opTriples : List (Nat × Nat × AluOp) :=
  [(0, 0, .ADD), (0, 0x20, .SUB), (1, 0, .SLL), (2, 0, .SLT), (3, 0, .SLTU), (4, 0, .XOR),
    (5, 0, .SRL), (5, 0x20, .SRA), (6, 0, .OR), (7, 0, .AND)]

theorem opTable_of_mem_opTriples : ∀ row ∈ opTriples,
    opTable (BitVec.ofNat 3 row.1) (BitVec.ofNat 7 row.2.1) = some row.2.2 := by
  decide

/-- The bundle of a branch's word, from its row of rule R117. -/
theorem generate_encodeB {f3 : BitVec 3} {op : AluOp} {p : Polarity} (rs1 rs2 : RegIndex)
    {imm : BitVec 13} (pc : Word x) {a b c : Word x} (row : branchTable f3 = some (op, p))
    (compared : execute a b op = .ok c) (even : imm.getLsbD 0 = false) :
    generate (fieldsOfWord x (encodeB imm rs2 rs1 f3 0x63#7)) pc a b =
      branchSignals op (p.holds c) (pc + BitVec.ofInt x.bits imm.toInt) := by
  rw [fieldsOfWord_encodeB x imm rs2 rs1 f3 rfl even, generate_branch _ _ _ rfl,
    generateBranch_of_row pc a b row compared]
  rfl

/-! ## The statements -/

/-- Settles O16: for a record of a known format the decoder has a row exactly when the generator's
table of its opcode has an entry, and no entry's bundle is the no-op. -/
theorem unlistedCombinationsGetTheNoOpBundle :
    Obligations.UnlistedCombinationsGetTheNoOpBundle := by
  unfold Obligations.UnlistedCombinationsGetTheNoOpBundle
  intro x w f pc a b decoded
  obtain ⟨known, rfl⟩ := decodeFields_ok decoded
  exact instrOfFields_eq_none_iff known pc a b

/-- Settles O18: the word's function codes are the row's, and the generator's table has the row. -/
theorem registerRegisterRowsSelectTheirOperation :
    Obligations.RegisterRegisterRowsSelectTheirOperation := by
  unfold Obligations.RegisterRegisterRowsSelectTheirOperation
  intro x w pc a b row listed opcode funct3 funct7
  have entry := opTable_of_mem_opTriples row listed
  rw [← funct3, ← funct7, BitVec.ofNat_toNat, BitVec.ofNat_toNat, BitVec.setWidth_eq,
    BitVec.setWidth_eq] at entry
  refine ⟨fieldsOfWord x w, decodeFields_of_known (by rw [opcode]; decide), ?_⟩
  rw [generate_op pc a b opcode]
  show (opTable (funct3Of w) (funct7Of w)).elim _ _ = _
  rw [entry]
  rfl

/-- Settles O19: each branch's word has its row's bundle, whose decision is the comparison of the
operands. -/
theorem branchBundleComparesTheOperands : Obligations.BranchBundleComparesTheOperands := by
  unfold Obligations.BranchBundleComparesTheOperands
  rintro x rs1 rs2 imm pc a b _ row listed even rfl
  simp only [List.mem_cons, List.not_mem_nil, or_false] at listed
  have bundle : ∃ taken, generate (row.1.fields x) pc a b =
      branchSignals row.2.1 taken (pc + BitVec.ofInt x.bits imm.toInt) ∧
        (taken = true ↔ row.2.2) := by
    rcases listed with rfl | rfl | rfl | rfl | rfl | rfl
    · exact ⟨_, generate_encodeB rs1 rs2 pc rfl rfl even, takenEq_iff a b⟩
    · exact ⟨_, generate_encodeB rs1 rs2 pc rfl rfl even, takenNe_iff a b⟩
    · exact ⟨_, generate_encodeB rs1 rs2 pc rfl rfl even, takenLt_iff a b⟩
    · exact ⟨_, generate_encodeB rs1 rs2 pc rfl rfl even, takenGe_iff a b⟩
    · exact ⟨_, generate_encodeB rs1 rs2 pc rfl rfl even, takenLtu_iff a b⟩
    · exact ⟨_, generate_encodeB rs1 rs2 pc rfl rfl even, takenGeu_iff a b⟩
  obtain ⟨taken, bundle, decision⟩ := bundle
  rw [bundle]
  exact ⟨decision, rfl, rfl, rfl, rfl, rfl⟩

/-- Settles O20: both words have the bundle of a jump; clearing bit 0 rounds JALR's sum down to an
even number. -/
theorem jumpBundlesAreTaken : Obligations.JumpBundlesAreTaken := by
  unfold Obligations.JumpBundlesAreTaken
  intro x rd rs1 imm21 imm12 pc a b even
  constructor
  · rw [Instr.fields, encode, fieldsOfWord_encodeJ x imm21 rd rfl even, generate_jal _ _ _ rfl]
    rfl
  · refine ⟨clearBit0 (a + sext x imm12), ?_, ?_⟩
    · rw [Instr.fields, encode, fieldsOfWord_encodeI x imm12 rs1 _ rd rfl, generate_jalr _ _ _ rfl]
      rfl
    · rw [clearBit0_toNat, BitVec.toNat_add]
      rfl

end Sys2Proof.Machine
end

section
/-!
The statements about the pipeline's stages and the clock edge (`43_pipeline.md`), settled.
-/

namespace Sys2Proof.Machine

variable {x : XLen} {m : CoreState x}

/-! ## Fetch and `pc` at the edge (rules R134 to R137) -/

/-- Fetch's evaluate phase, where it completes. -/
theorem fetchStage_ok {f : FetchOut x} (h : fetchStage m = .ok f) :
    (m.fetchEnabled = false ∧ f = { ifId := none, sawSentinel := false }) ∨
    (m.readsSentinel ∧ f = { ifId := none, sawSentinel := true }) ∨
    (∃ w, m.fetches w ∧ f = { ifId := some { pc := m.pc, word := w }, sawSentinel := false }) := by
  rcases fetchStage_cases m with ⟨off, he⟩ | ⟨_, _, _, he⟩ | ⟨sentinel, he⟩ | ⟨w, fetched, he⟩ <;>
    rw [he] at h
  · exact .inl ⟨off, (Except.ok.inj h).symm⟩
  · simp at h
  · exact .inr (.inl ⟨sentinel, (Except.ok.inj h).symm⟩)
  · exact .inr (.inr ⟨w, fetched, (Except.ok.inj h).symm⟩)

theorem fetchStage_sawSentinel_iff {f : FetchOut x} (h : fetchStage m = .ok f) :
    f.sawSentinel = true ↔ m.readsSentinel := by
  rcases fetchStage_ok h with ⟨off, rfl⟩ | ⟨sentinel, rfl⟩ | ⟨w, fetched, rfl⟩
  · simp [not_sentinel_of_disabled off]
  · simp [sentinel]
  · simp [not_sentinel_of_fetches fetched]

/-- `IF_ID` becomes valid exactly when Fetch fetched an instruction. -/
theorem fetchStage_ifId_isSome_iff {f : FetchOut x} (h : fetchStage m = .ok f) :
    f.ifId.isSome = true ↔ ∃ w, m.fetches w := by
  rcases fetchStage_ok h with ⟨off, rfl⟩ | ⟨sentinel, rfl⟩ | ⟨w, fetched, rfl⟩
  · simp [not_fetches_of_disabled off]
  · simp [not_fetches_of_sentinel sentinel]
  · simpa using ⟨w, fetched⟩

theorem nextPc_of_held {f : FetchOut x} (redirect : Option (Word x))
    (held : m.fetchStopped = true ∨ f.sawSentinel = true) : nextPc m f redirect = m.pc :=
  if_pos (by simpa using held)

/-- The redirect wins over the increment. -/
theorem nextPc_of_not_held {f : FetchOut x} (redirect : Option (Word x))
    (free : ¬ (m.fetchStopped = true ∨ f.sawSentinel = true)) :
    nextPc m f redirect = redirect.getD (if f.ifId.isSome then m.pc + 4#x.bits else m.pc) := by
  cases redirect <;> exact if_neg (by simpa using free)

/-! ## Decode (rules R139 to R142) -/

theorem decodeStage_of_bubble (h : m.ifId = none) :
    decodeStage m = .ok { idEx := none, redirect := none, diag := m.diag } := by
  simp only [decodeStage, h]

theorem decodeStage_of_issue {i : IfId x} {f : DecodedFields x} (h : m.ifId = some i)
    (decoded : decodeFields x i.word = .ok f) : decodeStage m = .ok (decodeIssue m i f) := by
  simp only [decodeStage, h, decoded]

/-- Decode redirects to the target of a taken transfer, and only then. -/
theorem decodeStage_redirect {d : DecodeOut x} (h : decodeStage m = .ok d) :
    d.redirect = m.decodeSignals.bind fun c =>
      if c.branchTaken then some c.branchTarget else none := by
  rcases decodeStage_cases m with ⟨bubble, he⟩ | ⟨_, _, _, he⟩ | ⟨i, valid, _, decoded, he⟩ <;>
    rw [he] at h
  · rw [← Except.ok.inj h, CoreState.decodeSignals, bubble]
    rfl
  · simp at h
  · simp only [← Except.ok.inj h, CoreState.decodeSignals, valid, decoded]
    rfl

theorem operand1_eq_ite (m : CoreState x) (f : DecodedFields x) :
    m.operand1 f = if f.format ∈ [.R, .I, .S, .B] then m.readReg f.rs1 else 0 := by
  unfold CoreState.operand1
  cases f.format <;> rfl

theorem operand2_eq_ite (m : CoreState x) (f : DecodedFields x) :
    m.operand2 f = if f.format ∈ [.R, .S, .B] then m.readReg f.rs2 else 0 := by
  unfold CoreState.operand2
  cases f.format <;> rfl

/-! ## Execute's operands, opcode by opcode (rule R144) -/

section Operands
variable {d : IdEx x}

theorem aluOperands_registers (h : d.fields.opcode ∈ [0x33#7, 0x63#7]) :
    aluOperands d = .ok (d.rs1Value, d.rs2Value) := by
  simp only [List.mem_cons, List.not_mem_nil, or_false] at h
  rcases h with h | h <;> simp only [aluOperands, h]

theorem aluOperands_register_immediate (h : d.fields.opcode ∈ [0x13#7, 0x03#7, 0x23#7]) :
    aluOperands d = .ok (d.rs1Value, d.fields.immediate) := by
  simp only [List.mem_cons, List.not_mem_nil, or_false] at h
  rcases h with h | h | h <;> simp only [aluOperands, h]

theorem aluOperands_lui (h : d.fields.opcode = 0x37#7) :
    aluOperands d = .ok (0, d.fields.immediate) := by
  simp only [aluOperands, h]
  rfl

theorem aluOperands_auipc (h : d.fields.opcode = 0x17#7) :
    aluOperands d = .ok (d.pc, d.fields.immediate) := by
  simp only [aluOperands, h]

theorem aluOperands_jump (h : d.fields.opcode ∈ [0x6F#7, 0x67#7]) :
    aluOperands d = .ok (d.pc, 4#x.bits) := by
  simp only [List.mem_cons, List.not_mem_nil, or_false] at h
  rcases h with h | h <;> simp only [aluOperands, h]

end Operands

/-! ## Memory (rules R147, R148) -/

/-- The columns of rule R147 that both widths have. -/
theorem loadWidth_of_column (x : XLen) :
    ∀ col ∈ [(0#3, 1, true), (1#3, 2, true), (2#3, 4, true), (4#3, 1, false), (5#3, 2, false)],
      loadWidth x col.1 = some col.2 := by
  cases x <;> decide

/-- The columns of rule R147 at `XLEN = 64` alone. -/
theorem loadWidth_of_column64 :
    ∀ col ∈ [(3#3, 8, true), (6#3, 4, false)], loadWidth .x64 col.1 = some col.2 := by
  decide

/-- The sizes of rule R148 that both widths have. -/
theorem storeWidth_of_column (x : XLen) :
    ∀ col ∈ [(0#3, 1), (1#3, 2), (2#3, 4)], storeWidth x col.1 = some col.2 := by
  cases x <;> decide

section Memory
variable {e : ExM x}

theorem loadedValue_of_not_load (h : e.ctrl.memRead = false) : loadedValue m e = .ok 0 :=
  if_neg (by simp [h])

/-- A load's value is what the data memory answers in the column of its `funct3`. -/
theorem dmemRead_of_loadedValue {v : Word x} {n : Nat} {signExtend : Bool}
    (load : e.ctrl.memRead = true) (column : loadWidth x e.fields.funct3 = some (n, signExtend))
    (h : loadedValue m e = .ok v) : dmemRead m.cfg m.mem e.aluResult n signExtend = .ok v := by
  simp only [loadedValue, load, if_true, column] at h
  split at h
  · next read => rw [read, Except.ok.inj h]
  · simp at h

theorem nextMem_of_not_store {st : Option (PendingStore x)} (no_store : e.ctrl.memWrite = false)
    (h : pendingStore m e = .ok st) : nextMem m st = m.mem := by
  rw [pendingStore, if_neg (by simp [no_store])] at h
  rw [← Except.ok.inj h, nextMem]

/-- A store the data memory accepted is committed with the size of its `funct3`. -/
theorem nextMem_of_store {st : Option (PendingStore x)} {n : Nat} (store : e.ctrl.memWrite = true)
    (size : storeWidth x e.fields.funct3 = some n) (h : pendingStore m e = .ok st) :
    nextMem m st = dmemWrite m.mem e.aluResult n e.storeData := by
  simp only [pendingStore, store, if_true, size] at h
  split at h
  · rw [← Except.ok.inj h, nextMem]
  · simp at h

end Memory

/-! ## WriteBack (rule R150) -/

@[simp] theorem clockEdge_readReg (m : CoreState x) (f : FetchOut x) (d : DecodeOut x)
    (e : Option (ExM x)) (w : MemoryOut x) (r : RegIndex) :
    (clockEdge m f d e w).readReg r = (writeBack m).readReg r :=
  readReg_congr rfl r

theorem readReg_writeBack_self {w : MWb x} (valid : m.mWb = some w)
    (writes : w.ctrl.regWrite = true) :
    (writeBack m).readReg w.rd = if w.rd = 0#5 then 0 else w.value := by
  rw [writeBack_some valid, if_pos writes, readReg_writeReg_self]
  rfl

theorem readReg_writeBack_of_other {w : MWb x} {r : RegIndex} (valid : m.mWb = some w)
    (other : r ≠ w.rd ∨ w.ctrl.regWrite = false) : (writeBack m).readReg r = m.readReg r := by
  rw [writeBack_some valid]
  split
  · next writes => exact readReg_writeReg_of_ne m _ (other.resolve_right (by simp [writes]))
  · rfl

/-! ## The statements -/

/-- Settles O37, with the cases of rule R137 in their order: held, redirected, advanced, unchanged. -/
theorem programCounterAtTheClockEdge : Obligations.ProgramCounterAtTheClockEdge := by
  unfold Obligations.ProgramCounterAtTheClockEdge
  intro x m t h
  obtain ⟨-, f, d, e, w, cycle⟩ := advances_iff.1 h
  obtain rfl := cycle.edge
  have redirect := decodeStage_redirect cycle.decode
  rw [← fetchStage_sawSentinel_iff cycle.fetch, clockEdge_pc]
  refine ⟨nextPc_of_held _, fun free => ?_⟩
  rw [nextPc_of_not_held _ free]
  refine ⟨fun c signals taken => by simp [redirect, signals, taken], fun not_taken => ?_⟩
  have no_redirect : d.redirect = none := by
    rw [redirect]
    cases signals : m.decodeSignals with
    | none => rfl
    | some c => simp [not_taken c signals]
  have fetched_iff := fetchStage_ifId_isSome_iff cycle.fetch
  rw [no_redirect, Option.getD_none]
  refine ⟨fun fetched => if_pos (fetched_iff.2 fetched), fun off => if_neg fun latched => ?_⟩
  obtain ⟨word, fetched⟩ := fetched_iff.1 latched
  exact not_fetches_of_disabled off word fetched

/-- Settles O38: Decode's evaluate phase is a function of the core at the start of the cycle, so its
register reads come before the write of the same edge. -/
theorem decodeReadsTheOldRegisters : Obligations.DecodeReadsTheOldRegisters := by
  unfold Obligations.DecodeReadsTheOldRegisters
  intro x m t h
  obtain ⟨-, f, d, e, w, cycle⟩ := advances_iff.1 h
  obtain rfl := cycle.edge
  constructor
  · intro i fields valid decoded
    obtain rfl := Except.ok.inj (cycle.decode.symm.trans (decodeStage_of_issue valid decoded))
    exact ⟨_, rfl, rfl, rfl, operand1_eq_ite m fields, operand2_eq_ite m fields, rfl,
      by simp [valid]⟩
  · intro bubble
    obtain rfl := Except.ok.inj (cycle.decode.symm.trans (decodeStage_of_bubble bubble))
    exact ⟨rfl, by simp [bubble]⟩

/-- Settles O39: the cycle completed, so the opcode selected operands and the ALU answered. -/
theorem executeSelectsItsOperandsByOpcode : Obligations.ExecuteSelectsItsOperandsByOpcode := by
  unfold Obligations.ExecuteSelectsItsOperandsByOpcode
  intro x m t h
  obtain ⟨-, f, dOut, e, w, cycle⟩ := advances_iff.1 h
  obtain rfl := cycle.edge
  rcases executeStage_ok cycle.execute with
    ⟨bubble, rfl⟩ | ⟨d, a, b, r, valid, operands, result, rfl⟩
  · simp [bubble]
  · have selected : ∀ {p q}, aluOperands d = .ok (p, q) → a = p ∧ b = q := fun row =>
      Prod.mk.inj (Except.ok.inj (operands.symm.trans row))
    refine ⟨fun d' valid' => ?_, by simp [valid]⟩
    obtain rfl := Option.some.inj (valid.symm.trans valid')
    exact ⟨a, b, _, rfl, result, rfl, rfl, rfl, rfl,
      fun op => selected (aluOperands_registers op),
      fun op => selected (aluOperands_register_immediate op),
      fun op => selected (aluOperands_lui op), fun op => selected (aluOperands_auipc op),
      fun op => selected (aluOperands_jump op)⟩

/-- Settles O40: the cycle completed, so the data memory answered the read or accepted the store in the
column of the instruction's `funct3`. -/
theorem memoryStageReadsOrCommits : Obligations.MemoryStageReadsOrCommits := by
  unfold Obligations.MemoryStageReadsOrCommits
  intro x m t h
  obtain ⟨-, f, d, eOut, w, cycle⟩ := advances_iff.1 h
  obtain rfl := cycle.edge
  rcases memoryStage_ok cycle.memory with ⟨bubble, rfl⟩ | ⟨e, v, st, valid, loaded, pending, rfl⟩
  · simp [bubble, nextMem]
  · refine ⟨fun e' valid' => ?_, by simp [valid]⟩
    obtain rfl := Option.some.inj (valid.symm.trans valid')
    refine ⟨_, rfl, rfl, rfl, rfl, rfl, ?not_load, ?load, ?load64, ?not_store, ?store, ?store64⟩
    case not_load =>
      exact fun no_load => (Except.ok.inj ((loadedValue_of_not_load no_load).symm.trans loaded)).symm
    case load =>
      exact fun col listed load funct3 =>
        dmemRead_of_loadedValue load (funct3 ▸ loadWidth_of_column x col listed) loaded
    case load64 =>
      rintro col listed rfl load funct3
      exact dmemRead_of_loadedValue load (funct3 ▸ loadWidth_of_column64 col listed) loaded
    case not_store => exact fun no_store => nextMem_of_not_store no_store pending
    case store =>
      exact fun col listed store funct3 =>
        nextMem_of_store store (funct3 ▸ storeWidth_of_column x col listed) pending
    case store64 =>
      rintro rfl store funct3
      exact nextMem_of_store store (by rw [funct3]; rfl) pending

/-- Settles O41: the edge's register file is WriteBack's, and the count is of valid `M_WB`s. -/
theorem writeBackCommitsItsRegister : Obligations.WriteBackCommitsItsRegister := by
  unfold Obligations.WriteBackCommitsItsRegister
  intro x m t h
  obtain ⟨-, f, d, e, wOut, cycle⟩ := advances_iff.1 h
  obtain rfl := cycle.edge
  simp only [sameRegs, clockEdge_readReg, clockEdge_completed]
  constructor
  · intro w valid
    exact ⟨by simp [valid], readReg_writeBack_self valid,
      fun _ => readReg_writeBack_of_other valid⟩
  · intro bubble
    rw [writeBack_none bubble]
    exact ⟨by simp [bubble], fun _ => rfl⟩

/-- Settles O47: no step changes a core that does not run, so by induction no number of steps does. -/
theorem nothingChangesAfterTheEnd : Obligations.NothingChangesAfterTheEnd := by
  unfold Obligations.NothingChangesAfterTheEnd
  intro x m n stopped
  induction n with
  | zero => rfl
  | succ n ih => simp only [stepN, step_of_not_running stopped, ih]

end Sys2Proof.Machine
end

section
/-!
The statement about the register-register instructions (`44_int_register_register.md`), settled.
-/

namespace Sys2Proof.Machine

variable {x : XLen}

/-! ## Values of the results not yet stated as words (rules R91, R99, R100) -/

theorem aluAdd_eq_ofNat (a b : Word x) : aluAdd a b = BitVec.ofNat x.bits (a.toNat + b.toNat) := by
  rw [aluAdd, BitVec.ofNat_add, BitVec.ofNat_toNat, BitVec.ofNat_toNat, BitVec.setWidth_eq,
    BitVec.setWidth_eq]

theorem aluSlt_eq_ite (a b : Word x) : aluSlt a b = if a.toInt < b.toInt then 1 else 0 :=
  boolWord_eq BitVec.slt_iff_toInt_lt

theorem aluSltu_eq_ite (a b : Word x) : aluSltu a b = if a.toNat < b.toNat then 1 else 0 :=
  boolWord_eq BitVec.ult_iff_lt

/-! ## The template of the ten instructions (rule R170) -/

theorem hasFields_of_encodeR {i : Instr} {op f7 : BitVec 7} {f3 : BitVec 3}
    {rd rs1 rs2 : RegIndex} (encoded : encode i = encodeR f7 rs2 rs1 f3 rd op) :
    hasFields i op f3 f7 rd rs1 rs2 := by
  simp [hasFields, encoded]

/-- The meaning of rule R170: the operation's value in `rd`, whatever the operation is. -/
theorem writesRegister_of_opRegReg {m : CoreState x} {i : Instr} {rd rs1 rs2 : RegIndex}
    {op : ∀ x : XLen, Word x → Word x → Word x} {v : Word x}
    (value : op x (m.readReg rs1) (m.readReg rs2) = v)
    (meaning : exec i { xlen := x, core := m } =
      opRegReg i op rd rs1 rs2 { xlen := x, core := m }) :
    writesRegister m i rd v (m.pc + 4#x.bits) :=
  writesRegister_of_pass value meaning

/-! ## The statement -/

/-- Settles O21: each word is its row's R-format, and each meaning is the template of rule R170 at an
operation of the ALU, whose value is the row's. -/
theorem registerRegisterResults : Obligations.RegisterRegisterResults := by
  unfold Obligations.RegisterRegisterResults
  rintro x m rd rs1 rs2 _ _ rfl rfl row listed
  simp only [List.mem_cons, List.not_mem_nil, or_false] at listed
  rcases listed with rfl | rfl | rfl | rfl | rfl | rfl | rfl | rfl | rfl | rfl
  · exact ⟨hasFields_of_encodeR rfl, writesRegister_of_opRegReg (aluAdd_eq_ofNat _ _) rfl⟩
  · exact ⟨hasFields_of_encodeR rfl, writesRegister_of_opRegReg (aluSub_eq_ofInt _ _) rfl⟩
  · exact ⟨hasFields_of_encodeR rfl, writesRegister_of_opRegReg (aluSll_eq_ofNat _ _) rfl⟩
  · exact ⟨hasFields_of_encodeR rfl, writesRegister_of_opRegReg (aluSlt_eq_ite _ _) rfl⟩
  · exact ⟨hasFields_of_encodeR rfl, writesRegister_of_opRegReg (aluSltu_eq_ite _ _) rfl⟩
  · exact ⟨hasFields_of_encodeR rfl, writesRegister_of_opRegReg (op := fun _ => aluXor) rfl rfl⟩
  · exact ⟨hasFields_of_encodeR rfl, writesRegister_of_opRegReg (aluSrl_eq_ofNat _ _) rfl⟩
  · exact ⟨hasFields_of_encodeR rfl, writesRegister_of_opRegReg (aluSra_eq_ofInt _ _) rfl⟩
  · exact ⟨hasFields_of_encodeR rfl, writesRegister_of_opRegReg (op := fun _ => aluOr) rfl rfl⟩
  · exact ⟨hasFields_of_encodeR rfl, writesRegister_of_opRegReg (op := fun _ => aluAnd) rfl rfl⟩

end Sys2Proof.Machine
end

section
/-!
The statements about the immediate instructions (`45_int_register_immediate.md`), settled.
-/

namespace Sys2Proof

/-! ## Words that have a known opcode and no row (rules R61, R66) -/

theorem decodeInstr_of_no_row {x : XLen} {w : InstrWord} (known : formatOf (opcodeOf w) ≠ .Unknown)
    (no_row : instrOfFields (fieldsOfWord x w) = none) :
    decodeInstr x w = .error .safeNoOp := by
  rw [decodeInstr_of_known known, no_row]

/-- Both shift codes need a selector in the upper immediate bits. -/
theorem opImmRow_of_no_selector {x : XLen} {f : DecodedFields x}
    (shift : f.funct3 = 1#3 ∨ f.funct3 = 5#3) (no_selector : shiftSelector x f.funct7 = none) :
    opImmRow f = none := by
  rcases shift with h | h <;> simp only [opImmRow, h, no_selector]

theorem decodeInstr_shift_of_no_selector {x : XLen} {imm : BitVec 12} {f3 : BitVec 3}
    (rs1 rd : RegIndex) (shift : f3 = 1#3 ∨ f3 = 5#3)
    (no_selector : shiftSelector x (imm.extractLsb' 5 7) = none) :
    decodeInstr x (encodeI imm rs1 f3 rd 0x13#7) = .error .safeNoOp := by
  apply decodeInstr_of_no_row
  · rw [opcodeOf_encodeI]
    decide
  · rw [fieldsOfWord_encodeI x imm rs1 f3 rd rfl]
    exact opImmRow_of_no_selector shift no_selector

/-- Only 32 bits lack a shift amount that six bits can hold. -/
theorem shiftSelector_none_of_bits_le {x : XLen} {shamt : BitVec 6} (big : x.bits ≤ shamt.toNat) :
    shiftSelector x ((0b000000#6 ++ shamt).extractLsb' 5 7) = none ∧
      shiftSelector x ((0b010000#6 ++ shamt).extractLsb' 5 7) = none := by
  have unfit : shamtFits x shamt = false := by
    rw [← Bool.not_eq_true, Machine.shamtFits_iff]
    omega
  cases x with
  | x32 => exact shiftSelector_none shamt unfit
  | x64 => cases unfit

/-- The immediate of a shift as the number the rules add up: the upper bits in place, plus `shamt`. -/
theorem append_shamt_eq_add (upper shamt : BitVec 6) :
    upper ++ shamt = (upper ++ 0#6) + shamt.setWidth 12 := by
  apply BitVec.eq_of_toNat_eq
  rw [BitVec.toNat_add, BitVec.toNat_setWidth, toNat_append_add, toNat_append_add, BitVec.toNat_ofNat]
  omega

/-- The upper 20 bits of a U-format word are its immediate (rule R57). -/
theorem encodeU_toNat_div (imm20 : BitVec 20) (rd : RegIndex) (op : BitVec 7) :
    (encodeU imm20 rd op).toNat / 2 ^ 12 = imm20.toNat := by
  rw [encodeU_toNat]
  omega

end Sys2Proof

namespace Sys2Proof.Machine

variable {x : XLen}

/-! ## The ALU at an immediate operand (rules R192, R193, R197 to R199) -/

theorem aluSlt_sext_eq_ite (a : Word x) (imm : BitVec 12) :
    aluSlt a (sext x imm) = if a.toInt < imm.toInt then 1 else 0 := by
  rw [aluSlt_eq_ite, sext_toInt x imm (by decide)]

/-- The ALU's reduction modulo the width keeps a shift amount of the width. -/
theorem shamtWord_toNat_mod {shamt : BitVec 6} (fits : shamt.toNat < x.bits) :
    (shamtWord x shamt).toNat % x.bits = shamt.toNat := by
  rw [shamtWord_toNat, Nat.mod_eq_of_lt fits]

theorem aluSll_shamtWord (a : Word x) {shamt : BitVec 6} (fits : shamt.toNat < x.bits) :
    aluSll a (shamtWord x shamt) = BitVec.ofNat x.bits (a.toNat * 2 ^ shamt.toNat) := by
  rw [aluSll_eq_ofNat, shamtWord_toNat_mod fits]

theorem aluSrl_shamtWord (a : Word x) {shamt : BitVec 6} (fits : shamt.toNat < x.bits) :
    aluSrl a (shamtWord x shamt) = BitVec.ofNat x.bits (a.toNat / 2 ^ shamt.toNat) := by
  rw [aluSrl_eq_ofNat, shamtWord_toNat_mod fits]

theorem aluSra_shamtWord (a : Word x) {shamt : BitVec 6} (fits : shamt.toNat < x.bits) :
    aluSra a (shamtWord x shamt) = BitVec.ofInt x.bits (a.toInt / 2 ^ shamt.toNat) := by
  rw [aluSra_eq_ofInt, shamtWord_toNat_mod fits]

/-! ## The templates of the immediate instructions (rules R190, R197) -/

theorem hasIFields_of_encodeI {i : Instr} {op : BitVec 7} {f3 : BitVec 3} {rd rs1 : RegIndex}
    {imm imm' : BitVec 12} (encoded : encode i = encodeI imm rs1 f3 rd op) (same : imm = imm') :
    hasIFields i op f3 rd rs1 imm' := by
  simp [hasIFields, encoded, same]

section Meaning
variable {m : CoreState x} {i : Instr} {rd rs1 : RegIndex} {v : Word x}
  {op : ∀ x : XLen, Word x → Word x → Word x}

/-- The meaning of rule R190: the operation's value at the sign-extended immediate in `rd`. -/
theorem writesRegister_of_opRegImm {imm : BitVec 12}
    (value : op x (m.readReg rs1) (sext x imm) = v)
    (meaning : exec i { xlen := x, core := m } = opRegImm i op rd rs1 imm { xlen := x, core := m }) :
    writesRegister m i rd v (m.pc + 4#x.bits) :=
  writesRegister_of_pass value meaning

theorem opShiftImm_of_fits {shamt : BitVec 6} (fits : shamt.toNat < x.bits) :
    opShiftImm i op rd rs1 shamt { xlen := x, core := m } =
      .next { xlen := x, core :=
        (m.pass i).writeReg rd (op x (m.readReg rs1) (shamtWord x shamt)) } := by
  rw [opShiftImm, State_next_eq, if_pos ((shamtFits_iff x shamt).2 fits)]

theorem opShiftImm_of_bits_le {shamt : BitVec 6} (big : x.bits ≤ shamt.toNat) :
    opShiftImm i op rd rs1 shamt { xlen := x, core := m } = .next { xlen := x, core := m.pass i } := by
  rw [opShiftImm, State_next_eq, if_neg fun fits => big.not_gt ((shamtFits_iff x shamt).1 fits)]

theorem writesRegister_of_opShiftImm {shamt : BitVec 6} (fits : shamt.toNat < x.bits)
    (value : op x (m.readReg rs1) (shamtWord x shamt) = v)
    (meaning : exec i { xlen := x, core := m } =
      opShiftImm i op rd rs1 shamt { xlen := x, core := m }) :
    writesRegister m i rd v (m.pc + 4#x.bits) :=
  writesRegister_of_pass value (meaning.trans (opShiftImm_of_fits fits))

theorem onlyMovesPc_of_opShiftImm {shamt : BitVec 6} (big : x.bits ≤ shamt.toNat)
    (meaning : exec i { xlen := x, core := m } =
      opShiftImm i op rd rs1 shamt { xlen := x, core := m }) :
    onlyMovesPc m i (m.pc + 4#x.bits) :=
  onlyMovesPc_of_pass (meaning.trans (opShiftImm_of_bits_le big))

end Meaning

section Upper
variable {i : Instr} {imm20 : BitVec 20} {rd : RegIndex} {op : BitVec 7}

theorem opcode_fields_of_encodeU (encoded : encode i = encodeU imm20 rd op) :
    (i.fields x).opcode = op := by
  show opcodeOf (encode i) = op
  rw [encoded, opcodeOf_encodeU]

theorem immediate_fields_of_encodeU (encoded : encode i = encodeU imm20 rd op)
    (upper : formatOf op = .U) :
    (i.fields x).immediate = BitVec.ofInt x.bits (imm20.toInt * 4096) := by
  rw [Instr.fields, encoded, fieldsOfWord_encodeU x imm20 rd upper, ← upperImmediate_eq_ofInt]

/-- A U-format word names no source register. -/
theorem readsReg_fields_of_encodeU (encoded : encode i = encodeU imm20 rd op)
    (upper : formatOf op = .U) (r : RegIndex) : readsReg (i.fields x) r = false := by
  rw [Instr.fields, encoded, fieldsOfWord_encodeU x imm20 rd upper]
  rfl

end Upper

/-! ## The statements -/

/-- Settles O22: each word is its row's I-format, and each meaning is the template of rule R190 at an
operation of the ALU, whose value is the row's. -/
theorem registerImmediateResults : Obligations.RegisterImmediateResults := by
  unfold Obligations.RegisterImmediateResults
  rintro x m rd rs1 imm _ _ rfl rfl row listed
  simp only [List.mem_cons, List.not_mem_nil, or_false] at listed
  rcases listed with rfl | rfl | rfl | rfl | rfl | rfl
  · exact ⟨hasIFields_of_encodeI rfl rfl, writesRegister_of_opRegImm (add_sext_eq_ofInt _ imm) rfl⟩
  · exact ⟨hasIFields_of_encodeI rfl rfl, writesRegister_of_opRegImm (aluSlt_sext_eq_ite _ imm) rfl⟩
  · exact ⟨hasIFields_of_encodeI rfl rfl, writesRegister_of_opRegImm (aluSltu_eq_ite _ _) rfl⟩
  · exact ⟨hasIFields_of_encodeI rfl rfl,
      writesRegister_of_opRegImm (op := fun _ => aluXor) rfl rfl⟩
  · exact ⟨hasIFields_of_encodeI rfl rfl,
      writesRegister_of_opRegImm (op := fun _ => aluOr) rfl rfl⟩
  · exact ⟨hasIFields_of_encodeI rfl rfl,
      writesRegister_of_opRegImm (op := fun _ => aluAnd) rfl rfl⟩

/-- Settles O23: an amount of the width makes the template's value the row's; a larger one, which only
32 bits lack, leaves the decoder without a selector and the meaning without an effect. -/
theorem shiftImmediateResults : Obligations.ShiftImmediateResults := by
  unfold Obligations.ShiftImmediateResults
  rintro x m rd rs1 shamt _ rfl row listed
  simp only [List.mem_cons, List.not_mem_nil, or_false] at listed
  rcases listed with rfl | rfl | rfl
  · exact ⟨hasIFields_of_encodeI rfl (append_shamt_eq_add 0b000000#6 shamt),
      fun fits => writesRegister_of_opShiftImm fits (aluSll_shamtWord _ fits) rfl,
      fun big => ⟨decodeInstr_shift_of_no_selector rs1 rd (.inl rfl)
        (shiftSelector_none_of_bits_le big).1, onlyMovesPc_of_opShiftImm big rfl⟩⟩
  · exact ⟨hasIFields_of_encodeI rfl (append_shamt_eq_add 0b000000#6 shamt),
      fun fits => writesRegister_of_opShiftImm fits (aluSrl_shamtWord _ fits) rfl,
      fun big => ⟨decodeInstr_shift_of_no_selector rs1 rd (.inr rfl)
        (shiftSelector_none_of_bits_le big).1, onlyMovesPc_of_opShiftImm big rfl⟩⟩
  · exact ⟨hasIFields_of_encodeI rfl (append_shamt_eq_add 0b010000#6 shamt),
      fun fits => writesRegister_of_opShiftImm fits (aluSra_shamtWord _ fits) rfl,
      fun big => ⟨decodeInstr_shift_of_no_selector rs1 rd (.inr rfl)
        (shiftSelector_none_of_bits_le big).2, onlyMovesPc_of_opShiftImm big rfl⟩⟩

/-- Settles O24: both words are U-format, whose record has the opcode that selects bundle and operands,
the immediate of rule R57, and no source register. -/
theorem upperImmediateResults : Obligations.UpperImmediateResults := by
  unfold Obligations.UpperImmediateResults
  rintro x m rd imm20 _ rfl row listed
  have value := upperImmediate_eq_ofInt x imm20
  simp only [List.mem_cons, List.not_mem_nil, or_false] at listed
  rcases listed with rfl | rfl
  · refine ⟨opcodeOf_encodeU _ _ _, rdOf_encodeU _ _ _, encodeU_toNat_div _ _ _,
      fun pc a b => generate_lui pc a b (opcode_fields_of_encodeU rfl), fun d fields => ?_,
      readsReg_fields_of_encodeU rfl rfl, writesRegister_of_pass value rfl⟩
    rw [aluOperands_lui (fields ▸ opcode_fields_of_encodeU rfl), fields,
      immediate_fields_of_encodeU rfl rfl]
  · refine ⟨opcodeOf_encodeU _ _ _, rdOf_encodeU _ _ _, encodeU_toNat_div _ _ _,
      fun pc a b => generate_auipc pc a b (opcode_fields_of_encodeU rfl), fun d fields => ?_,
      readsReg_fields_of_encodeU rfl rfl, writesRegister_of_pass (congrArg (m.pc + ·) value) rfl⟩
    rw [aluOperands_auipc (fields ▸ opcode_fields_of_encodeU rfl), fields,
      immediate_fields_of_encodeU rfl rfl]

end Sys2Proof.Machine
end

section
/-!
The statements about the loads and stores (`46_loads_stores.md`), settled.
-/

namespace Sys2Proof.Machine

variable {x : XLen} {m : CoreState x} {i : Instr} {f3 : BitVec 3} {n : Nat} {signExtend : Bool}
  {rd rs1 rs2 : RegIndex} {imm : BitVec 12}

/-! ## The value of a read (rules R30, R34) -/

/-- The two ways to say that a value of `n` bytes is extended: by its top bit, and by its size. -/
theorem widen_eq_extended {v : Nat} (some_byte : 0 < n) (fits : v < 2 ^ (8 * n)) :
    widen x n signExtend v = extended x n signExtend v := by
  cases signExtend with
  | false => simp [widen_unsigned fits, extended]
  | true =>
    have halves : 2 ^ (8 * n) = 2 * 2 ^ (8 * n - 1) := by
      rw [← Nat.pow_succ']
      congr 1
      omega
    rw [widen_signed fits, extended]
    by_cases negative : 2 ^ (8 * n - 1) ≤ v
    · rw [if_neg (by omega), if_pos ⟨rfl, negative⟩]
      push_cast
      rfl
    · rw [if_pos (by omega), if_neg fun signed => negative signed.2, BitVec.ofInt_natCast]

theorem littleEndian_eq_bytesValue (byte : Nat → Byte) (n : Nat) :
    littleEndian ((List.range' 0 n).map byte) = bytesValue byte n := by
  simp only [littleEndian_range', Nat.zero_add, bytesValue]

theorem bytesValue_lt (byte : Nat → Byte) (n : Nat) : bytesValue byte n < 2 ^ (8 * n) := by
  have bound := littleEndian_lt ((List.range' 0 n).map byte)
  rwa [littleEndian_eq_bytesValue, List.length_map, List.length_range', show 256 = 2 ^ 8 from rfl,
    ← pow_mul] at bound

theorem pos_of_mem_dmemSizes (sized : n ∈ dmemSizes x) : 0 < n := by
  revert n
  cases x <;> decide

theorem le_eight_of_mem_dmemSizes (sized : n ∈ dmemSizes x) : n ≤ 8 := by
  revert n
  cases x <;> decide

/-- What the data memory answers to a read it accepts (rule R34). -/
theorem dmemRead_of_accepted {addr : Word x} {byte : Nat → Byte} (sized : n ∈ dmemSizes x)
    (accepts : accepted m addr n)
    (bytes : ∀ k, k < n → readByte m.cfg m.mem (accessAddr addr k) = some (byte k)) :
    dmemRead m.cfg m.mem addr n signExtend = .ok (extended x n signExtend (bytesValue byte n)) := by
  have read := readBytes_eq m.cfg m.mem addr byte n 0 fun j _ inside => bytes j (by omega)
  simp only [dmemRead, (dmemCheck_of_accepted sized).1 accepts, read, littleEndian_eq_bytesValue,
    widen_eq_extended (pos_of_mem_dmemSizes sized) (bytesValue_lt byte n)]

/-! ## The columns of rules R147 and R148 at a width -/

theorem mem_dmemSizes_of_loadWidth (column : loadWidth x f3 = some (n, signExtend)) :
    n ∈ dmemSizes x := by
  have sizes : ∀ x f3, ∀ col ∈ loadWidth x f3, col.1 ∈ dmemSizes x := by
    intro x
    cases x <;> decide
  exact sizes x f3 _ column

theorem mem_dmemSizes_of_storeWidth (column : storeWidth x f3 = some n) : n ∈ dmemSizes x := by
  have sizes : ∀ x f3, ∀ size ∈ storeWidth x f3, size ∈ dmemSizes x := by
    intro x
    cases x <;> decide
  exact sizes x f3 _ column

/-- Of the codes that are a load's at some width, 32 bits lack those of LD and LWU. -/
theorem loadWidth_isSome_iff (code : f3 ≠ 7#3) :
    (loadWidth x f3).isSome = true ↔ f3 ∈ [3#3, 6#3] → x = .x64 := by
  revert f3
  cases x <;> decide

/-- Of the codes that are a store's at some width, 32 bits lack that of SD. -/
theorem storeWidth_isSome_iff (code : f3 ∈ [0#3, 1#3, 2#3, 3#3]) :
    (storeWidth x f3).isSome = true ↔ f3 = 3#3 → x = .x64 := by
  revert f3
  cases x <;> decide

theorem decodeInstr_load_of_no_column (rs1 rd : RegIndex) (imm : BitVec 12)
    (no_column : loadWidth x f3 = none) :
    decodeInstr x (encodeI imm rs1 f3 rd 0x03#7) = .error .safeNoOp := by
  apply decodeInstr_of_no_row
  · rw [opcodeOf_encodeI]
    decide
  · rw [fieldsOfWord_encodeI x imm rs1 f3 rd rfl]
    exact (loadRow_eq_none_iff _).2 no_column

theorem decodeInstr_store_of_no_column (rs2 rs1 : RegIndex) (imm : BitVec 12)
    (no_column : storeWidth x f3 = none) :
    decodeInstr x (encodeS imm rs2 rs1 f3 0x23#7) = .error .safeNoOp := by
  apply decodeInstr_of_no_row
  · rw [opcodeOf_encodeS]
    decide
  · rw [fieldsOfWord_encodeS x imm rs2 rs1 f3 rfl]
    exact (storeRow_eq_none_iff _).2 no_column

/-! ## An instruction the width does not have (rules R63, R66) -/

/-- The passage of an instruction the width does not have, where its meaning asks whether it has it. -/
theorem onlyMovesPc_of_not_wellFormed {effect : CoreState x} (missing : i.wellFormed x = false)
    (meaning : exec i { xlen := x, core := m } =
      .next { xlen := x, core := if i.wellFormed x then effect else m.pass i }) :
    onlyMovesPc m i (m.pc + 4#x.bits) :=
  onlyMovesPc_of_pass (by simp only [meaning, missing, Bool.false_eq_true, if_false])

/-! ## What the seven loads have in common (rules R147, R210) -/

/-- `i` is the load with code `f3` of `n` bytes: its word, its column, present exactly at the widths `i`
exists at, and its meaning, which is a passage without an effect where it does not exist. -/
structure IsLoad (x : XLen) (i : Instr) (f3 : BitVec 3) (n : Nat) (signExtend : Bool)
    (rd rs1 : RegIndex) (imm : BitVec 12) : Prop where
  code : f3 ≠ 7#3
  encoded : encode i = encodeI imm rs1 f3 rd 0x03#7
  column : loadWidth x f3 = if i.wellFormed x then some (n, signExtend) else none
  meaning : ∀ m : CoreState x, exec i { xlen := x, core := m } =
    .next { xlen := x, core :=
      if i.wellFormed x then m.load i n signExtend rd rs1 imm else m.pass i }

namespace IsLoad
variable (load : IsLoad x i f3 n signExtend rd rs1 imm)
include load

theorem wellFormed_iff : i.wellFormed x = true ↔ f3 ∈ [3#3, 6#3] → x = .x64 := by
  rw [← loadWidth_isSome_iff load.code, load.column]
  cases i.wellFormed x <;> simp

/-- An accepted load: the extended value of its bytes, and nothing else. -/
theorem writesRegister_of_accepted {byte : Nat → Byte} (exists_here : i.wellFormed x = true)
    (accepts : accepted m (m.effectiveAddress rs1 imm) n)
    (bytes : ∀ k, k < n →
      readByte m.cfg m.mem (accessAddr (m.effectiveAddress rs1 imm) k) = some (byte k)) :
    writesRegister m i rd (extended x n signExtend (bytesValue byte n)) (m.pc + 4#x.bits) := by
  have sized := mem_dmemSizes_of_loadWidth (load.column.trans (if_pos exists_here))
  apply writesRegister_of_pass rfl
  rw [load.meaning, if_pos exists_here, load_ok (dmemRead_of_accepted sized accepts bytes)]

theorem safeNoOp_of_not_wellFormed (missing : i.wellFormed x = false) :
    decodeInstr x (encode i) = .error .safeNoOp ∧ onlyMovesPc m i (m.pc + 4#x.bits) := by
  have no_column := load.column.trans (if_neg (Bool.eq_false_iff.1 missing))
  rw [load.encoded]
  exact ⟨decodeInstr_load_of_no_column rs1 rd imm no_column,
    onlyMovesPc_of_not_wellFormed missing (load.meaning m)⟩

end IsLoad

/-! ## What the four stores have in common (rules R148, R218) -/

/-- `i` is the store with code `f3` of `n` bytes, in the same three parts. -/
structure IsStore (x : XLen) (i : Instr) (f3 : BitVec 3) (n : Nat) (rs2 rs1 : RegIndex)
    (imm : BitVec 12) : Prop where
  code : f3 ∈ [0#3, 1#3, 2#3, 3#3]
  encoded : encode i = encodeS imm rs2 rs1 f3 0x23#7
  column : storeWidth x f3 = if i.wellFormed x then some n else none
  meaning : ∀ m : CoreState x, exec i { xlen := x, core := m } =
    .next { xlen := x, core := if i.wellFormed x then m.store i n rs2 rs1 imm else m.pass i }

namespace IsStore
variable (store : IsStore x i f3 n rs2 rs1 imm)
include store

theorem encode_fields :
    opcodeOf (encode i) = 0x23#7 ∧ funct3Of (encode i) = f3 ∧ rs1Of (encode i) = rs1 ∧
      rs2Of (encode i) = rs2 ∧ immS (encode i) = imm := by
  simp [store.encoded]

theorem wellFormed_iff : i.wellFormed x = true ↔ f3 = 3#3 → x = .x64 := by
  rw [← storeWidth_isSome_iff store.code, store.column]
  cases i.wellFormed x <;> simp

/-- An accepted store: its bytes, and nothing else. -/
theorem storesBytes_of_accepted (exists_here : i.wellFormed x = true)
    (accepts : accepted m (m.effectiveAddress rs1 imm) n) :
    storesBytes m i (m.effectiveAddress rs1 imm) n (m.readReg rs2) := by
  have sized := mem_dmemSizes_of_storeWidth (store.column.trans (if_pos exists_here))
  apply storesBytes_of_store (le_eight_of_mem_dmemSizes sized)
    ((dmemCheck_of_accepted sized).1 accepts)
  rw [store.meaning, if_pos exists_here]

theorem safeNoOp_of_not_wellFormed (missing : i.wellFormed x = false) :
    decodeInstr x (encode i) = .error .safeNoOp ∧ onlyMovesPc m i (m.pc + 4#x.bits) := by
  have no_column := store.column.trans (if_neg (Bool.eq_false_iff.1 missing))
  rw [store.encoded]
  exact ⟨decodeInstr_store_of_no_column rs2 rs1 imm no_column,
    onlyMovesPc_of_not_wellFormed missing (store.meaning m)⟩

end IsStore

/-! ## The statements -/

/-- Settles O26: each row is a load with its code and column, so the facts the loads have in common
are the row's. -/
theorem loadResults : Obligations.LoadResults := by
  unfold Obligations.LoadResults
  intro x m rd rs1 imm byte row listed
  have load : IsLoad x row.1 row.2.1 row.2.2.1 row.2.2.2 rd rs1 imm := by
    simp only [List.mem_cons, List.not_mem_nil, or_false] at listed
    rcases listed with rfl | rfl | rfl | rfl | rfl | rfl | rfl <;>
      exact ⟨by simp, rfl, rfl, fun _ => rfl⟩
  exact ⟨hasIFields_of_encodeI load.encoded rfl, load.writesRegister_of_accepted,
    load.wellFormed_iff, load.safeNoOp_of_not_wellFormed⟩

/-- Settles O27: each row is a store with its code and column, so the facts the stores have in common
are the row's. -/
theorem storeResults : Obligations.StoreResults := by
  unfold Obligations.StoreResults
  intro x m rs2 rs1 imm row listed
  have store : IsStore x row.1 row.2.1 row.2.2 rs2 rs1 imm := by
    simp only [List.mem_cons, List.not_mem_nil, or_false] at listed
    rcases listed with rfl | rfl | rfl | rfl <;> exact ⟨by simp, rfl, rfl, fun _ => rfl⟩
  exact ⟨store.encode_fields, store.storesBytes_of_accepted, store.wellFormed_iff,
    store.safeNoOp_of_not_wellFormed⟩

end Sys2Proof.Machine
end

section
/-!
The statement about the branches (`47_control_transfer.md`), settled.
-/

namespace Sys2Proof.Machine

variable {x : XLen} {m : CoreState x} {i : Instr} {f3 : BitVec 3} {op : AluOp} {taken : Bool}
  {rs1 rs2 : RegIndex} {imm : BitVec 13}

/-! ## What the six branches have in common (rules R117, R230) -/

/-- `i` is the branch with code `f3` and comparison `op`: its word, its row of the generator's table,
and its meaning in `m`, where `taken` is what its test of the two registers gives. -/
structure IsBranch (m : CoreState x) (i : Instr) (f3 : BitVec 3) (op : AluOp) (taken : Bool)
    (rs1 rs2 : RegIndex) (imm : BitVec 13) : Prop where
  encoded : encode i = encodeB imm rs2 rs1 f3 0x63#7
  row : ∃ p, branchTable f3 = some (op, p)
  meaning : exec i { xlen := x, core := m } =
    .next { xlen := x, core := m.passBranch i taken (m.relativeTarget imm) }

/-- The comparisons of the branches are operations the ALU has (rule R102). -/
theorem execute_ok_of_branchTable {p : Polarity} (row : branchTable f3 = some (op, p))
    (a b : Word x) : ∃ c, execute a b op = .ok c := by
  rcases branchTable_op row with rfl | rfl | rfl <;> exact ⟨_, rfl⟩

/-- The template of rule R230 at a test that decides `holds`. -/
theorem exec_of_branchIf {test : ∀ x : XLen, Word x → Word x → Bool} {holds : Prop}
    [Decidable holds] (decides : test x (m.readReg rs1) (m.readReg rs2) = true ↔ holds)
    (template : exec i { xlen := x, core := m } =
      branchIf i test rs1 rs2 imm { xlen := x, core := m }) :
    exec i { xlen := x, core := m } =
      .next { xlen := x, core := m.passBranch i (decide holds) (m.relativeTarget imm) } := by
  have decision : decide holds = test x (m.readReg rs1) (m.readReg rs2) := by
    rw [Bool.eq_iff_iff, decide_eq_true_iff, decides]
  rw [template, branchIf, State_next_eq, decision]

namespace IsBranch
variable (branch : IsBranch m i f3 op taken rs1 rs2 imm)
include branch

theorem encode_fields (even : imm.getLsbD 0 = false) :
    opcodeOf (encode i) = 0x63#7 ∧ funct3Of (encode i) = f3 ∧ rs1Of (encode i) = rs1 ∧
      rs2Of (encode i) = rs2 ∧ immB (encode i) = imm := by
  simp [branch.encoded, immB_encodeB imm rs2 rs1 f3 0x63#7 even]

/-- A branch asks the ALU for the comparison of its row, whatever the operands are. -/
theorem aluOp_generate (even : imm.getLsbD 0 = false) (pc a b : Word x) :
    (generate (i.fields x) pc a b).aluOp = op := by
  obtain ⟨p, row⟩ := branch.row
  obtain ⟨c, compared⟩ := execute_ok_of_branchTable row a b
  rw [Instr.fields, branch.encoded, generate_encodeB rs1 rs2 pc row compared even]
  rfl

theorem onlyMovesPc :
    onlyMovesPc m i
      (if taken then m.pc + BitVec.ofInt x.bits imm.toInt else m.pc + 4#x.bits) :=
  onlyMovesPc_of_passBranch branch.meaning

end IsBranch

/-! ## The statement -/

/-- Settles O29: each row is a branch with its code and comparison whose test decides the row's
comparison of the registers, so the facts the branches have in common are the row's. -/
theorem branchResults : Obligations.BranchResults := by
  unfold Obligations.BranchResults
  rintro x m rs1 rs2 imm a b rfl rfl even row listed
  have branch : IsBranch m row.1 row.2.1 row.2.2.1 row.2.2.2 rs1 rs2 imm := by
    simp only [List.mem_cons, List.not_mem_nil, or_false] at listed
    rcases listed with rfl | rfl | rfl | rfl | rfl | rfl
    · exact ⟨rfl, ⟨_, rfl⟩, exec_of_branchIf (takenEq_iff _ _) rfl⟩
    · exact ⟨rfl, ⟨_, rfl⟩, exec_of_branchIf (takenNe_iff _ _) rfl⟩
    · exact ⟨rfl, ⟨_, rfl⟩, exec_of_branchIf (takenLt_iff _ _) rfl⟩
    · exact ⟨rfl, ⟨_, rfl⟩, exec_of_branchIf (takenGe_iff _ _) rfl⟩
    · exact ⟨rfl, ⟨_, rfl⟩, exec_of_branchIf (takenLtu_iff _ _) rfl⟩
    · exact ⟨rfl, ⟨_, rfl⟩, exec_of_branchIf (takenGeu_iff _ _) rfl⟩
  exact ⟨branch.encode_fields even, branch.aluOp_generate even _ _ _, branch.onlyMovesPc⟩

end Sys2Proof.Machine
end

section
/-!
The statements about the decoder as a whole (`30_encoding.md` section 3, `40_decoder.md`), settled.
-/

namespace Sys2Proof

variable {x : XLen} {w : InstrWord} {i : Instr}

/-! ## Words that are an instruction, and words that have no row (rules R63, R66) -/

theorem decodeInstr_ok_iff :
    decodeInstr x w = .ok i ↔
      formatOf (opcodeOf w) ≠ .Unknown ∧ instrOfFields (fieldsOfWord x w) = some i := by
  by_cases known : formatOf (opcodeOf w) = .Unknown
  · simp [decodeInstr, decodeFields_of_unknown known, known]
  · rw [decodeInstr_of_known known]
    cases instrOfFields (fieldsOfWord x w) <;> simp [known]

theorem decodeInstr_safeNoOp_iff :
    decodeInstr x w = .error .safeNoOp ↔
      formatOf (opcodeOf w) ≠ .Unknown ∧ instrOfFields (fieldsOfWord x w) = none := by
  by_cases known : formatOf (opcodeOf w) = .Unknown
  · simp [decodeInstr, decodeFields_of_unknown known, known]
  · rw [decodeInstr_of_known known]
    cases instrOfFields (fieldsOfWord x w) <;> simp [known]

/-! ## The row of an encoded instruction (rules R61, R62) -/

theorem formatOf_opcodeOf_encode (i : Instr) : formatOf (opcodeOf (encode i)) ≠ .Unknown := by
  cases i <;> simp [encode, formatOf]

theorem lsb_of_evenOffset {n : Nat} {imm : BitVec n} (even : evenOffset imm = true) :
    imm.getLsbD 0 = false := by
  simpa only [evenOffset, Bool.not_eq_true'] using even

/-- The record of an instruction's word selects that instruction's row, and gives every operand back. -/
theorem instrOfFields_fields (exists_here : i.wellFormed x = true) :
    instrOfFields (i.fields x) = some i := by
  rw [Instr.fields]
  cases i
  case add | sub | sll | slt | sltu | xor | srl | sra | or | and =>
    rw [encode, fieldsOfWord_encodeR x _ _ _ _ _ rfl]
    rfl
  case addi | slti | sltiu | xori | ori | andi =>
    rw [encode, fieldsOfWord_encodeI x _ _ _ _ rfl]
    simp (disch := decide) only [instrOfFields, opImmRow, setWidth_sext_self]
  case slli rd rs1 shamt | srli rd rs1 shamt =>
    rw [encode, fieldsOfWord_encodeI x _ _ _ _ rfl]
    simp only [instrOfFields, opImmRow, shamt_of_immediate, shiftSelector_logical x shamt exists_here]
  case srai rd rs1 shamt =>
    rw [encode, fieldsOfWord_encodeI x _ _ _ _ rfl]
    simp only [instrOfFields, opImmRow, shamt_of_immediate,
      shiftSelector_arithmetic x shamt exists_here]
  case lui | auipc =>
    rw [encode, fieldsOfWord_encodeU x _ _ rfl]
    simp only [instrOfFields, upperImmediate, slice_sext_upper]
  case lb | lh | lw | lbu | lhu =>
    rw [encode, fieldsOfWord_encodeI x _ _ _ _ rfl]
    simp (disch := decide) only [instrOfFields, loadRow, setWidth_sext_self]
  case lwu | ld =>
    replace exists_here : only64 x = true := exists_here
    rw [encode, fieldsOfWord_encodeI x _ _ _ _ rfl]
    simp (disch := decide) only [instrOfFields, loadRow, exists_here, if_true, setWidth_sext_self]
  case sb | sh | sw =>
    rw [encode, fieldsOfWord_encodeS x _ _ _ _ rfl]
    simp (disch := decide) only [instrOfFields, storeRow, setWidth_sext_self]
  case sd =>
    replace exists_here : only64 x = true := exists_here
    rw [encode, fieldsOfWord_encodeS x _ _ _ _ rfl]
    simp (disch := decide) only [instrOfFields, storeRow, exists_here, if_true, setWidth_sext_self]
  case beq | bne | blt | bge | bltu | bgeu =>
    rw [encode, fieldsOfWord_encodeB x _ _ _ _ rfl (lsb_of_evenOffset exists_here)]
    simp (disch := decide) only [instrOfFields, branchRow, setWidth_sext_self]
  case jal =>
    rw [encode, fieldsOfWord_encodeJ x _ _ rfl (lsb_of_evenOffset exists_here)]
    simp (disch := decide) only [instrOfFields, setWidth_sext_self]
  case jalr =>
    rw [encode, fieldsOfWord_encodeI x _ _ _ _ rfl]
    simp (disch := decide) only [instrOfFields, jalrRow, setWidth_sext_self]

/-! ## The word of a record (rules R53 to R58) -/

/-- The word the fields of a known format come from: each format's layout at the record's fields. -/
def wordOfFields (f : DecodedFields x) : InstrWord :=
  match f.format with
  | .R => encodeR f.funct7 f.rs2 f.rs1 f.funct3 f.rd f.opcode
  | .I => encodeI (f.immediate.setWidth 12) f.rs1 f.funct3 f.rd f.opcode
  | .S => encodeS (f.immediate.setWidth 12) f.rs2 f.rs1 f.funct3 f.opcode
  | .B => encodeB (f.immediate.setWidth 13) f.rs2 f.rs1 f.funct3 f.opcode
  | .U => encodeU (f.immediate.extractLsb' 12 20) f.rd f.opcode
  | .J => encodeJ (f.immediate.setWidth 21) f.rd f.opcode
  | .Unknown => 0#32

/-- Every format's fields are all of its word. -/
theorem wordOfFields_fieldsOfWord (x : XLen) (known : formatOf (opcodeOf w) ≠ .Unknown) :
    wordOfFields (fieldsOfWord x w) = w := by
  rw [fieldsOfWord]
  cases format : formatOf (opcodeOf w)
  case R => exact encodeR_fields w
  case I =>
    refine Eq.trans ?_ (encodeI_fields w)
    exact congrArg (encodeI · _ _ _ _) (setWidth_sext_self x (immI w) (by decide))
  case S =>
    refine Eq.trans ?_ (encodeS_fields w)
    exact congrArg (encodeS · _ _ _ _) (setWidth_sext_self x (immS w) (by decide))
  case B =>
    refine Eq.trans ?_ (encodeB_fields w)
    exact congrArg (encodeB · _ _ _ _) (setWidth_sext_self x (immB w) (by decide))
  case U =>
    refine Eq.trans ?_ (encodeU_fields w)
    exact congrArg (encodeU · _ _) (slice_sext_upper x (w.extractLsb' 12 20))
  case J =>
    refine Eq.trans ?_ (encodeJ_fields w)
    exact congrArg (encodeJ · _ _) (setWidth_sext_self x (immJ w) (by decide))
  case Unknown => exact absurd format known

/-! ## A row's instruction has the row's word (rules R61, R62) -/

/-- The bits above a shift amount, by the shift they select. -/
def shiftUpper (arithmetic : Bool) : BitVec 6 := if arithmetic then 0b010000#6 else 0b000000#6

/-- A selector fixes the six bits above the shift amount, and at 32 bits the amount's own top bit. -/
theorem toNat_of_shiftSelector {f7 : BitVec 7} {arithmetic : Bool}
    (selected : shiftSelector x f7 = some arithmetic) :
    f7.toNat / 2 = (shiftUpper arithmetic).toNat ∧ (x = .x32 → f7.toNat % 2 = 0) := by
  revert f7 arithmetic
  cases x <;> decide

theorem immediate_of_shiftSelector {imm : BitVec 12} {arithmetic : Bool}
    (selected : shiftSelector x (imm.extractLsb' 5 7) = some arithmetic) :
    shiftUpper arithmetic ++ imm.setWidth 6 = imm ∧ shamtFits x (imm.setWidth 6) = true := by
  obtain ⟨upper, low⟩ := toNat_of_shiftSelector selected
  rw [toNat_slice] at upper low
  constructor
  · apply BitVec.eq_of_toNat_eq
    rw [toNat_append_add, ← upper, BitVec.toNat_setWidth]
    omega
  · rw [Machine.shamtFits_iff, BitVec.toNat_setWidth]
    cases x with
    | x32 =>
      have := low rfl
      rw [XLen.bits_x32]
      omega
    | x64 => exact Nat.mod_lt _ (by decide)

section Rows
variable {f : DecodedFields x}

theorem encode_of_opRow (row : opRow f = some i) :
    encode i = encodeR f.funct7 f.rs2 f.rs1 f.funct3 f.rd 0x33#7 ∧ i.wellFormed x = true := by
  unfold opRow at row
  split at row
  case h_1 funct7 =>
    rcases Machine.funct3_cases f.funct3 with h | h | h | h | h | h | h | h <;>
      simp (disch := decide) only [h, Option.some.injEq] at row <;> subst row <;>
      simp [encode, Instr.wellFormed, funct7, h]
  case h_2 funct7 =>
    split at row
    case h_3 => cases row
    all_goals
      next funct3 =>
        cases row
        simp [encode, Instr.wellFormed, funct7, funct3]
  case h_3 => cases row

theorem encode_of_opImmRow (top : f.funct7 = (f.immediate.setWidth 12).extractLsb' 5 7)
    (row : opImmRow f = some i) :
    encode i = encodeI (f.immediate.setWidth 12) f.rs1 f.funct3 f.rd 0x13#7 ∧
      i.wellFormed x = true := by
  have shifted : ∀ {arithmetic}, shiftSelector x f.funct7 = some arithmetic →
      shiftUpper arithmetic ++ f.immediate.setWidth 6 = f.immediate.setWidth 12 ∧
        shamtFits x (f.immediate.setWidth 6) = true := by
    intro arithmetic selected
    rw [top] at selected
    simpa only [BitVec.setWidth_setWidth_of_le _ (by decide : 6 ≤ 12)]
      using immediate_of_shiftSelector selected
  rcases Machine.funct3_cases f.funct3 with h | h | h | h | h | h | h | h
  case inr.inl =>
    simp only [opImmRow, h] at row
    split at row <;> cases row
    next logical =>
      simp [encode, Instr.wellFormed, h, ← (shifted logical).1, (shifted logical).2, shiftUpper]
  case inr.inr.inr.inr.inr.inl =>
    simp only [opImmRow, h] at row
    split at row <;> cases row
    next logical =>
      simp [encode, Instr.wellFormed, h, ← (shifted logical).1, (shifted logical).2, shiftUpper]
    next logical =>
      simp [encode, Instr.wellFormed, h, ← (shifted logical).1, (shifted logical).2, shiftUpper]
  all_goals
    simp (disch := decide) only [opImmRow, h, Option.some.injEq] at row
    subst row
    simp [encode, Instr.wellFormed, h]

theorem encode_of_loadRow (row : loadRow f = some i) :
    encode i = encodeI (f.immediate.setWidth 12) f.rs1 f.funct3 f.rd 0x03#7 ∧
      i.wellFormed x = true := by
  unfold loadRow at row
  split at row
  case h_8 => cases row
  case h_4 funct3 | h_7 funct3 =>
    rw [Option.ite_none_right_eq_some] at row
    obtain ⟨exists_here, row⟩ := row
    cases row
    simp [encode, Instr.wellFormed, funct3, exists_here]
  all_goals
    next funct3 =>
      cases row
      simp [encode, Instr.wellFormed, funct3]

theorem encode_of_storeRow (row : storeRow f = some i) :
    encode i = encodeS (f.immediate.setWidth 12) f.rs2 f.rs1 f.funct3 0x23#7 ∧
      i.wellFormed x = true := by
  unfold storeRow at row
  split at row
  case h_5 => cases row
  case h_4 funct3 =>
    rw [Option.ite_none_right_eq_some] at row
    obtain ⟨exists_here, row⟩ := row
    cases row
    simp [encode, Instr.wellFormed, funct3, exists_here]
  all_goals
    next funct3 =>
      cases row
      simp [encode, Instr.wellFormed, funct3]

theorem encode_of_branchRow (even : evenOffset (f.immediate.setWidth 13) = true)
    (row : branchRow f = some i) :
    encode i = encodeB (f.immediate.setWidth 13) f.rs2 f.rs1 f.funct3 0x63#7 ∧
      i.wellFormed x = true := by
  unfold branchRow at row
  split at row
  case h_7 => cases row
  all_goals
    next funct3 =>
      cases row
      simp [encode, Instr.wellFormed, funct3, even]

theorem encode_of_jalrRow (row : jalrRow f = some i) :
    encode i = encodeI (f.immediate.setWidth 12) f.rs1 f.funct3 f.rd 0x67#7 ∧
      i.wellFormed x = true := by
  unfold jalrRow at row
  split at row
  case h_1 funct3 =>
    cases row
    simp [encode, Instr.wellFormed, funct3]
  case h_2 => cases row

end Rows

/-- `funct7` of any word is the top of its I-format immediate. -/
theorem funct7Of_eq_immI_slice (w : InstrWord) : funct7Of w = (immI w).extractLsb' 5 7 := by
  apply BitVec.eq_of_toNat_eq
  rw [funct7Of_toNat, toNat_slice, immI_toNat]
  omega

/-- The row that a word's record selects is an instruction of the width, and its word is the layout of
the record's format at the record's fields. -/
theorem encode_of_instrOfFields (known : formatOf (opcodeOf w) ≠ .Unknown)
    (row : instrOfFields (fieldsOfWord x w) = some i) :
    encode i = wordOfFields (fieldsOfWord x w) ∧ i.wellFormed x = true := by
  have format : (fieldsOfWord x w).format = formatOf (opcodeOf w) := rfl
  have immediate : (fieldsOfWord x w).immediate = immediateOf x (formatOf (opcodeOf w)) w := rfl
  rcases Machine.opcode_of_known known with h | h | h | h | h | h | h | h | h <;>
    have opcode := (show (fieldsOfWord x w).opcode = opcodeOf w from rfl).trans h <;>
    rw [h] at format immediate <;> simp only [formatOf] at format immediate <;>
    simp only [instrOfFields, opcode] at row <;> simp only [wordOfFields, format, opcode]
  · exact encode_of_opRow row
  · refine encode_of_opImmRow ?_ row
    rw [immediate, immediateOf, setWidth_sext_self x _ (by decide)]
    exact funct7Of_eq_immI_slice w
  · exact encode_of_loadRow row
  · exact encode_of_storeRow row
  · refine encode_of_branchRow ?_ row
    rw [immediate, immediateOf, setWidth_sext_self x _ (by decide)]
    exact immB_even w
  · cases row
    exact ⟨rfl, rfl⟩
  · cases row
    exact ⟨rfl, rfl⟩
  · cases row
    refine ⟨rfl, ?_⟩
    rw [immediate, immediateOf, setWidth_sext_self x _ (by decide)]
    exact immJ_even w
  · exact encode_of_jalrRow row

theorem encode_of_decodeInstr (decoded : decodeInstr x w = .ok i) :
    encode i = w ∧ i.wellFormed x = true := by
  obtain ⟨known, row⟩ := decodeInstr_ok_iff.1 decoded
  obtain ⟨encoded, exists_here⟩ := encode_of_instrOfFields known row
  exact ⟨encoded.trans (wordOfFields_fieldsOfWord x known), exists_here⟩

theorem decodeInstr_encode (exists_here : i.wellFormed x = true) :
    decodeInstr x (encode i) = .ok i :=
  decodeInstr_ok_iff.2 ⟨formatOf_opcodeOf_encode i, instrOfFields_fields exists_here⟩

/-! ## The statements on decoding and encoding -/

/-- Settles O10: the instruction's opcode is one of the map, and the record of its word selects its row
with every operand given back. -/
theorem decodeOfEncodeIsTheInstruction : Obligations.DecodeOfEncodeIsTheInstruction := by
  unfold Obligations.DecodeOfEncodeIsTheInstruction
  exact fun x i exists_here => decodeInstr_encode exists_here

/-- Settles O11: the word is its format's layout at its own fields, and so is the word of the row those
fields select. -/
theorem encodeOfDecodeIsTheWord : Obligations.EncodeOfDecodeIsTheWord := by
  unfold Obligations.EncodeOfDecodeIsTheWord
  exact fun x w i decoded => encode_of_decodeInstr decoded

/-- Settles O9: `wordOfFields` gives back the word that a record was decoded from. -/
theorem decodeIsInjective : Obligations.DecodeIsInjective := by
  unfold Obligations.DecodeIsInjective
  intro x w w' f decoded decoded'
  obtain ⟨known, rfl⟩ := decodeFields_ok decoded
  obtain ⟨known', same⟩ := decodeFields_ok decoded'
  calc w = wordOfFields (fieldsOfWord x w) := (wordOfFields_fieldsOfWord x known).symm
    _ = wordOfFields (fieldsOfWord x w') := congrArg wordOfFields same
    _ = w' := wordOfFields_fieldsOfWord x known'

end Sys2Proof
end

section
/-!
The statement about the bundles' consistency (`42_control.md`), settled.
-/

namespace Sys2Proof.Machine

variable {x : XLen}

/-! ## What the generator can answer (rules R112 to R121) -/

theorem opTable_ne_unset {f3 : BitVec 3} {f7 : BitVec 7} {op : AluOp}
    (row : opTable f3 f7 = some op) : op ≠ .UNSET := by
  unfold opTable at row
  split at row <;> cases row <;> decide

theorem opImmTable_ne_unset {f3 : BitVec 3} {f7 : BitVec 7} {op : AluOp}
    (row : opImmTable x f3 f7 = some op) : op ≠ .UNSET := by
  rintro rfl
  unfold opImmTable at row
  split at row
  case h_7 | h_8 => split_ifs at row <;> cases row
  all_goals cases row

theorem branchTable_ne_unset {f3 : BitVec 3} {op : AluOp} {p : Polarity}
    (row : branchTable f3 = some (op, p)) : op ≠ .UNSET := by
  rcases branchTable_op row with rfl | rfl | rfl <;> decide

/-- The bundles of the rows, with the opcode and the columns each one needs. -/
inductive IsBundle (f : DecodedFields x) (pc a : Word x) : ControlSignals x → Prop
  | nop : IsBundle f pc a nopSignals
  | alu {op : AluOp} (opcode : f.opcode ∈ [0x33#7, 0x13#7, 0x37#7, 0x17#7])
      (set : op ≠ .UNSET) : IsBundle f pc a (aluSignals op)
  | load (opcode : f.opcode = 0x03#7) (column : (loadWidth x f.funct3).isSome) :
      IsBundle f pc a loadSignals
  | store (opcode : f.opcode = 0x23#7) (column : (storeWidth x f.funct3).isSome) :
      IsBundle f pc a storeSignals
  | branch {op : AluOp} (opcode : f.opcode = 0x63#7) (set : op ≠ .UNSET) (taken : Bool) :
      IsBundle f pc a (branchSignals op taken (pc + f.immediate))
  | jal (opcode : f.opcode = 0x6F#7) : IsBundle f pc a (jumpSignals (pc + f.immediate))
  | jalr (opcode : f.opcode = 0x67#7) :
      IsBundle f pc a (jumpSignals (clearBit0 (a + f.immediate)))

theorem generate_of_unknown {f : DecodedFields x} (unknown : formatOf f.opcode = .Unknown)
    (pc a b : Word x) : generate f pc a b = nopSignals := by
  unfold generate
  split
  case h_10 => rfl
  all_goals
    next opcode =>
      rw [opcode] at unknown
      cases unknown

/-- Every bundle is one of the rows'. -/
theorem isBundle_generate (f : DecodedFields x) (pc a b : Word x) :
    IsBundle f pc a (generate f pc a b) := by
  by_cases known : formatOf f.opcode = .Unknown
  · rw [generate_of_unknown known]
    exact .nop
  rcases opcode_of_known known with h | h | h | h | h | h | h | h | h
  · rw [generate_op pc a b h]
    cases row : opTable f.funct3 f.funct7 with
    | none => exact .nop
    | some op => exact .alu (by simp [h]) (opTable_ne_unset row)
  · rw [generate_opImm pc a b h]
    cases row : opImmTable x f.funct3 f.funct7 with
    | none => exact .nop
    | some op => exact .alu (by simp [h]) (opImmTable_ne_unset row)
  · rw [generate_load pc a b h]
    cases column : loadWidth x f.funct3 with
    | none => exact .nop
    | some col => exact .load h (by rw [column]; rfl)
  · rw [generate_store pc a b h]
    cases column : storeWidth x f.funct3 with
    | none => exact .nop
    | some size => exact .store h (by rw [column]; rfl)
  · rw [generate_branch pc a b h]
    cases row : branchTable f.funct3 with
    | none =>
      rw [generateBranch_of_no_row pc a b row]
      exact .nop
    | some opTest =>
      obtain ⟨op, test⟩ := opTest
      obtain ⟨c, compared⟩ := execute_ok_of_branchTable row a b
      rw [generateBranch_of_row pc a b row compared]
      exact .branch h (branchTable_ne_unset row) _
  · rw [generate_lui pc a b h]
    exact .alu (by simp [h]) (by decide)
  · rw [generate_auipc pc a b h]
    exact .alu (by simp [h]) (by decide)
  · rw [generate_jal pc a b h]
    exact .jal h
  · rw [generate_jalr pc a b h]
    split
    · exact .jalr h
    · exact .nop

/-! ## The statement -/

/-- Settles O17: each row's bundle is consistent, and every bundle is a row's. -/
theorem bundlesAreConsistent : Obligations.BundlesAreConsistent := by
  unfold Obligations.BundlesAreConsistent
  rintro x f pc a b c made
  have bundle := isBundle_generate f pc a b
  rw [made] at bundle
  clear made
  cases bundle with
  | nop => simp [nopSignals]
  | alu opcode set =>
    simpa [aluSignals, nopSignals] using set
  | load opcode column => simp [loadSignals, nopSignals, opcode, column]
  | store opcode column => simp [storeSignals, nopSignals, opcode, column]
  | branch opcode set taken => simp [branchSignals, nopSignals, opcode, set]
  | jal opcode => simp [jumpSignals, nopSignals, opcode]
  | jalr opcode => simp [jumpSignals, nopSignals, opcode]

end Sys2Proof.Machine
end

section
/-!
The statements about the decoder's record and its rows (`30_encoding.md`, `40_decoder.md`), settled.
-/

namespace Sys2Proof.Machine

variable {x : XLen} {f : DecodedFields x}

/-- Stores and branches write no register (rules R74, R116, R117). -/
theorem regWrite_generate_of_S_or_B (pc a b : Word x) (h : f.opcode ∈ [0x23#7, 0x63#7]) :
    (generate f pc a b).regWrite = false := by
  have bundle := isBundle_generate f pc a b
  generalize generate f pc a b = c at bundle ⊢
  cases bundle with
  | nop | store | branch => rfl
  | alu opcode => simp at h opcode; rcases h with h | h <;> simp [h] at opcode
  | load opcode | jal opcode | jalr opcode => simp [opcode] at h

theorem opcode_of_S_or_B {op : BitVec 7} (h : formatOf op ∈ [.S, .B]) : op ∈ [0x23#7, 0x63#7] := by
  revert op
  decide

end Sys2Proof.Machine

namespace Sys2Proof

/-- Settles O7. -/
theorem decodeExtractsTheFields : Obligations.DecodeExtractsTheFields := by
  unfold Obligations.DecodeExtractsTheFields
  intro x w
  constructor
  · constructor
    · exact decodeFields_of_unknown
    · intro failed
      by_contra known
      rw [decodeFields_of_known known] at failed
      cases failed
  · rintro fmt rfl known
    refine ⟨_, decodeFields_of_known known, rfl, opcodeOf_toNat w, funct3Of_toNat w, funct7Of_toNat w,
      ?_, ?_, ?_, ?_⟩
    · rw [← rs1Of_toNat]
      simp only [fieldsOfWord, fieldsAs]
      cases formatOf (opcodeOf w) <;> rfl
    · rw [← rs2Of_toNat]
      simp only [fieldsOfWord, fieldsAs]
      cases formatOf (opcodeOf w) <;> rfl
    · rw [← rdOf_toNat]
      simp only [fieldsOfWord, fieldsAs]
      cases formatOf (opcodeOf w) <;> rfl
    · intro no_rd pc a b
      exact Machine.regWrite_generate_of_S_or_B pc a b (Machine.opcode_of_S_or_B no_rd)

end Sys2Proof
end

section
/-!
The statements about the opcode table and the words without a row (`30_encoding.md`), settled.
-/

namespace Sys2Proof

variable {x : XLen} {w : InstrWord}

/-! ## The combinations of rule R66 -/

theorem opTable_eq_none_iff (f3 : BitVec 3) (f7 : BitVec 7) :
    Machine.opTable f3 f7 = none ↔ f7 ≠ 0#7 ∧ ¬ (f7 = 0x20#7 ∧ (f3 = 0#3 ∨ f3 = 5#3)) := by
  revert f3 f7
  decide

theorem loadWidth_eq_none_iff (x : XLen) (f3 : BitVec 3) :
    Machine.loadWidth x f3 = none ↔ f3 = 7#3 ∨ x = .x32 ∧ (f3 = 3#3 ∨ f3 = 6#3) := by
  revert f3
  cases x <;> decide

theorem storeWidth_eq_none_iff (x : XLen) (f3 : BitVec 3) :
    Machine.storeWidth x f3 = none ↔ 4 ≤ f3.toNat ∨ x = .x32 ∧ f3 = 3#3 := by
  revert f3
  cases x <;> decide

theorem branchTable_eq_none_iff (f3 : BitVec 3) :
    Machine.branchTable f3 = none ↔ f3 = 2#3 ∨ f3 = 3#3 := by
  revert f3
  decide

/-- Bits 6 to 1 of `funct7` are the word's upper six. -/
theorem funct7Of_toNat_div_two (w : InstrWord) : (funct7Of w).toNat / 2 = w.toNat / 2 ^ 26 := by
  rw [funct7Of_toNat]
  omega

theorem shiftSelector_eq_logical_iff (x : XLen) (f7 : BitVec 7) :
    shiftSelector x f7 = some false ↔ if x = .x32 then f7 = 0#7 else f7.toNat / 2 = 0 := by
  revert f7
  cases x <;> decide

theorem shiftSelector_eq_none_iff (x : XLen) (f7 : BitVec 7) :
    shiftSelector x f7 = none ↔
      if x = .x32 then f7 ≠ 0#7 ∧ f7 ≠ 0x20#7 else f7.toNat / 2 ≠ 0 ∧ f7.toNat / 2 ≠ 0x10 := by
  revert f7
  cases x <;> decide

/-- Of the OP-IMM words only shifts lack a row: a left shift without the logical selector, and a right
shift without any. -/
theorem opImmRow_eq_none_iff_shift (f : DecodedFields x) :
    opImmRow f = none ↔
      (f.funct3 = 1#3 ∧ shiftSelector x f.funct7 ≠ some false) ∨
      (f.funct3 = 5#3 ∧ shiftSelector x f.funct7 = none) := by
  unfold opImmRow
  rcases Machine.funct3_cases f.funct3 with h | h | h | h | h | h | h | h
  case inr.inl | inr.inr.inr.inr.inr.inl =>
    simp only [h]
    split <;> simp_all
  all_goals simp (disch := decide) [h]

/-- Settles O14: such a word has a known opcode and no row, and opcode by opcode the function codes of
the rows are the complement of the listed ones. -/
theorem safeNoOpWordsAreTheListedCombinations :
    Obligations.SafeNoOpWordsAreTheListedCombinations := by
  unfold Obligations.SafeNoOpWordsAreTheListedCombinations
  intro x w
  rw [decodeInstr_safeNoOp_iff]
  have opcode : (fieldsOfWord x w).opcode = opcodeOf w := rfl
  have funct3 : (fieldsOfWord x w).funct3 = funct3Of w := rfl
  have funct7 : (fieldsOfWord x w).funct7 = funct7Of w := rfl
  by_cases known : formatOf (opcodeOf w) = .Unknown
  · have not_listed : ∀ op, opcodeOf w = op → formatOf op = .Unknown := fun op same => same ▸ known
    simp only [known, ne_eq, not_true_eq_false, false_and, false_iff]
    rintro (⟨h, -⟩ | ⟨h, -⟩ | ⟨h, -⟩ | ⟨h, -⟩ | ⟨h, -⟩ | ⟨h, -⟩ | ⟨h, -⟩) <;>
      cases not_listed _ h
  simp only [known, ne_eq, not_false_eq_true, true_and]
  rcases Machine.opcode_of_known known with h | h | h | h | h | h | h | h | h <;>
    simp only [instrOfFields, opcode, h]
  · simp [Machine.opRow_eq_none_iff, funct3, funct7, opTable_eq_none_iff]
  · rw [opImmRow_eq_none_iff_shift, shiftSelector_eq_none_iff, Ne, shiftSelector_eq_logical_iff,
      funct3, funct7, funct7Of_toNat_div_two]
    cases x <;> simp
  · simp [Machine.loadRow_eq_none_iff, funct3, loadWidth_eq_none_iff]
  · simp [Machine.storeRow_eq_none_iff, funct3, storeWidth_eq_none_iff]
  · simp [Machine.branchRow_eq_none_iff, funct3, branchTable_eq_none_iff]
  · simp
  · simp
  · simp
  · simp [Machine.jalrRow_eq_none_iff, funct3]

/-- Settles O15: each word is written out, so decoding it is a computation. -/
theorem wordsOfTheSpecDecode : Obligations.WordsOfTheSpecDecode := by
  unfold Obligations.WordsOfTheSpecDecode
  exact ⟨rfl, rfl, rfl, rfl, rfl, rfl, rfl, rfl, rfl, rfl, rfl⟩

end Sys2Proof
end

section
/-!
The statement about the opcode table by match and mask (`30_encoding.md` section 3), settled.
-/

namespace Sys2Proof

variable {x : XLen} {w : InstrWord} {i : Instr} {r : TableRow}

/-! ## The row of an instruction -/

/-- The 40-row table has a row for every instruction. -/
theorem ownedByItsRow (i : Instr) : Laws.OwnedByItsRow.Statement i := by
  cases i
  case add => exact Laws.OwnedByItsRow.add _ _ _
  case sub => exact Laws.OwnedByItsRow.sub _ _ _
  case sll => exact Laws.OwnedByItsRow.sll _ _ _
  case slt => exact Laws.OwnedByItsRow.slt _ _ _
  case sltu => exact Laws.OwnedByItsRow.sltu _ _ _
  case xor => exact Laws.OwnedByItsRow.xor _ _ _
  case srl => exact Laws.OwnedByItsRow.srl _ _ _
  case sra => exact Laws.OwnedByItsRow.sra _ _ _
  case or => exact Laws.OwnedByItsRow.or _ _ _
  case and => exact Laws.OwnedByItsRow.and _ _ _
  case addi => exact Laws.OwnedByItsRow.addi _ _ _
  case slti => exact Laws.OwnedByItsRow.slti _ _ _
  case sltiu => exact Laws.OwnedByItsRow.sltiu _ _ _
  case xori => exact Laws.OwnedByItsRow.xori _ _ _
  case ori => exact Laws.OwnedByItsRow.ori _ _ _
  case andi => exact Laws.OwnedByItsRow.andi _ _ _
  case slli => exact Laws.OwnedByItsRow.slli _ _ _
  case srli => exact Laws.OwnedByItsRow.srli _ _ _
  case srai => exact Laws.OwnedByItsRow.srai _ _ _
  case lui => exact Laws.OwnedByItsRow.lui _ _
  case auipc => exact Laws.OwnedByItsRow.auipc _ _
  case lb => exact Laws.OwnedByItsRow.lb _ _ _
  case lh => exact Laws.OwnedByItsRow.lh _ _ _
  case lw => exact Laws.OwnedByItsRow.lw _ _ _
  case lbu => exact Laws.OwnedByItsRow.lbu _ _ _
  case lhu => exact Laws.OwnedByItsRow.lhu _ _ _
  case lwu => exact Laws.OwnedByItsRow.lwu _ _ _
  case ld => exact Laws.OwnedByItsRow.ld _ _ _
  case sb => exact Laws.OwnedByItsRow.sb _ _ _
  case sh => exact Laws.OwnedByItsRow.sh _ _ _
  case sw => exact Laws.OwnedByItsRow.sw _ _ _
  case sd => exact Laws.OwnedByItsRow.sd _ _ _
  case beq => exact Laws.OwnedByItsRow.beq _ _ _
  case bne => exact Laws.OwnedByItsRow.bne _ _ _
  case blt => exact Laws.OwnedByItsRow.blt _ _ _
  case bge => exact Laws.OwnedByItsRow.bge _ _ _
  case bltu => exact Laws.OwnedByItsRow.bltu _ _ _
  case bgeu => exact Laws.OwnedByItsRow.bgeu _ _ _
  case jal => exact Laws.OwnedByItsRow.jal _ _
  case jalr => exact Laws.OwnedByItsRow.jalr _ _ _

/-- The names of the rows that a 32-bit table does not have in the same form: the shift-immediates have
another mask there (rule R61), the others do not exist (rule R63). -/
def namesOf64 : List String := ["SLLI", "SRLI", "SRAI", "LWU", "LD", "SD"]

theorem mem_opcodeTable_x32 :
    ∀ r ∈ opcodeTable .x64, r.mnemonic ∉ namesOf64 → r ∈ opcodeTable .x32 := by
  decide

/-- No two rows have one name. -/
theorem mnemonic_injOn_opcodeTable (x : XLen) :
    ∀ r ∈ opcodeTable x, ∀ r' ∈ opcodeTable x, r.mnemonic = r'.mnemonic → r = r' := by
  cases x <;> decide

/-- At 32 bits the top bit of a shift amount is one of the fixed bits of the row. -/
theorem slice_shiftUpper_append_of_fits (arithmetic : Bool) {shamt : BitVec 6}
    (fits : shamtFits .x32 shamt = true) :
    (shiftUpper arithmetic ++ shamt).extractLsb' 5 7 = shiftUpper arithmetic ++ 0#1 := by
  revert arithmetic shamt
  decide

theorem owns_encode_shift_x32 (mn : String) {v : InstrWord} {f3 : BitVec 3} (arithmetic : Bool)
    (rd rs1 : RegIndex) {shamt : BitVec 6} (fits : shamtFits .x32 shamt = true)
    (value : v = codeWord7 (shiftUpper arithmetic ++ 0#1) f3 0x13#7) :
    (TableRow.mk mn (shiftMask .x32) v).owns
      (encodeI (shiftUpper arithmetic ++ shamt) rs1 f3 rd 0x13#7) = true := by
  rw [shiftMask, owns_funct7 mn _ f3 0x13#7 value]
  exact ⟨opcodeOf_encodeI .., funct3Of_encodeI ..,
    (funct7Of_encodeI ..).trans (slice_shiftUpper_append_of_fits arithmetic fits)⟩

/-- The table of every width has a row for every instruction of the width. -/
theorem exists_row_of_wellFormed (exists_here : i.wellFormed x = true) :
    ∃ r ∈ opcodeTable x, r.owns (encode i) = true ∧ r.mnemonic = i.mnemonic := by
  obtain ⟨r, listed, name, owner⟩ := ownedByItsRow i
  cases x with
  | x64 => exact ⟨r, listed, owner, name⟩
  | x32 =>
    by_cases same : i.mnemonic ∈ namesOf64
    · cases i
      case slli rd rs1 shamt =>
        exact ⟨⟨"SLLI", shiftMask .x32, 0x00001013#32⟩, by decide,
          owns_encode_shift_x32 _ false rd rs1 exists_here (by decide), rfl⟩
      case srli rd rs1 shamt =>
        exact ⟨⟨"SRLI", shiftMask .x32, 0x00005013#32⟩, by decide,
          owns_encode_shift_x32 _ false rd rs1 exists_here (by decide), rfl⟩
      case srai rd rs1 shamt =>
        exact ⟨⟨"SRAI", shiftMask .x32, 0x40005013#32⟩, by decide,
          owns_encode_shift_x32 _ true rd rs1 exists_here (by decide), rfl⟩
      case lwu | ld | sd => cases exists_here
      all_goals exact absurd same (by simp only [Instr.mnemonic]; decide)
    · exact ⟨r, mem_opcodeTable_x32 r listed (name ▸ same), owner, name⟩

/-! ## The instruction of a row -/

/-- The selector of a shift-immediate at 64 bits reads the word's upper six bits (rule R61). -/
theorem top6Of_eq_funct7Of_slice (w : InstrWord) : top6Of w = (funct7Of w).extractLsb' 1 6 := by
  apply BitVec.eq_of_toNat_eq
  rw [top6Of, toNat_slice, toNat_slice, funct7Of_toNat]
  omega

/-- The word's record selects the row of that name. -/
def SelectsRow (x : XLen) (w : InstrWord) (name : String) : Prop :=
  formatOf (opcodeOf w) ≠ .Unknown ∧
    ∃ i, instrOfFields (fieldsOfWord x w) = some i ∧ i.mnemonic = name

section Select
variable {name : String} {v : InstrWord}

/-- A row that fixes the opcode alone. -/
theorem selectsRow_of_owns_opcode (owner : (TableRow.mk name 0x0000007F#32 v).owns w = true)
    (value : v = (opcodeOf v).setWidth 32) (known : formatOf (opcodeOf v) ≠ .Unknown)
    (row : ∀ f : DecodedFields x, f.opcode = opcodeOf v →
      ∃ i, instrOfFields f = some i ∧ i.mnemonic = name) : SelectsRow x w name := by
  have opcode := (owns_opcode name _ value w).1 owner
  exact ⟨opcode ▸ known, row _ opcode⟩

/-- A row that fixes the opcode and `funct3`. -/
theorem selectsRow_of_owns_funct3 (owner : (TableRow.mk name 0x0000707F#32 v).owns w = true)
    (value : v = codeWord3 (funct3Of v) (opcodeOf v)) (known : formatOf (opcodeOf v) ≠ .Unknown)
    (row : ∀ f : DecodedFields x, f.opcode = opcodeOf v → f.funct3 = funct3Of v →
      ∃ i, instrOfFields f = some i ∧ i.mnemonic = name) : SelectsRow x w name := by
  obtain ⟨opcode, funct3⟩ := (owns_funct3 name _ _ value w).1 owner
  exact ⟨opcode ▸ known, row _ opcode funct3⟩

/-- A row that fixes the opcode and both function codes. -/
theorem selectsRow_of_owns_funct7 (owner : (TableRow.mk name 0xFE00707F#32 v).owns w = true)
    (value : v = codeWord7 (funct7Of v) (funct3Of v) (opcodeOf v))
    (known : formatOf (opcodeOf v) ≠ .Unknown)
    (row : ∀ f : DecodedFields x, f.opcode = opcodeOf v → f.funct3 = funct3Of v →
      f.funct7 = funct7Of v → ∃ i, instrOfFields f = some i ∧ i.mnemonic = name) :
    SelectsRow x w name := by
  obtain ⟨opcode, funct3, funct7⟩ := (owns_funct7 name _ _ _ value w).1 owner
  exact ⟨opcode ▸ known, row _ opcode funct3 funct7⟩

/-- A shift-immediate's row, whose fixed upper bits are the selector's at either width. -/
theorem selectsRow_of_owns_shift (owner : (TableRow.mk name (shiftMask x) v).owns w = true)
    (value : v = codeWord7 (funct7Of v) (funct3Of v) (opcodeOf v))
    (value6 : v = codeWord6 (top6Of v) (funct3Of v) (opcodeOf v))
    (known : formatOf (opcodeOf v) ≠ .Unknown)
    (row : ∀ f : DecodedFields x, f.opcode = opcodeOf v → f.funct3 = funct3Of v →
      shiftSelector x f.funct7 = shiftSelector x (funct7Of v) →
      ∃ i, instrOfFields f = some i ∧ i.mnemonic = name) : SelectsRow x w name := by
  cases x with
  | x32 =>
    exact selectsRow_of_owns_funct7 owner value known fun f opcode funct3 funct7 =>
      row f opcode funct3 (congrArg _ funct7)
  | x64 =>
    obtain ⟨opcode, funct3, top6⟩ := (owns_top6 name _ _ _ value6 w).1 owner
    refine ⟨opcode ▸ known, row _ opcode funct3 ?_⟩
    show shiftSelector .x64 (funct7Of w) = shiftSelector .x64 (funct7Of v)
    simp only [shiftSelector, ← top6Of_eq_funct7Of_slice, top6]

end Select

theorem selectsRow_of_opRows (listed : r ∈ opRows) (owner : r.owns w = true) :
    SelectsRow x w r.mnemonic := by
  simp only [opRows, List.mem_cons, List.not_mem_nil, or_false] at listed
  rcases listed with rfl | rfl | rfl | rfl | rfl | rfl | rfl | rfl | rfl | rfl <;>
  exact selectsRow_of_owns_funct7 owner (by decide) (by decide) fun f opcode funct3 funct7 => by
    simp (disch := decide) [instrOfFields, opRow, opcode, funct3, funct7, opcodeOf, funct3Of,
      funct7Of, Instr.mnemonic]

theorem selectsRow_of_opImmRows (listed : r ∈ opImmRows x) (owner : r.owns w = true) :
    SelectsRow x w r.mnemonic := by
  have logical : shiftSelector x 0#7 = some false := by cases x <;> rfl
  have arithmetic : shiftSelector x 0x20#7 = some true := by cases x <;> rfl
  simp only [opImmRows, List.mem_cons, List.not_mem_nil, or_false] at listed
  rcases listed with rfl | rfl | rfl | rfl | rfl | rfl | rfl | rfl | rfl | rfl | rfl
  case inr.inr.inr.inr.inr.inr.inr.inr.inr.inl | inr.inr.inr.inr.inr.inr.inr.inr.inr.inr =>
    exact selectsRow_of_owns_opcode owner (by decide) (by decide) fun f opcode => by
      simp [instrOfFields, opcode, opcodeOf, Instr.mnemonic]
  case inr.inr.inr.inr.inr.inr.inl | inr.inr.inr.inr.inr.inr.inr.inl |
      inr.inr.inr.inr.inr.inr.inr.inr.inl =>
    exact selectsRow_of_owns_shift owner (by decide) (by decide) (by decide)
      fun f opcode funct3 selector => by
        simp [instrOfFields, opImmRow, opcode, funct3, selector, opcodeOf, funct3Of, funct7Of,
          logical, arithmetic, Instr.mnemonic]
  all_goals
    exact selectsRow_of_owns_funct3 owner (by decide) (by decide) fun f opcode funct3 => by
      simp (disch := decide) [instrOfFields, opImmRow, opcode, funct3, opcodeOf, funct3Of,
        Instr.mnemonic]

theorem selectsRow_of_memoryRows (listed : r ∈ memoryRows ++ rows64 x) (owner : r.owns w = true) :
    SelectsRow x w r.mnemonic := by
  cases x <;>
  simp only [memoryRows, rows64, List.append_nil, List.cons_append, List.nil_append, List.mem_cons,
    List.not_mem_nil, or_false] at listed <;>
  rcases listed with rfl | rfl | rfl | rfl | rfl | rfl | rfl | rfl | rfl | rfl | rfl <;>
  exact selectsRow_of_owns_funct3 owner (by decide) (by decide) fun f opcode funct3 => by
    simp [instrOfFields, loadRow, storeRow, opcode, funct3, opcodeOf, funct3Of, only64,
      Instr.mnemonic]

theorem selectsRow_of_controlRows (listed : r ∈ controlRows) (owner : r.owns w = true) :
    SelectsRow x w r.mnemonic := by
  simp only [controlRows, List.mem_cons, List.not_mem_nil, or_false] at listed
  rcases listed with rfl | rfl | rfl | rfl | rfl | rfl | rfl | rfl
  case inr.inr.inr.inr.inr.inr.inl =>
    exact selectsRow_of_owns_opcode owner (by decide) (by decide) fun f opcode => by
      simp [instrOfFields, opcode, opcodeOf, Instr.mnemonic]
  all_goals
    exact selectsRow_of_owns_funct3 owner (by decide) (by decide) fun f opcode funct3 => by
      simp [instrOfFields, branchRow, jalrRow, opcode, funct3, opcodeOf, funct3Of, Instr.mnemonic]

/-- A word that a row owns is that row's instruction. -/
theorem decodeInstr_of_owns (listed : r ∈ opcodeTable x) (owner : r.owns w = true) :
    ∃ i, decodeInstr x w = .ok i ∧ i.mnemonic = r.mnemonic := by
  have selects : SelectsRow x w r.mnemonic := by
    simp only [opcodeTable, List.mem_append] at listed
    rcases listed with (((op | opImm) | memory) | only) | control
    · exact selectsRow_of_opRows op owner
    · exact selectsRow_of_opImmRows opImm owner
    · exact selectsRow_of_memoryRows (List.mem_append_left _ memory) owner
    · exact selectsRow_of_memoryRows (List.mem_append_right _ only) owner
    · exact selectsRow_of_controlRows control owner
  obtain ⟨known, i, row, name⟩ := selects
  exact ⟨i, decodeInstr_ok_iff.2 ⟨known, row⟩, name⟩

theorem exists_row_of_decodeInstr (decoded : decodeInstr x w = .ok i) :
    ∃ r ∈ opcodeTable x, r.owns w = true ∧ r.mnemonic = i.mnemonic := by
  obtain ⟨rfl, exists_here⟩ := encode_of_decodeInstr decoded
  exact exists_row_of_wellFormed exists_here

/-- Both rows are the row of the one instruction the word is. -/
theorem owns_unique {r' : TableRow} (listed : r ∈ opcodeTable x) (listed' : r' ∈ opcodeTable x)
    (owner : r.owns w = true) (owner' : r'.owns w = true) : r = r' := by
  obtain ⟨i, decoded, name⟩ := decodeInstr_of_owns listed owner
  obtain ⟨i', decoded', name'⟩ := decodeInstr_of_owns listed' owner'
  obtain rfl := Except.ok.inj (decoded.symm.trans decoded')
  exact mnemonic_injOn_opcodeTable x r listed r' listed' (name.symm.trans name')

/-! ## The sentinel before the decoder (rules R63, R69) -/

section Classify
variable {sentinel : InstrWord}

theorem classifyWord_eq_sentinel_iff :
    classifyWord x sentinel w = .sentinel ↔ w = sentinel := by
  unfold classifyWord
  split
  · simpa
  · next other => split <;> simp [other]

theorem classifyWord_of_instr (other : w ≠ sentinel) (decoded : decodeInstr x w = .ok i) :
    classifyWord x sentinel w = .instr i := by
  simp only [classifyWord, if_neg other, decoded]

theorem classifyWord_of_safeNoOp (other : w ≠ sentinel)
    (decoded : decodeInstr x w = .error .safeNoOp) :
    classifyWord x sentinel w = .safeNoOp := by
  simp only [classifyWord, if_neg other, decoded]

theorem classifyWord_of_unknown (other : w ≠ sentinel)
    (unknown : formatOf (opcodeOf w) = .Unknown) : classifyWord x sentinel w = .illegal := by
  simp only [classifyWord, if_neg other, (decodeInstr_illegal_iff x w).2 unknown]

theorem decodeInstr_of_classifyWord (classified : classifyWord x sentinel w = .instr i) :
    decodeInstr x w = .ok i := by
  unfold classifyWord at classified
  split at classified
  · cases classified
  · split at classified <;> cases classified
    assumption

end Classify

/-- Settles O12: by match and mask a row owns exactly the words that are its instruction, and the
classification asks the decoder for every word but the sentinel. -/
theorem decoderAgreesWithTheOpcodeTable : Obligations.DecoderAgreesWithTheOpcodeTable := by
  unfold Obligations.DecoderAgreesWithTheOpcodeTable
  refine ⟨rfl, rfl, fun x sentinel w => ⟨classifyWord_eq_sentinel_iff, fun other =>
    ⟨classifyWord_of_unknown other, ?owned, ?row, ?unowned⟩, fun r r' => owns_unique⟩⟩
  case owned =>
    intro r listed owner
    obtain ⟨i, decoded, name⟩ := decodeInstr_of_owns listed owner
    exact ⟨i, classifyWord_of_instr other decoded, name, (encode_of_decodeInstr decoded).2⟩
  case row =>
    intro i classified
    exact exists_row_of_decodeInstr (decodeInstr_of_classifyWord classified)
  case unowned =>
    intro known no_owner
    apply classifyWord_of_safeNoOp other
    refine decodeInstr_safeNoOp_iff.2 ⟨known, Option.eq_none_iff_forall_ne_some.2 fun i row => ?_⟩
    obtain ⟨r, listed, owner, -⟩ := exists_row_of_decodeInstr (decodeInstr_ok_iff.2 ⟨known, row⟩)
    rw [no_owner r listed] at owner
    cases owner

end Sys2Proof
end

section
/-!
The statements about memory, its ports and the accesses it refuses (`20_memory.md`), settled.
-/

namespace Sys2Proof.Machine

variable {x : XLen} {m : CoreState x} {i : Instr} {f3 : BitVec 3} {n : Nat} {signExtend : Bool}
  {rd rs1 rs2 : RegIndex} {imm : BitVec 12}

/-- Settles O32, from the laws of a run of bytes written inside the extent. -/
theorem memWriteChangesExactlyItsBytes : Obligations.MemWriteChangesExactlyItsBytes := by
  unfold Obligations.MemWriteChangesExactlyItsBytes
  intro x cfg mem addr v n sizes accepts
  have small : 0 + n ≤ 2 ^ 32 := by
    simp only [List.mem_cons, List.not_mem_nil, or_false] at sizes
    omega
  have held := dmemCheck_ok_held accepts
  obtain ⟨written, others⟩ := readByte_writeBytes cfg mem addr v n 0 small fun j _ inside =>
    held j (by omega)
  exact ⟨fun k inside => written k (Nat.zero_le k) (by omega),
    fun a other => others a fun j _ inside => other j (by omega),
    memoryWf_dmemWrite cfg mem addr v n accepts⟩

/-- Settles O33: the data memory's answer to a read it accepts. -/
theorem memReadIsTheLittleEndianValue : Obligations.MemReadIsTheLittleEndianValue := by
  unfold Obligations.MemReadIsTheLittleEndianValue
  exact fun x m addr n signExtend byte sized accepts bytes => dmemRead_of_accepted sized accepts bytes

theorem dmemCheck_of_bad_size (cfg : Config) (addr : Word x) (unsized : n ∉ dmemSizes x) :
    dmemCheck cfg addr n = .error (.invalidAccessSize addr n) :=
  if_pos unsized

/-- Settles O34: the size is looked at first, then `accepted` decides. -/
theorem dataAccessAcceptance : Obligations.DataAccessAcceptance := by
  unfold Obligations.DataAccessAcceptance
  exact fun x m addr n => ⟨dmemCheck_of_bad_size m.cfg addr,
    fun sized => (dmemCheck_of_accepted sized).1, fun sized => (dmemCheck_of_accepted sized).2⟩

/-! ## The instruction port (rules R32, R33, R252) -/

theorem fetchWord_of_misaligned (misaligned : m.pc.toNat % 4 ≠ 0) :
    m.fetchWord = .error (.instructionFetchFailure m.pc) :=
  if_pos misaligned

/-- At an aligned `pc` Fetch answers for the four bytes as the memory does. -/
theorem fetchWord_of_aligned (aligned : m.pc.toNat % 4 = 0) :
    m.fetchWord = (readBytes m.cfg m.mem m.pc 0 4).elim (.error (.instructionFetchFailure m.pc))
      fun bytes => .ok (BitVec.ofNat 32 (littleEndian bytes)) := by
  rw [CoreState.fetchWord, if_neg (not_not.2 aligned), imemRead, if_neg (by decide)]
  cases readBytes m.cfg m.mem m.pc 0 4 <;> rfl

/-- The four bytes of an aligned access do not wrap around. -/
theorem accessAddr_of_aligned {addr : Word x} (aligned : addr.toNat % 4 = 0) {k : Nat} (inside : k < 4) :
    accessAddr addr k = addr.toNat + k := by
  have four_dvd : 2 ^ x.bits % 4 = 0 := by cases x <;> rfl
  have := addr.isLt
  exact Nat.mod_eq_of_lt (by omega)

theorem fetchWord_of_bytes {byte : Nat → Byte} (aligned : m.pc.toNat % 4 = 0)
    (bytes : ∀ k, k < 4 → readByte m.cfg m.mem (m.pc.toNat + k) = some (byte k)) :
    m.fetchWord = .ok (BitVec.ofNat 32 (bytesValue byte 4)) := by
  have read := readBytes_eq m.cfg m.mem m.pc byte 4 0 fun j _ inside => by
    rw [accessAddr_of_aligned aligned (by omega), bytes j (by omega)]
  rw [fetchWord_of_aligned aligned, read, ← littleEndian_eq_bytesValue]
  rfl

theorem readBytes_eq_none {cfg : Config} {mem : List Host.Cell} {addr : Word x} {k : Nat}
    (inside : k < n) (missing : readByte cfg mem (accessAddr addr k) = none) :
    readBytes cfg mem addr 0 n = none := by
  rw [← Option.not_isSome_iff_eq_none, readBytes_isSome, rangeHeld_iff]
  intro held
  have read := readByte_isSome cfg mem (accessAddr addr k)
  rw [missing, held k (Nat.zero_le k) (by omega)] at read
  cases read

/-- Settles O35: an aligned access does not wrap, so its bytes are the four from `pc` on, and four bytes
make a number of 32 bits. -/
theorem fetchReadsAnAlignedWord : Obligations.FetchReadsAnAlignedWord := by
  unfold Obligations.FetchReadsAnAlignedWord
  intro x m byte
  refine ⟨fun aligned bytes => ⟨_, fetchWord_of_bytes aligned bytes, ?_⟩,
    fetchWord_of_misaligned, ?_⟩
  · rw [BitVec.toNat_ofNat, Nat.mod_eq_of_lt (bytesValue_lt byte 4)]
  · rintro ⟨k, inside, missing⟩
    by_cases aligned : m.pc.toNat % 4 = 0
    · rw [fetchWord_of_aligned aligned, readBytes_eq_none inside missing]
      rfl
    · exact fetchWord_of_misaligned aligned

/-! ## Effective addresses and refused accesses (rules R210, R218, R254) -/

/-- Settles O25: adding the sign-extended offset is adding its signed number. -/
theorem effectiveAddressIsBasePlusOffset : Obligations.EffectiveAddressIsBasePlusOffset := by
  unfold Obligations.EffectiveAddressIsBasePlusOffset
  intro x m rs1 imm
  rw [CoreState.effectiveAddress, aluAdd, add_sext_eq_ofInt, BitVec.toNat_ofInt]
  have nonneg := Int.emod_nonneg ((m.readReg rs1).toNat + imm.toInt)
    (by positivity : ((2 ^ x.bits : Nat) : Int) ≠ 0)
  rw [Int.toNat_of_nonneg nonneg]
  push_cast
  rfl

section Accesses
variable (x rd rs1 rs2 imm)

theorem isLoad_lb : IsLoad x (.lb rd rs1 imm) 0#3 1 true rd rs1 imm :=
  ⟨by decide, rfl, rfl, fun _ => rfl⟩

theorem isLoad_lh : IsLoad x (.lh rd rs1 imm) 1#3 2 true rd rs1 imm :=
  ⟨by decide, rfl, rfl, fun _ => rfl⟩

theorem isLoad_lw : IsLoad x (.lw rd rs1 imm) 2#3 4 true rd rs1 imm :=
  ⟨by decide, rfl, rfl, fun _ => rfl⟩

theorem isLoad_lbu : IsLoad x (.lbu rd rs1 imm) 4#3 1 false rd rs1 imm :=
  ⟨by decide, rfl, rfl, fun _ => rfl⟩

theorem isLoad_lhu : IsLoad x (.lhu rd rs1 imm) 5#3 2 false rd rs1 imm :=
  ⟨by decide, rfl, rfl, fun _ => rfl⟩

theorem isLoad_lwu : IsLoad x (.lwu rd rs1 imm) 6#3 4 false rd rs1 imm :=
  ⟨by decide, rfl, rfl, fun _ => rfl⟩

theorem isLoad_ld : IsLoad x (.ld rd rs1 imm) 3#3 8 true rd rs1 imm :=
  ⟨by decide, rfl, rfl, fun _ => rfl⟩

theorem isStore_sb : IsStore x (.sb rs2 rs1 imm) 0#3 1 rs2 rs1 imm :=
  ⟨by decide, rfl, rfl, fun _ => rfl⟩

theorem isStore_sh : IsStore x (.sh rs2 rs1 imm) 1#3 2 rs2 rs1 imm :=
  ⟨by decide, rfl, rfl, fun _ => rfl⟩

theorem isStore_sw : IsStore x (.sw rs2 rs1 imm) 2#3 4 rs2 rs1 imm :=
  ⟨by decide, rfl, rfl, fun _ => rfl⟩

theorem isStore_sd : IsStore x (.sd rs2 rs1 imm) 3#3 8 rs2 rs1 imm :=
  ⟨by decide, rfl, rfl, fun _ => rfl⟩

end Accesses

/-- A load the memory refuses ends in `OutOfRange`. -/
theorem IsLoad.failsOutOfRange_of_refused (load : IsLoad x i f3 n signExtend rd rs1 imm)
    (exists_here : i.wellFormed x = true) (refused : ¬ accepted m (m.effectiveAddress rs1 imm) n) :
    failsOutOfRange m i (m.effectiveAddress rs1 imm) := by
  have sized := mem_dmemSizes_of_loadWidth (load.column.trans (if_pos exists_here))
  apply failsOutOfRange_of_abandon
  rw [load.meaning, if_pos exists_here, load_error ((dmemCheck_of_accepted sized).2 refused)]

/-- A store the memory refuses ends in `OutOfRange`. -/
theorem IsStore.failsOutOfRange_of_refused (store : IsStore x i f3 n rs2 rs1 imm)
    (exists_here : i.wellFormed x = true) (refused : ¬ accepted m (m.effectiveAddress rs1 imm) n) :
    failsOutOfRange m i (m.effectiveAddress rs1 imm) := by
  have sized := mem_dmemSizes_of_storeWidth (store.column.trans (if_pos exists_here))
  apply failsOutOfRange_of_abandon
  rw [store.meaning, if_pos exists_here, store_error ((dmemCheck_of_accepted sized).2 refused)]

/-- Settles O28: each row is a load or a store with its column, whose access has a size of the width. -/
theorem refusedAccessesAreOutOfRange : Obligations.RefusedAccessesAreOutOfRange := by
  unfold Obligations.RefusedAccessesAreOutOfRange
  intro x m r rs1 imm row listed
  simp only [List.mem_cons, List.not_mem_nil, or_false] at listed
  rcases listed with rfl | rfl | rfl | rfl | rfl | rfl | rfl | rfl | rfl | rfl | rfl
  · exact (isLoad_lb x r rs1 imm).failsOutOfRange_of_refused
  · exact (isLoad_lh x r rs1 imm).failsOutOfRange_of_refused
  · exact (isLoad_lw x r rs1 imm).failsOutOfRange_of_refused
  · exact (isLoad_lbu x r rs1 imm).failsOutOfRange_of_refused
  · exact (isLoad_lhu x r rs1 imm).failsOutOfRange_of_refused
  · exact (isLoad_lwu x r rs1 imm).failsOutOfRange_of_refused
  · exact (isLoad_ld x r rs1 imm).failsOutOfRange_of_refused
  · exact (isStore_sb x rs1 r imm).failsOutOfRange_of_refused
  · exact (isStore_sh x rs1 r imm).failsOutOfRange_of_refused
  · exact (isStore_sw x rs1 r imm).failsOutOfRange_of_refused
  · exact (isStore_sd x rs1 r imm).failsOutOfRange_of_refused

end Sys2Proof.Machine
end

section
/-!
The statements about the jumps, the ALU's failure and reset (`41_alu.md`, `47_control_transfer.md`,
`10_state.md` section 9), settled.
-/

namespace Sys2Proof.Machine

variable {x : XLen}

/-! ## The jumps (rules R238, R239) -/

theorem relativeTarget_eq (m : CoreState x) {n : Nat} (imm : BitVec n) :
    m.relativeTarget imm = m.pc + BitVec.ofInt x.bits imm.toInt :=
  rfl

/-- JALR's target is the base plus the signed offset, rounded down to an even number. -/
theorem registerTarget_toNat (m : CoreState x) (rs1 : RegIndex) (imm : BitVec 12) :
    ((m.registerTarget rs1 imm).toNat : Int) =
      (((m.readReg rs1).toNat : Int) + imm.toInt) % (2 ^ x.bits : Int) / 2 * 2 := by
  have sum := effectiveAddressIsBasePlusOffset x m rs1 imm
  rw [← sum, CoreState.registerTarget, clearBit0_toNat]
  rfl

/-- Settles O30: both meanings write the link value and go to a target whose number is the statement's. -/
theorem jumpResults : Obligations.JumpResults := by
  unfold Obligations.JumpResults
  intro x m rd rs1 imm21 imm12 t target
  have same : m.registerTarget rs1 imm12 = t := by
    apply BitVec.eq_of_toNat_eq
    have := registerTarget_toNat m rs1 imm12
    omega
  refine ⟨⟨hasIFields_of_encodeI rfl rfl, writesRegister_of_passTo rfl same rfl⟩, fun even => ?_⟩
  exact ⟨⟨opcodeOf_encodeJ .., rdOf_encodeJ .., immJ_encodeJ imm21 rd _ even⟩,
    writesRegister_of_passTo rfl (relativeTarget_eq m imm21) rfl⟩

/-! ## The ALU's only failure (rule R102) -/

theorem execute_ok_of_ne_unset {op : AluOp} (set : op ≠ .UNSET) (a b : Word x) :
    ∃ r, execute a b op = .ok r := by
  cases op
  case UNSET => exact absurd rfl set
  all_goals exact ⟨_, rfl⟩

/-- Settles O5. -/
theorem onlyTheUnsetOperationFails : Obligations.OnlyTheUnsetOperationFails := by
  unfold Obligations.OnlyTheUnsetOperationFails
  intro x a b
  refine ⟨rfl, fun c failed => (Except.error.inj failed).symm, fun op => ⟨?_, ?_⟩⟩
  · rintro ⟨c, failed⟩
    by_contra set
    obtain ⟨r, ok⟩ := execute_ok_of_ne_unset set a b
    rw [ok] at failed
    cases failed
  · rintro rfl
    exact ⟨_, rfl⟩

/-! ## Reset (rules R29, R280) -/

/-- `x[1]` to `x[31]` after reset are the host's values. -/
theorem resetWith_readReg_succ (m : CoreState x) (r : ResetValues x) (i : Fin 31) :
    (m.resetWith r).readReg (BitVec.ofNat 5 (i.val + 1)) = r.xInit[i] := by
  have index : (BitVec.ofNat 5 (i.val + 1)).toNat = i.val + 1 := by
    rw [BitVec.toNat_ofNat]
    omega
  have nonzero : BitVec.ofNat 5 (i.val + 1) ≠ 0#5 := by
    intro zero
    have := congrArg BitVec.toNat zero
    rw [index] at this
    simp at this
  rw [CoreState.readReg, if_neg nonzero]
  simp only [index]
  exact (Vector.getElem_append_right (by omega) (by omega)).trans (by simp)

/-- Settles O50. -/
theorem resetSetsTheTable : Obligations.ResetSetsTheTable := by
  unfold Obligations.ResetSetsTheTable
  rintro x m r _ rfl
  exact ⟨rfl, rfl, rfl, rfl, rfl, readReg_zero _, resetWith_readReg_succ m r, rfl, rfl, rfl, rfl, rfl,
    rfl, rfl⟩

/-- What a core is built as satisfies the invariant. -/
theorem inv_build {cfg : Config} {mem : List Host.Cell} {r : ResetValues x}
    (canonical : memoryWf cfg x.bits mem = true) (even : r.entryPc.toNat % 2 = 0) :
    Inv (CoreState.build cfg mem r) where
  memory := canonical
  zero := Vector.getElem_append_left (by decide)
  pcEven := even
  ifId _ valid := absurd valid.symm (Option.some_ne_none _)
  idEx _ valid := absurd valid.symm (Option.some_ne_none _)
  exM _ valid := absurd valid.symm (Option.some_ne_none _)
  mWb _ valid := absurd valid.symm (Option.some_ne_none _)
  counters := rfl
  ended := nofun
  running := by rintro - ⟨stopped, -⟩; cases stopped
  serial _ := Nat.zero_le 1

/-- Settles O51. -/
theorem invariantHoldsAtReset : Obligations.InvariantHoldsAtReset := by
  unfold Obligations.InvariantHoldsAtReset
  refine ⟨inv_build memoryWf_reset rfl, fun x cfg image r s built even => ?_⟩
  unfold construct at built
  split_ifs at built with illegal not_canonical
  obtain rfl := Except.ok.inj built
  exact inv_build (Bool.not_eq_false _ ▸ not_canonical) even

end Sys2Proof.Machine
end

section
/-!
The remaining statements about one clock cycle (`43_pipeline.md`, `60_exceptions.md`), settled.
-/

namespace Sys2Proof.Machine

variable {x : XLen} {m t : CoreState x}

/-! ## The cycle as a step (rules R154, R158) -/

theorem step_next_iff :
    step { xlen := x, core := m } = .next { xlen := x, core := t } ↔ clockCycle m = .ok t := by
  unfold step hostCall
  dsimp only
  cases clockCycle m <;> simp

theorem clockCycle_of_not_running (stopped : m.status ≠ .running) : clockCycle m = .ok m :=
  step_next_iff.1 (step_of_not_running stopped)

theorem clockCycle_of_evaluate_ok (running : m.status = .running) (evaluated : evaluate m = .ok t) :
    clockCycle m = .ok t := by
  simp only [clockCycle, running, evaluated]

theorem clockCycle_of_evaluate_fatal {c : Condition x} (running : m.status = .running)
    (evaluated : evaluate m = .error (.fatal c)) : clockCycle m = .ok (m.raise c) := by
  simp only [clockCycle, running, evaluated]

/-- Everything a clock cycle that answers a core can have done. -/
theorem clockCycle_ok_cases (cycled : clockCycle m = .ok t) :
    (m.status ≠ .running ∧ t = m) ∨
    (m.status = .running ∧ ∃ f d e w, CycleTo m t f d e w) ∨
    (m.status = .running ∧ ∃ c, evaluate m = .error (.fatal c) ∧ t = m.raise c) := by
  by_cases running : m.status = .running
  · right
    cases evaluated : evaluate m with
    | ok u =>
      rw [clockCycle_of_evaluate_ok running evaluated] at cycled
      obtain rfl := Except.ok.inj cycled
      exact .inl ⟨running, evaluate_ok_iff.1 evaluated⟩
    | error s =>
      cases s with
      | fatal c =>
        rw [clockCycle_of_evaluate_fatal running evaluated] at cycled
        exact .inr ⟨running, c, rfl, (Except.ok.inj cycled).symm⟩
      | noNext r =>
        simp only [clockCycle, running, evaluated] at cycled
        cases cycled
  · rw [clockCycle_of_not_running running] at cycled
    exact .inl ⟨running, (Except.ok.inj cycled).symm⟩

/-! ## Fetch at the edge (rules R134 to R136, R153) -/

/-- Settles O36: the three things Fetch's evaluate phase can have found. -/
theorem fetchLatchesTheWordOrStops : Obligations.FetchLatchesTheWordOrStops := by
  unfold Obligations.FetchLatchesTheWordOrStops
  intro x m t h
  obtain ⟨-, f, d, e, w, cycle⟩ := advances_iff.1 h
  obtain rfl := cycle.edge
  have saw := fetchStage_sawSentinel_iff cycle.fetch
  refine ⟨fun word fetched => ?_, fun off => ?_, fun sentinel => ?_, by simp [saw]⟩
  · rcases fetchStage_ok cycle.fetch with ⟨off, -⟩ | ⟨sentinel, -⟩ | ⟨word', fetched', rfl⟩
    · exact absurd fetched (not_fetches_of_disabled off word)
    · exact absurd fetched (not_fetches_of_sentinel sentinel word)
    · rw [fetches_unique fetched fetched', clockEdge_ifId]
  · rcases fetchStage_ok cycle.fetch with ⟨-, rfl⟩ | ⟨-, rfl⟩ | ⟨word, fetched, -⟩
    · rfl
    · rfl
    · exact absurd fetched (not_fetches_of_disabled off word)
  · have held := saw.2 sentinel
    rcases fetchStage_ok cycle.fetch with ⟨-, rfl⟩ | ⟨-, rfl⟩ | ⟨word, fetched, -⟩
    · cases held
    · exact ⟨rfl, by simp, nextPc_of_held _ (.inr rfl)⟩
    · exact absurd fetched (not_fetches_of_sentinel sentinel word)

/-! ## What moves from register to register (rules R142, R146, R149) -/

namespace CycleTo
variable {f : FetchOut x} {d : DecodeOut x} {e : Option (ExM x)} {w : MemoryOut x}
  (cycle : CycleTo m t f d e w)
include cycle

theorem idEx_isSome : t.idEx.isSome = m.ifId.isSome := by
  obtain rfl := cycle.edge
  rcases decodeStage_cases m with ⟨bubble, he⟩ | ⟨_, _, _, he⟩ | ⟨i, valid, _, _, he⟩ <;>
    have decoded := he.symm.trans cycle.decode
  · rw [clockEdge_idEx, ← Except.ok.inj decoded, bubble]
    rfl
  · cases decoded
  · rw [clockEdge_idEx, ← Except.ok.inj decoded, valid]
    rfl

theorem exM_isSome : t.exM.isSome = m.idEx.isSome := by
  obtain rfl := cycle.edge
  rcases executeStage_ok cycle.execute with ⟨bubble, rfl⟩ | ⟨_, _, _, _, valid, _, _, rfl⟩
  · rw [bubble]
    rfl
  · rw [valid]
    rfl

theorem mWb_isSome : t.mWb.isSome = m.exM.isSome := by
  obtain rfl := cycle.edge
  rcases memoryStage_ok cycle.memory with ⟨bubble, rfl⟩ | ⟨_, _, _, valid, _, _, rfl⟩
  · rw [bubble]
    rfl
  · rw [valid]
    rfl

theorem ifId_isSome_iff :
    t.ifId.isSome = true ↔ ∃ word, m.fetches word := by
  obtain rfl := cycle.edge
  exact fetchStage_ifId_isSome_iff cycle.fetch

end CycleTo

/-- Settles O42, from the statements of the four stages and the moves between the registers. -/
theorem bubblesDoNothing : Obligations.BubblesDoNothing := by
  unfold Obligations.BubblesDoNothing
  intro x m t h
  obtain ⟨-, f, d, e, w, cycle⟩ := advances_iff.1 h
  refine ⟨fun bubble => ?_, (executeSelectsItsOperandsByOpcode x m t h).2,
    (memoryStageReadsOrCommits x m t h).2, fun bubble => ?_,
    ⟨cycle.idEx_isSome, cycle.exM_isSome, cycle.mWb_isSome⟩, ?_⟩
  · obtain ⟨idEx, issued⟩ := (decodeReadsTheOldRegisters x m t h).2 bubble
    refine ⟨idEx, issued, ?_⟩
    obtain rfl := Except.ok.inj (cycle.decode.symm.trans (decodeStage_of_bubble bubble))
    rw [cycle.edge, clockEdge_diag]
  · exact ((writeBackCommitsItsRegister x m t h).2 bubble).symm
  · rw [← cycle.ifId_isSome_iff, Option.not_isSome_iff_eq_none]

/-- Settles O43. -/
theorem cycleCounterCountsActiveCycles : Obligations.CycleCounterCountsActiveCycles := by
  unfold Obligations.CycleCounterCountsActiveCycles
  intro x m t h
  obtain ⟨-, f, d, e, w, cycle⟩ := advances_iff.1 h
  have fetched_iff := fetchStage_ifId_isSome_iff cycle.fetch
  rw [cycle.edge, clockEdge_cycles, Ne, occupancy_eq_zero, ← fetched_iff]
  cases f.ifId.isSome <;> cases m.empty <;> simp

/-! ## The diagnostic channel (rules R143, R268) -/

section Observe
variable {cfg cfg' : Config} {mem : List Host.Cell} {addr : Word x}

theorem holdsAddr_congr (extent : cfg'.extent = cfg.extent) (a : Nat) :
    holdsAddr cfg' a = holdsAddr cfg a := by
  rw [holdsAddr, holdsAddr, extent]

theorem readBytes_congr (extent : cfg'.extent = cfg.extent) (n : Nat) :
    ∀ k, readBytes cfg' mem addr k n = readBytes cfg mem addr k n := by
  induction n with
  | zero => exact fun k => rfl
  | succ n ih => simp only [readBytes, readByte, holdsAddr_congr extent, ih, implies_true]

theorem rangeHeld_congr (extent : cfg'.extent = cfg.extent) (n : Nat) :
    ∀ k, rangeHeld cfg' addr k n = rangeHeld cfg addr k n := by
  induction n with
  | zero => exact fun k => rfl
  | succ n ih => simp only [rangeHeld, holdsAddr_congr extent, ih, implies_true]

theorem alignmentOk_congr (misaligned : cfg'.misaligned = cfg.misaligned) (n : Nat) :
    alignmentOk cfg' addr n = alignmentOk cfg addr n := by
  rw [alignmentOk, alignmentOk, misaligned]

theorem dmemCheck_congr (extent : cfg'.extent = cfg.extent)
    (misaligned : cfg'.misaligned = cfg.misaligned) (n : Nat) :
    dmemCheck cfg' addr n = dmemCheck cfg addr n := by
  simp only [dmemCheck, alignmentOk_congr misaligned, rangeHeld_congr extent]

theorem dmemRead_congr (extent : cfg'.extent = cfg.extent)
    (misaligned : cfg'.misaligned = cfg.misaligned) (n : Nat) (signExtend : Bool) :
    dmemRead cfg' mem addr n signExtend = dmemRead cfg mem addr n signExtend := by
  simp only [dmemRead, dmemCheck_congr extent misaligned, readBytes_congr extent]

end Observe

/-- Fetch's word and Memory's accesses do not look at the switch or the channel. -/
theorem fetchWord_of_extent (extent : t.cfg.extent = m.cfg.extent) (mem : t.mem = m.mem)
    (pc : t.pc = m.pc) : t.fetchWord = m.fetchWord := by
  simp only [CoreState.fetchWord, imemRead, mem, pc, readBytes_congr extent]

theorem memoryStage_congr (extent : t.cfg.extent = m.cfg.extent)
    (misaligned : t.cfg.misaligned = m.cfg.misaligned) (mem : t.mem = m.mem) (exM : t.exM = m.exM) :
    memoryStage t = memoryStage m := by
  have loaded : ∀ e, loadedValue t e = loadedValue m e := fun e => by
    simp only [loadedValue, mem, dmemRead_congr extent misaligned]
  have pending : ∀ e, pendingStore t e = pendingStore m e := fun e => by
    simp only [pendingStore, dmemCheck_congr extent misaligned]
  simp only [memoryStage, exM, loaded, pending]

/-- WriteBack's registers depend on the register file and `M_WB` alone. -/
theorem writeBack_regs_congr (regs : t.regs = m.regs) (mWb : t.mWb = m.mWb) :
    (writeBack t).regs = (writeBack m).regs := by
  unfold writeBack
  rw [mWb]
  cases m.mWb with
  | none => exact regs
  | some w =>
    dsimp only
    split
    · exact writeReg_regs_congr regs _ _
    · exact regs

/-- The core with the switch of the diagnostic channel at `on` and the channel's contents `l`. -/
def CoreState.observedWith (m : CoreState x) (on : Bool) (l : List (DiagLine x)) : CoreState x :=
  { m with cfg := { m.cfg with debugMode := on }, diag := l }

section Observe
variable (on : Bool) (l : List (DiagLine x))

theorem fetchStage_observedWith : fetchStage (m.observedWith on l) = fetchStage m := by
  have word : (m.observedWith on l).fetchWord = m.fetchWord := fetchWord_of_extent rfl rfl rfl
  simp only [fetchStage, word]
  rfl

/-- Decode hands on the same instruction and the same redirect, with some channel contents. -/
theorem decodeStage_observedWith {d : DecodeOut x} (decoded : decodeStage m = .ok d) :
    ∃ l', decodeStage (m.observedWith on l) = .ok { d with diag := l' } := by
  rcases decodeStage_cases m with ⟨bubble, he⟩ | ⟨_, _, _, he⟩ | ⟨i, valid, known, fields, he⟩ <;>
    rw [he] at decoded
  · obtain rfl := Except.ok.inj decoded
    exact ⟨l, decodeStage_of_bubble (m := m.observedWith on l) bubble⟩
  · cases decoded
  · obtain rfl := Except.ok.inj decoded
    exact ⟨_, decodeStage_of_issue (m := m.observedWith on l) valid fields⟩

/-- A whole cycle goes the same way whatever the channel holds and whether or not it is on. -/
theorem CycleTo.observedWith {f : FetchOut x} {d : DecodeOut x} {e : Option (ExM x)}
    {w : MemoryOut x} (cycle : CycleTo m t f d e w) :
    ∃ d' l', CycleTo (m.observedWith on l) (t.observedWith on l') f d' e w := by
  obtain ⟨l', decoded⟩ := decodeStage_observedWith on l cycle.decode
  refine ⟨_, l', (fetchStage_observedWith on l).trans cycle.fetch, decoded, cycle.execute,
    (memoryStage_congr (t := m.observedWith on l) (m := m) rfl rfl rfl rfl).trans cycle.memory, ?_⟩
  have regs : (writeBack (m.observedWith on l)).regs = (writeBack m).regs :=
    writeBack_regs_congr rfl rfl
  simp only [cycle.edge, clockEdge, regs]
  rfl

end Observe

/-- Settles O44: Decode adds the line, and no stage reads the switch or the channel otherwise. -/
theorem diagnosticChannelOnlyObserves : Obligations.DiagnosticChannelOnlyObserves := by
  unfold Obligations.DiagnosticChannelOnlyObserves
  intro x m t h
  obtain ⟨running, f, d, e, w, cycle⟩ := advances_iff.1 h
  refine ⟨fun off => ?_, fun i fields on valid decoded => ?_, ?_⟩
  · rw [cycle.edge, clockEdge_diag]
    rcases decodeStage_cases m with ⟨bubble, he⟩ | ⟨_, _, _, he⟩ | ⟨i, valid, known, fields, he⟩ <;>
      have decoded := he.symm.trans cycle.decode
    · rw [← Except.ok.inj decoded]
    · cases decoded
    · rw [← Except.ok.inj decoded]
      exact if_neg (by simp [off])
  · rw [cycle.edge, clockEdge_diag,
      ← Except.ok.inj ((decodeStage_of_issue valid decoded).symm.trans cycle.decode)]
    exact if_pos on
  · rintro cfg l rfl
    obtain ⟨d', l', observed⟩ := cycle.observedWith (!m.cfg.debugMode) l
    have cfg_same : t.cfg = m.cfg := by rw [cycle.edge, clockEdge_cfg]
    have cycled := clockCycle_of_evaluate_ok (m := m.observedWith _ l) running
      (evaluate_ok_iff.2 ⟨_, _, _, _, observed⟩)
    rw [CoreState.observedWith, CoreState.observedWith, cfg_same] at cycled
    exact ⟨l', step_next_iff.2 cycled⟩

/-! ## The result of a step (rules R154, R256) -/

/-- An edge ends the run exactly when Fetch has stopped and nothing is in flight (rule R156). -/
theorem CycleTo.status {f : FetchOut x} {d : DecodeOut x} {e : Option (ExM x)} {w : MemoryOut x}
    (cycle : CycleTo m t f d e w) (running : m.status = .running) :
    (t.status = .ended ∧ t.fetchStopped = true ∧ t.empty = true) ∨
      (t.status = .running ∧ ¬ (t.fetchStopped = true ∧ t.empty = true)) := by
  have status := clockEdge_status m f d e w
  simp only [← cycle.edge, Bool.and_eq_true, running] at status
  split at status
  · next done => exact .inl ⟨status, done⟩
  · next going => exact .inr ⟨status, going⟩

/-- Settles O45: a whole cycle ends the run or goes on, an abandoned one changes nothing but `status`. -/
theorem stepAnswersContinueEndOrFatal : Obligations.StepAnswersContinueEndOrFatal := by
  unfold Obligations.StepAnswersContinueEndOrFatal
  intro x m t running stepped
  simp only [occupancy_eq_zero]
  rcases clockCycle_ok_cases (step_next_iff.1 stepped) with
    ⟨stopped, -⟩ | ⟨-, f, d, e, w, cycle⟩ | ⟨-, c, -, rfl⟩
  · exact absurd running stopped
  · rcases cycle.status running with ⟨ended, done⟩ | ⟨going, not_done⟩
    · exact .inr (.inl ⟨by rw [CoreState.result, ended], ended, done⟩)
    · exact .inr (.inr ⟨by rw [CoreState.result, going], going, not_done⟩)
  · exact .inl ⟨c, rfl, rfl⟩

/-! ## The order of the stages (rule R257) -/

theorem issuedProperly_known {pc : Word x} {f : DecodedFields x} {ctrl : ControlSignals x}
    (proper : issuedProperly pc f ctrl) : formatOf f.opcode ≠ .Unknown := by
  obtain ⟨-, ⟨word, decoded⟩, -⟩ := proper
  obtain ⟨known, rfl⟩ := decodeFields_ok decoded
  exact known

theorem aluOperands_ok_of_known {d : IdEx x} (known : formatOf d.fields.opcode ≠ .Unknown) :
    ∃ a b, aluOperands d = .ok (a, b) := by
  rcases opcode_of_known known with h | h | h | h | h | h | h | h | h
  · exact ⟨_, _, aluOperands_registers (by simp [h])⟩
  · exact ⟨_, _, aluOperands_register_immediate (by simp [h])⟩
  · exact ⟨_, _, aluOperands_register_immediate (by simp [h])⟩
  · exact ⟨_, _, aluOperands_register_immediate (by simp [h])⟩
  · exact ⟨_, _, aluOperands_registers (by simp [h])⟩
  · exact ⟨_, _, aluOperands_lui h⟩
  · exact ⟨_, _, aluOperands_auipc h⟩
  · exact ⟨_, _, aluOperands_jump (by simp [h])⟩
  · exact ⟨_, _, aluOperands_jump (by simp [h])⟩

theorem generate_aluOp_ne_unset (f : DecodedFields x) (pc a b : Word x) :
    (generate f pc a b).aluOp ≠ .UNSET :=
  (bundlesAreConsistent x f pc a b _ rfl).1

/-- Execute does not fail on what Decode issues. -/
theorem executeStage_ok_of_proper
    (proper : ∀ d, m.idEx = some d → issuedProperly d.pc d.fields d.ctrl) :
    ∃ e, executeStage m = .ok e := by
  unfold executeStage
  cases valid : m.idEx with
  | none => exact ⟨none, rfl⟩
  | some d =>
    obtain ⟨a, b, operands⟩ := aluOperands_ok_of_known (issuedProperly_known (proper d valid))
    obtain ⟨-, -, p, q, made⟩ := proper d valid
    obtain ⟨r, result⟩ :=
      execute_ok_of_ne_unset (made ▸ generate_aluOp_ne_unset d.fields d.pc p q) a b
    simp only [operands, result]
    exact ⟨_, rfl⟩

theorem fetchStage_ok_of_word
    (fetched : m.fetchEnabled = false ∨ ∃ word, m.fetchWord = .ok word) :
    ∃ f, fetchStage m = .ok f := by
  rcases fetchStage_cases m with ⟨_, he⟩ | ⟨c, on, failed, _⟩ | ⟨_, he⟩ | ⟨_, _, he⟩
  · exact ⟨_, he⟩
  · rcases fetched with off | ⟨word, read⟩
    · simp [on] at off
    · simp [read] at failed
  · exact ⟨_, he⟩
  · exact ⟨_, he⟩

theorem decodeStage_ok_of_known
    (known : ∀ d, m.ifId = some d → formatOf (opcodeOf d.word) ≠ .Unknown) :
    ∃ d, decodeStage m = .ok d := by
  rcases decodeStage_cases m with ⟨_, he⟩ | ⟨d, valid, unknown, _⟩ | ⟨_, _, _, _, he⟩
  · exact ⟨_, he⟩
  · exact absurd unknown (known d valid)
  · exact ⟨_, he⟩

section Order
variable {s : Stop x} {f : FetchOut x} {d : DecodeOut x} {e : Option (ExM x)}

theorem evaluate_of_fetch_error (fetch : fetchStage m = .error s) : evaluate m = .error s := by
  simp only [evaluate, fetch]

theorem evaluate_of_decode_error (fetch : fetchStage m = .ok f) (decode : decodeStage m = .error s) :
    evaluate m = .error s := by
  simp only [evaluate, fetch, decode]

theorem evaluate_of_memory_error (fetch : fetchStage m = .ok f) (decode : decodeStage m = .ok d)
    (execute : executeStage m = .ok e) (memory : memoryStage m = .error s) :
    evaluate m = .error s := by
  simp only [evaluate, fetch, decode, execute, memory]

end Order

theorem step_of_evaluate_fatal {c : Condition x} (running : m.status = .running)
    (evaluated : evaluate m = .error (.fatal c)) :
    step { xlen := x, core := m } = .next { xlen := x, core := m.raise c } :=
  step_next_iff.2 (clockCycle_of_evaluate_fatal running evaluated)

/-- Settles O48: the evaluate phase asks the stages in their order and the first failure is its own. -/
theorem earlierStageIsReported : Obligations.EarlierStageIsReported := by
  unfold Obligations.EarlierStageIsReported
  intro x m running
  refine ⟨fun c on failed => ?_, fun i fetched valid unknown => ?_,
    fun e n signExtend c fetched known proper valid load column refused => ?_,
    fun e n c fetched known proper valid no_load store size refused => ?_⟩ <;>
    apply step_of_evaluate_fatal running
  · apply evaluate_of_fetch_error
    simp only [fetchStage, on, if_true, failed]
  · obtain ⟨f, fetch⟩ := fetchStage_ok_of_word fetched
    apply evaluate_of_decode_error fetch
    simp only [decodeStage, valid, decodeFields_of_unknown unknown]
  · obtain ⟨f, fetch⟩ := fetchStage_ok_of_word fetched
    obtain ⟨d, decode⟩ := decodeStage_ok_of_known known
    obtain ⟨eOut, execute⟩ := executeStage_ok_of_proper proper
    apply evaluate_of_memory_error fetch decode execute
    simp only [memoryStage, valid, loadedValue, load, if_true, column, refused]
  · obtain ⟨f, fetch⟩ := fetchStage_ok_of_word fetched
    obtain ⟨d, decode⟩ := decodeStage_ok_of_known known
    obtain ⟨eOut, execute⟩ := executeStage_ok_of_proper proper
    apply evaluate_of_memory_error fetch decode execute
    simp only [memoryStage, valid, loadedValue_of_not_load no_load, pendingStore, store, if_true, size,
      refused]

/-! ## The parameters and the delay slot (rules R4, R231) -/

theorem clockCycle_cfg (cycled : clockCycle m = .ok t) : t.cfg = m.cfg := by
  rcases clockCycle_ok_cases cycled with ⟨-, rfl⟩ | ⟨-, f, d, e, w, cycle⟩ | ⟨-, c, -, rfl⟩
  · rfl
  · rw [cycle.edge, clockEdge_cfg]
  · rfl

/-- Settles O53: a step is some number of cycles, and no cycle changes the parameters. -/
theorem parametersNeverChange : Obligations.ParametersNeverChange := by
  unfold Obligations.ParametersNeverChange
  intro s t stepped
  obtain ⟨m, rfl, cycles⟩ := step_next stepped
  clear stepped
  refine ⟨rfl, ?_⟩
  induction cycles with
  | refl => rfl
  | tail _ cycled ih => exact (clockCycle_cfg cycled).trans ih

/-- Settles O60: Fetch latches whatever it fetched, and the redirect is the taken transfer's target. -/
theorem delaySlotIsFetchedAndKept : Obligations.DelaySlotIsFetchedAndKept := by
  unfold Obligations.DelaySlotIsFetchedAndKept
  intro x m t word c h pipelined fetched signals taken
  obtain ⟨-, f, d, e, w, cycle⟩ := advances_iff.1 h
  have not_stopped : m.fetchStopped ≠ true := fun stopped =>
    not_fetches_of_disabled (fetchEnabled_of_stopped stopped) word fetched
  have free : ¬ (m.fetchStopped = true ∨ m.readsSentinel) := not_or.2
    ⟨not_stopped, not_sentinel_of_fetches fetched⟩
  refine ⟨(fetchLatchesTheWordOrStops x m t h).1 word fetched,
    ((programCounterAtTheClockEdge x m t h).2 free).1 c signals taken, ?_⟩
  rw [cycle.idEx_isSome]
  cases valid : m.ifId with
  | none => simp [CoreState.decodeSignals, valid] at signals
  | some i => rfl

end Sys2Proof.Machine
end

section
/-!
The statements about the invariant every cycle keeps (`10_state.md` section 7, `43_pipeline.md`), settled.
-/

namespace Sys2Proof.Machine

variable {x : XLen} {m t : CoreState x}

/-! ## Targets are even (rules R56, R58, R118, R120) -/

theorem two_dvd_two_pow_bits (x : XLen) : 2 ∣ 2 ^ x.bits := by cases x <;> decide

theorem add_toNat_mod_two (a b : Word x) : (a + b).toNat % 2 = (a.toNat + b.toNat) % 2 := by
  rw [BitVec.toNat_add, Nat.mod_mod_of_dvd _ (two_dvd_two_pow_bits x)]

/-- Sign extension keeps bit 0. -/
theorem sext_toNat_mod_two (x : XLen) {n : Nat} (v : BitVec n) (some_bit : 0 < n) (narrow : n ≤ 32) :
    (sext x v).toNat % 2 = v.toNat % 2 := by
  have bit := congrArg BitVec.toNat (setWidth_sext x v narrow 1 some_bit)
  simpa only [BitVec.toNat_setWidth, pow_one] using bit

theorem toNat_mod_two_of_evenOffset {n : Nat} {imm : BitVec n} (even : evenOffset imm = true) :
    imm.toNat % 2 = 0 :=
  toNat_mod_two_of_lsb (lsb_of_evenOffset even)

/-- The offset of a decoded branch or JAL is even. -/
theorem immediate_even {f : DecodedFields x} (decoded : decodedFrom f)
    (transfer : f.opcode = 0x63#7 ∨ f.opcode = 0x6F#7) : f.immediate.toNat % 2 = 0 := by
  obtain ⟨word, decoded⟩ := decoded
  obtain ⟨-, rfl⟩ := decodeFields_ok decoded
  have opcode : (fieldsAs x (formatOf (opcodeOf word)) word).opcode = opcodeOf word := rfl
  rw [opcode] at transfer
  rcases transfer with h | h <;> rw [h]
  · exact (sext_toNat_mod_two x (immB word) (by decide) (by decide)).trans
      (toNat_mod_two_of_evenOffset (immB_even word))
  · exact (sext_toNat_mod_two x (immJ word) (by decide) (by decide)).trans
      (toNat_mod_two_of_evenOffset (immJ_even word))

theorem branchTarget_even {f : DecodedFields x} {pc : Word x} (aligned : pc.toNat % 4 = 0)
    (decoded : decodedFrom f) (a b : Word x) :
    (generate f pc a b).branchTarget.toNat % 2 = 0 := by
  have relative : f.opcode = 0x63#7 ∨ f.opcode = 0x6F#7 → (pc + f.immediate).toNat % 2 = 0 := by
    intro transfer
    have := immediate_even decoded transfer
    rw [add_toNat_mod_two]
    omega
  have bundle := isBundle_generate f pc a b
  generalize generate f pc a b = c at bundle ⊢
  cases bundle with
  | nop | alu | load | store => exact Nat.zero_mod 2
  | branch opcode => exact relative (.inl opcode)
  | jal opcode => exact relative (.inr opcode)
  | jalr =>
    show (clearBit0 (a + f.immediate)).toNat % 2 = 0
    rw [clearBit0_toNat]
    omega

/-! ## What the edge's registers hold -/

/-- A store to be committed is one the memory accepted. -/
theorem pendingStore_accepted {e : ExM x} {p : PendingStore x}
    (pending : pendingStore m e = .ok (some p)) : dmemCheck m.cfg p.addr p.size = .ok () := by
  unfold pendingStore at pending
  split at pending
  · split at pending
    · cases pending
    · split at pending
      · next accepts =>
        cases pending
        exact accepts
      · cases pending
  · cases pending

theorem Inv.raise (inv : Inv m) (c : Condition x) : Inv (m.raise c) where
  memory := inv.memory
  zero := inv.zero
  pcEven := inv.pcEven
  ifId := inv.ifId
  idEx := inv.idEx
  exM := inv.exM
  mWb := inv.mWb
  counters := inv.counters
  ended ended := by cases ended
  running running := by cases running
  serial := inv.serial

section Keep
variable {f : FetchOut x} {d : DecodeOut x} {e : Option (ExM x)} {w : MemoryOut x}
  (inv : Inv m) (cycle : CycleTo m t f d e w)
include inv cycle

theorem CycleTo.memory_wf : Memory.wf t = true := by
  rw [Memory.wf, cycle.edge, clockEdge_cfg, clockEdge_mem]
  rcases memoryStage_ok cycle.memory with ⟨-, rfl⟩ | ⟨e', v, st, -, -, pending, rfl⟩
  · exact inv.memory
  · cases st with
    | none => exact inv.memory
    | some p => exact memoryWf_dmemWrite _ _ _ _ _ (pendingStore_accepted pending) inv.memory

theorem CycleTo.pc_even : t.pc.toNat % 2 = 0 := by
  rw [cycle.edge, clockEdge_pc]
  by_cases held : m.fetchStopped = true ∨ f.sawSentinel = true
  · rw [nextPc_of_held _ held]
    exact inv.pcEven
  rw [nextPc_of_not_held _ held]
  rcases decodeStage_cases m with ⟨_, he⟩ | ⟨_, _, _, he⟩ | ⟨i, valid, known, fields, he⟩ <;>
    have decoded := he.symm.trans cycle.decode
  · rw [← Except.ok.inj decoded, Option.getD_none]
    have next := add_toNat_mod_two m.pc 4#x.bits
    have even := inv.pcEven
    have four : (4#x.bits).toNat = 4 := by cases x <;> rfl
    split <;> omega
  · cases decoded
  · rw [← Except.ok.inj decoded]
    have target := branchTarget_even (inv.ifId i valid).1 ⟨i.word, fields⟩
      (m.operand1 (fieldsOfWord x i.word)) (m.operand2 (fieldsOfWord x i.word))
    have next := add_toNat_mod_two m.pc 4#x.bits
    have even := inv.pcEven
    have four : (4#x.bits).toNat = 4 := by cases x <;> rfl
    dsimp only [decodeIssue]
    split
    · exact target
    · rw [Option.getD_none]
      split <;> omega

omit inv in
theorem CycleTo.ifId_aligned : ∀ i, t.ifId = some i → i.pc.toNat % 4 = 0 ∧ i.word ≠ t.cfg.sentinel := by
  rw [cycle.edge, clockEdge_cfg, clockEdge_ifId]
  rcases fetchStage_ok cycle.fetch with ⟨-, rfl⟩ | ⟨-, rfl⟩ | ⟨word, ⟨_, read, other⟩, rfl⟩
  · rintro i ⟨⟩
  · rintro i ⟨⟩
  · rintro i ⟨⟩
    exact ⟨fetchWord_aligned read, other⟩

theorem CycleTo.idEx_proper : ∀ i, t.idEx = some i → issuedProperly i.pc i.fields i.ctrl := by
  rw [cycle.edge, clockEdge_idEx]
  rcases decodeStage_cases m with ⟨_, he⟩ | ⟨_, _, _, he⟩ | ⟨i, valid, known, fields, he⟩ <;>
    have decoded := he.symm.trans cycle.decode
  · rw [← Except.ok.inj decoded]
    rintro i ⟨⟩
  · cases decoded
  · rw [← Except.ok.inj decoded]
    rintro _ ⟨⟩
    exact ⟨(inv.ifId i valid).1, ⟨i.word, fields⟩, _, _, rfl⟩

theorem CycleTo.exM_proper : ∀ i, t.exM = some i → issuedProperly i.pc i.fields i.ctrl := by
  rw [cycle.edge, clockEdge_exM]
  rcases executeStage_ok cycle.execute with ⟨-, rfl⟩ | ⟨i, _, _, _, valid, _, _, rfl⟩
  · rintro i ⟨⟩
  · rintro _ ⟨⟩
    exact inv.idEx i valid

theorem CycleTo.mWb_proper :
    ∀ i, t.mWb = some i → ∃ f, issuedProperly i.pc f i.ctrl ∧ i.rd = f.rd := by
  rw [cycle.edge, clockEdge_mWb]
  rcases memoryStage_ok cycle.memory with ⟨-, rfl⟩ | ⟨i, _, _, valid, _, _, rfl⟩
  · rintro i ⟨⟩
  · rintro _ ⟨⟩
    exact ⟨i.fields, inv.exM i valid, rfl⟩

theorem CycleTo.serial (alone : t.cfg.pipelining = false) : t.occupancy ≤ 1 := by
  have cfg : t.cfg = m.cfg := by rw [cycle.edge, clockEdge_cfg]
  rw [cfg] at alone
  have before := inv.serial alone
  unfold CoreState.occupancy CoreState.issuedInFlight at before ⊢
  rw [cycle.idEx_isSome, cycle.exM_isSome, cycle.mWb_isSome]
  cases latched : t.ifId.isSome with
  | false =>
    simp only [Bool.toNat_false]
    omega
  | true =>
    obtain ⟨word, enabled, -⟩ := cycle.ifId_isSome_iff.1 latched
    simp only [CoreState.fetchEnabled, alone, Bool.false_or, Bool.and_eq_true] at enabled
    obtain ⟨ifId, idEx, exM, -⟩ := (empty_iff m).1 enabled.2
    simp [ifId, idEx, exM]

/-- A whole cycle keeps the invariant. -/
theorem CycleTo.keeps_inv (running : m.status = .running) : Inv t where
  memory := cycle.memory_wf inv
  zero := by
    rw [← inv.zero, cycle.edge]
    exact writeBack_regs_zero m
  pcEven := cycle.pc_even inv
  ifId := cycle.ifId_aligned
  idEx := cycle.idEx_proper inv
  exM := cycle.exM_proper inv
  mWb := cycle.mWb_proper inv
  counters := by
    have before := inv.counters
    unfold CoreState.issuedInFlight at before ⊢
    rw [cycle.idEx_isSome, cycle.exM_isSome, cycle.mWb_isSome, cycle.edge, clockEdge_issued,
      clockEdge_completed]
    omega
  ended ended := by
    rcases cycle.status running with ⟨-, done⟩ | ⟨going, -⟩
    · exact done
    · rw [ended] at going
      cases going
  running going := by
    rcases cycle.status running with ⟨ended, -⟩ | ⟨-, not_done⟩
    · rw [going] at ended
      cases ended
    · exact not_done
  serial := cycle.serial inv

end Keep

theorem clockCycle_inv (inv : Inv m) (cycled : clockCycle m = .ok t) : Inv t := by
  rcases clockCycle_ok_cases cycled with ⟨-, rfl⟩ | ⟨running, f, d, e, w, cycle⟩ | ⟨-, c, -, rfl⟩
  · exact inv
  · exact cycle.keeps_inv inv running
  · exact inv.raise c

/-- What every cycle of a state of the invariant keeps, a step keeps. -/
theorem cycles_inv (inv : Inv m)
    (cycles : Relation.ReflTransGen (fun a b => clockCycle a = .ok b) m t) : Inv t := by
  induction cycles with
  | refl => exact inv
  | tail _ cycled ih => exact clockCycle_inv ih cycled

/-- Settles O52: a step is some number of cycles, and a cycle that is not abandoned keeps each clause
because the edge moves each instruction on with the fields and the bundle it has. -/
theorem everyCycleKeepsTheInvariant : Obligations.EveryCycleKeepsTheInvariant := by
  unfold Obligations.EveryCycleKeepsTheInvariant
  intro s t inv stepped
  obtain ⟨m, rfl, cycles⟩ := step_next stepped
  exact cycles_inv inv cycles

/-! ## The counters (rule R267) -/

theorem issuedInFlight_le_three (m : CoreState x) : m.issuedInFlight ≤ 3 := by
  have idEx := Bool.toNat_le m.idEx.isSome
  have exM := Bool.toNat_le m.exM.isSome
  have mWb := Bool.toNat_le m.mWb.isSome
  unfold CoreState.issuedInFlight
  omega

theorem issuedInFlight_of_empty (empty : m.empty = true) : m.issuedInFlight = 0 := by
  have none := (occupancy_eq_zero m).2 empty
  unfold CoreState.occupancy at none
  omega

/-- No cycle lowers a counter. -/
theorem clockCycle_counters (cycled : clockCycle m = .ok t) :
    m.instructionsIssued ≤ t.instructionsIssued ∧
      m.instructionsCompleted ≤ t.instructionsCompleted ∧ m.cycles ≤ t.cycles := by
  rcases clockCycle_ok_cases cycled with ⟨-, rfl⟩ | ⟨-, f, d, e, w, cycle⟩ | ⟨-, c, -, rfl⟩
  · exact ⟨le_rfl, le_rfl, le_rfl⟩
  · rw [cycle.edge]
    exact ⟨Nat.le_add_right _ _, Nat.le_add_right _ _, Nat.le_add_right _ _⟩
  · exact ⟨le_rfl, le_rfl, le_rfl⟩

theorem cycles_counters (cycles : Relation.ReflTransGen (fun a b => clockCycle a = .ok b) m t) :
    m.instructionsIssued ≤ t.instructionsIssued ∧
      m.instructionsCompleted ≤ t.instructionsCompleted ∧ m.cycles ≤ t.cycles := by
  induction cycles with
  | refl => exact ⟨le_rfl, le_rfl, le_rfl⟩
  | tail _ cycled ih =>
    obtain ⟨issued, completed, counted⟩ := clockCycle_counters cycled
    obtain ⟨issued', completed', counted'⟩ := ih
    exact ⟨issued'.trans issued, completed'.trans completed, counted'.trans counted⟩

/-- Settles O54: the difference of the two instruction counters is what is in flight past Decode. -/
theorem countersStayInTheirBounds : Obligations.CountersStayInTheirBounds := by
  unfold Obligations.CountersStayInTheirBounds
  intro s t inv stepped
  obtain ⟨m, rfl, cycles⟩ := step_next stepped
  have inv' := cycles_inv inv cycles
  obtain ⟨issued, completed, counted⟩ := cycles_counters cycles
  have difference := inv'.counters
  have in_flight := issuedInFlight_le_three m
  dsimp only
  refine ⟨issued, completed, counted, by omega, by omega, fun ended => ?_⟩
  rw [difference, issuedInFlight_of_empty (inv'.ended ended).2, Nat.add_zero]

/-! ## A state of the invariant is never stuck (rules R102, R251, R253) -/

/-- The data memory refuses an access of a legal size only with `OutOfRange` of its address. -/
theorem dmemCheck_error_of_sized {cfg : Config} {addr : Word x} {n : Nat} {c : Condition x}
    (sized : n ∈ dmemSizes x) (refused : dmemCheck cfg addr n = .error c) : c = .outOfRange addr := by
  rcases dmemCheck_cases cfg addr n with ⟨unsized, -⟩ | ⟨-, -, accepts⟩ | ⟨-, -, refuses⟩
  · exact absurd sized unsized
  · rw [accepts] at refused
    cases refused
  · rw [refuses] at refused
    exact (Except.error.inj refused).symm

theorem loadedValue_error {e : ExM x} {s : Stop x} (proper : issuedProperly e.pc e.fields e.ctrl)
    (failed : loadedValue m e = .error s) : s = .fatal (.outOfRange e.aluResult) := by
  obtain ⟨-, -, a, b, made⟩ := proper
  obtain ⟨-, -, load, -, -, -⟩ := bundlesAreConsistent x e.fields e.pc a b e.ctrl made.symm
  unfold loadedValue at failed
  split at failed
  · next read =>
    obtain ⟨⟨n, signExtend⟩, column⟩ := Option.isSome_iff_exists.1 (load read).2.2
    simp only [column] at failed
    rcases dmemRead_eq m.cfg m.mem e.aluResult n signExtend with
      ⟨c, refused, answer⟩ | ⟨-, bytes, -, answer⟩ <;>
      rw [answer] at failed
    · rw [← Except.error.inj failed,
        dmemCheck_error_of_sized (mem_dmemSizes_of_loadWidth column) refused]
    · cases failed
  · cases failed

theorem pendingStore_error {e : ExM x} {s : Stop x} (proper : issuedProperly e.pc e.fields e.ctrl)
    (failed : pendingStore m e = .error s) : s = .fatal (.outOfRange e.aluResult) := by
  obtain ⟨-, -, a, b, made⟩ := proper
  obtain ⟨-, -, -, store, -, -⟩ := bundlesAreConsistent x e.fields e.pc a b e.ctrl made.symm
  unfold pendingStore at failed
  split at failed
  · next write =>
    obtain ⟨n, size⟩ := Option.isSome_iff_exists.1 (store write).2.2
    simp only [size] at failed
    split at failed
    · cases failed
    · next c refused =>
      rw [← Except.error.inj failed,
        dmemCheck_error_of_sized (mem_dmemSizes_of_storeWidth size) refused]
  · cases failed

/-- Memory fails on what Decode issued only where the data memory refuses the access. -/
theorem memoryStage_error {s : Stop x}
    (proper : ∀ e, m.exM = some e → issuedProperly e.pc e.fields e.ctrl)
    (failed : memoryStage m = .error s) :
    ∃ e, m.exM = some e ∧ s = .fatal (.outOfRange e.aluResult) := by
  unfold memoryStage at failed
  split at failed
  · cases failed
  · next e valid =>
    refine ⟨e, valid, ?_⟩
    split at failed
    · next error =>
      rw [← Except.error.inj failed]
      exact loadedValue_error (proper e valid) error
    · split at failed
      · next error =>
        rw [← Except.error.inj failed]
        exact pendingStore_error (proper e valid) error
      · cases failed

/-- What abandons a cycle of a state of the invariant. -/
theorem evaluate_error_of_inv {s : Stop x} (inv : Inv m) (failed : evaluate m = .error s) :
    s = .fatal (.instructionFetchFailure m.pc) ∨
    (∃ pc word, s = .fatal (.illegalInstruction pc word)) ∨
    (∃ e, m.exM = some e ∧ s = .fatal (.outOfRange e.aluResult)) := by
  obtain ⟨eOut, execute⟩ := executeStage_ok_of_proper inv.idEx
  unfold evaluate at failed
  split at failed
  · next error =>
    left
    rcases fetchStage_cases m with ⟨_, he⟩ | ⟨c, _, read, he⟩ | ⟨_, he⟩ | ⟨_, _, he⟩ <;>
      rw [he] at error <;> cases error
    rw [← Except.error.inj failed, fetchWord_error read]
  · split at failed
    · next error =>
      right; left
      rcases decodeStage_cases m with ⟨_, he⟩ | ⟨i, _, _, he⟩ | ⟨_, _, _, _, he⟩ <;>
        rw [he] at error <;> cases error
      exact ⟨i.pc, i.word, (Except.error.inj failed).symm⟩
    · simp only [execute] at failed
      split at failed
      · next error =>
        right; right
        rw [← Except.error.inj failed]
        exact memoryStage_error inv.exM error
      · cases failed

/-- Settles O49: Execute and the two memory columns never fail on what Decode issued, which leaves the
fetch, the word in `IF_ID` and the address of the access. -/
theorem stepNeverGetsStuck : Obligations.StepNeverGetsStuck := by
  unfold Obligations.StepNeverGetsStuck
  intro x m inv
  by_cases running : m.status = .running
  · cases evaluated : evaluate m with
    | ok t =>
      obtain ⟨f, d, e, w, cycle⟩ := evaluate_ok_iff.1 evaluated
      refine ⟨t, step_next_iff.2 (clockCycle_of_evaluate_ok running evaluated), fun _ c failed => ?_⟩
      rw [cycle.edge] at failed
      exact absurd failed (clockEdge_not_failed m f d e w running c)
    | error s =>
      rcases evaluate_error_of_inv inv evaluated with rfl | ⟨pc, word, rfl⟩ | ⟨e, valid, rfl⟩ <;>
        refine ⟨_, step_of_evaluate_fatal running evaluated, ?_⟩ <;> rintro - c ⟨⟩
      · exact .inr (.inl rfl)
      · exact .inl ⟨pc, word, rfl⟩
      · exact .inr (.inr ⟨e, valid, rfl⟩)
  · exact ⟨m, step_of_not_running running, fun going => absurd going running⟩

/-! ## Draining (rules R156, R240) -/

/-- How many cycles, Fetch stopped, the latest instruction in flight still takes. -/
def CoreState.drainDepth (m : CoreState x) : Nat :=
  if m.ifId.isSome then 4
  else if m.idEx.isSome then 3
  else if m.exM.isSome then 2
  else if m.mWb.isSome then 1
  else 0

theorem drainDepth_le_four (m : CoreState x) : m.drainDepth ≤ 4 := by
  unfold CoreState.drainDepth
  split_ifs <;> omega

theorem drainDepth_eq_zero_iff : m.drainDepth = 0 ↔ m.empty = true := by
  rw [empty_iff, CoreState.drainDepth]
  cases m.ifId <;> cases m.idEx <;> cases m.exM <;> cases m.mWb <;> simp

theorem stepN_succ (n : Nat) (stepped : step { xlen := x, core := m } = .next { xlen := x, core := t }) :
    stepN (n + 1) { xlen := x, core := m } = stepN n { xlen := x, core := t } := by
  simp only [stepN, stepped]

section Drain
variable {f : FetchOut x} {d : DecodeOut x} {e : Option (ExM x)} {w : MemoryOut x}
  (cycle : CycleTo m t f d e w)
include cycle

theorem CycleTo.ifId_of_stopped (stopped : m.fetchStopped = true) : t.ifId = none := by
  rw [← Option.not_isSome_iff_eq_none, cycle.ifId_isSome_iff]
  rintro ⟨word, fetched⟩
  exact not_fetches_of_disabled (fetchEnabled_of_stopped stopped) word fetched

theorem CycleTo.drainDepth_of_bubble (bubble : t.ifId = none) :
    t.drainDepth = m.drainDepth - 1 := by
  unfold CoreState.drainDepth
  rw [bubble, cycle.idEx_isSome, cycle.exM_isSome, cycle.mWb_isSome]
  split_ifs <;> simp_all

theorem CycleTo.occupancy_of_bubble (bubble : t.ifId = none) :
    t.occupancy + m.mWb.isSome.toNat = m.occupancy := by
  unfold CoreState.occupancy CoreState.issuedInFlight
  rw [bubble, cycle.idEx_isSome, cycle.exM_isSome, cycle.mWb_isSome]
  simp only [Option.isSome_none, Bool.toNat_false]
  omega

end Drain

/-- What draining leaves, `n` cycles being enough. -/
structure Drained (n : Nat) (m t : CoreState x) : Prop where
  status : t.status ≠ .running
  pc : t.pc = m.pc
  fetchStopped : t.fetchStopped = true
  issued : t.instructionsIssued ≤ m.instructionsIssued + m.ifId.isSome.toNat
  cycles : t.cycles ≤ m.cycles + n
  completed : t.status = .ended → t.instructionsCompleted = m.instructionsCompleted + m.occupancy

theorem Drained.of_not_running (inv : Inv m) (stopped : m.fetchStopped = true) (n : Nat)
    (status : m.status ≠ .running) : Drained n m m where
  status := status
  pc := rfl
  fetchStopped := stopped
  issued := Nat.le_add_right _ _
  cycles := Nat.le_add_right _ _
  completed ended := by
    rw [(occupancy_eq_zero m).2 (inv.ended ended).2, Nat.add_zero]

/-- With Fetch stopped the depth goes down by one in each cycle, and at depth 0 the run is over. -/
theorem exists_drained (n : Nat) :
    ∀ m : CoreState x, Inv m → m.fetchStopped = true → m.drainDepth ≤ n →
      ∃ t, stepN n { xlen := x, core := m } = .next { xlen := x, core := t } ∧ Drained n m t := by
  induction n with
  | zero =>
    intro m inv stopped depth
    refine ⟨m, rfl, Drained.of_not_running inv stopped 0 fun running => ?_⟩
    exact inv.running running ⟨stopped, drainDepth_eq_zero_iff.1 (Nat.le_zero.1 depth)⟩
  | succ n ih =>
    intro m inv stopped depth
    obtain ⟨u, stepped, -⟩ := stepNeverGetsStuck x m inv
    rw [stepN_succ n stepped]
    rcases clockCycle_ok_cases (step_next_iff.1 stepped) with
      ⟨status, rfl⟩ | ⟨running, f, d, e, w, cycle⟩ | ⟨-, c, -, rfl⟩
    · exact ⟨u, nothingChangesAfterTheEnd x u n status,
        Drained.of_not_running inv stopped (n + 1) status⟩
    · have inv' := cycle.keeps_inv inv running
      have stopped' : u.fetchStopped = true := by simp [cycle.edge, stopped]
      obtain ⟨t, run, drained⟩ := ih u inv' stopped' (by
        rw [cycle.drainDepth_of_bubble (cycle.ifId_of_stopped stopped)]
        omega)
      refine ⟨t, run, drained.status, ?_, drained.fetchStopped, ?_, ?_, fun ended => ?_⟩
      · rw [drained.pc, cycle.edge, clockEdge_pc, nextPc_of_held _ (.inl stopped)]
      · have issued := drained.issued
        rw [cycle.ifId_of_stopped stopped] at issued
        rwa [cycle.edge, clockEdge_issued] at issued
      · have counted := drained.cycles
        have once := Bool.toNat_le (f.ifId.isSome || !m.empty)
        rw [cycle.edge, clockEdge_cycles] at counted
        omega
      · have completed := drained.completed ended
        have moved := cycle.occupancy_of_bubble (cycle.ifId_of_stopped stopped)
        rw [cycle.edge, clockEdge_completed, ← cycle.edge] at completed
        omega
    · exact ⟨_, nothingChangesAfterTheEnd x _ n (by simp),
        by simp, rfl, stopped, Nat.le_add_right _ _, Nat.le_add_right _ _, nofun⟩

/-- Settles O46: nothing in flight is deeper than four cycles. -/
theorem drainEndsWithinFourCycles : Obligations.DrainEndsWithinFourCycles := by
  unfold Obligations.DrainEndsWithinFourCycles
  intro x m inv stopped
  obtain ⟨t, run, drained⟩ := exists_drained 4 m inv stopped (drainDepth_le_four m)
  exact ⟨t, run, drained.status, drained.pc, drained.fetchStopped, drained.issued, drained.cycles,
    drained.completed⟩

end Sys2Proof.Machine
end

section
/-!
The statement about the cycle count of a run (`43_pipeline.md` section 7), settled.
-/

namespace Sys2Proof.Machine

variable {x : XLen} {m t : CoreState x}

/-- How many instructions Fetch has fetched so far: those issued and the one in `IF_ID`. -/
def CoreState.fetched (m : CoreState x) : Nat := m.instructionsIssued + m.ifId.isSome.toNat

theorem drainDepth_of_ifId (valid : m.ifId.isSome = true) : m.drainDepth = 4 := if_pos valid

/-- A running pipelined core fetches in every cycle until it has read the sentinel (rule R135). -/
theorem fetchEnabled_of_pipelined (pipelined : m.cfg.pipelining = true)
    (going : m.fetchStopped = false) : m.fetchEnabled = true := by
  simp [CoreState.fetchEnabled, pipelined, going]

theorem empty_of_fetches_serial {word : InstrWord} (serial : m.cfg.pipelining = false)
    (fetched : m.fetches word) : m.empty = true := by
  have enabled := fetched.1
  simp only [CoreState.fetchEnabled, serial, Bool.false_or, Bool.and_eq_true] at enabled
  exact enabled.2

/-- The cycle counter against the instructions fetched (rules R153, R292): the cycles counted, and those
the latest instruction still takes, are four more than the instructions pipelined and five times as many
non-pipelined.  Until Fetch stops, a pipelined core has fetched one instruction in each cycle. -/
structure Counted (m : CoreState x) : Prop where
  pipelined : m.cfg.pipelining = true → 1 ≤ m.fetched → m.cycles + m.drainDepth = m.fetched + 4
  fetching : m.cfg.pipelining = true → m.fetchStopped = false →
    m.cycles = m.fetched ∧ (1 ≤ m.fetched → m.ifId.isSome = true)
  serial : m.cfg.pipelining = false → m.cycles + m.drainDepth = 5 * m.fetched
  ended : m.status = .ended → m.empty = true

theorem counted_build (cfg : Config) (mem : List Host.Cell) (r : ResetValues x) :
    Counted (CoreState.build cfg mem r) where
  pipelined _ some := absurd some (Nat.not_succ_le_zero 0)
  fetching _ _ := ⟨rfl, fun some => absurd some (Nat.not_succ_le_zero 0)⟩
  serial _ := rfl
  ended ended := by cases ended

section Cycle
variable {f : FetchOut x} {d : DecodeOut x} {e : Option (ExM x)} {w : MemoryOut x}
  (cycle : CycleTo m t f d e w)
include cycle

theorem CycleTo.fetched : t.fetched = m.fetched + t.ifId.isSome.toNat := by
  rw [CoreState.fetched, cycle.edge, clockEdge_issued]
  rfl

/-- Where nothing is fetched, what a cycle counts comes off what the pipeline still takes. -/
theorem CycleTo.cycles_of_bubble (bubble : t.ifId = none) :
    t.cycles + t.drainDepth = m.cycles + m.drainDepth := by
  have latched : f.ifId = none := by rw [← bubble, cycle.edge, clockEdge_ifId]
  rw [cycle.drainDepth_of_bubble bubble, cycle.edge, clockEdge_cycles, latched]
  have empty_iff := drainDepth_eq_zero_iff (m := m)
  cases empty : m.empty
  · have : m.drainDepth ≠ 0 := fun zero => by simp [empty_iff.1 zero] at empty
    simp only [Option.isSome_none, Bool.not_false, Bool.or_true, Bool.toNat_true]
    omega
  · simp [empty_iff.2 empty]

theorem CycleTo.cycles_of_fetched (latched : t.ifId.isSome = true) : t.cycles = m.cycles + 1 := by
  rw [cycle.edge, clockEdge_ifId] at latched
  rw [cycle.edge, clockEdge_cycles, latched]
  rfl

theorem CycleTo.counted (running : m.status = .running) (before : Counted m) : Counted t := by
  have cfg : t.cfg = m.cfg := by rw [cycle.edge, clockEdge_cfg]
  have stopped_iff : t.fetchStopped = (m.fetchStopped || f.sawSentinel) := by
    rw [cycle.edge, clockEdge_fetchStopped]
  have sum := cycle.fetched
  have ended : t.status = .ended → t.empty = true := by
    intro ended
    rcases cycle.status running with ⟨-, -, empty⟩ | ⟨going, -⟩
    · exact empty
    · rw [going] at ended
      cases ended
  cases latched : t.ifId.isSome with
  | true =>
    obtain ⟨word, fetched⟩ := cycle.ifId_isSome_iff.1 latched
    have going : m.fetchStopped = false := by
      rw [← Bool.not_eq_true]
      exact fun stopped => not_fetches_of_disabled (fetchEnabled_of_stopped stopped) word fetched
    have one_more := cycle.cycles_of_fetched latched
    have depth := drainDepth_of_ifId latched
    rw [latched, Bool.toNat_true] at sum
    refine ⟨fun pipelined _ => ?_, fun pipelined _ => ⟨?_, fun _ => latched⟩, fun serial => ?_, ended⟩
    · have := (before.fetching (cfg ▸ pipelined) going).1
      omega
    · have := (before.fetching (cfg ▸ pipelined) going).1
      omega
    · have := before.serial (cfg ▸ serial)
      have := drainDepth_eq_zero_iff.2 (empty_of_fetches_serial (cfg ▸ serial) fetched)
      omega
  | false =>
    have bubble : t.ifId = none := by simpa using latched
    have moved := cycle.cycles_of_bubble bubble
    rw [latched, Bool.toNat_false, Nat.add_zero] at sum
    refine ⟨fun pipelined some => ?_, fun pipelined going => ?_, fun serial => ?_, ended⟩
    · rw [moved, sum]
      exact before.pipelined (cfg ▸ pipelined) (sum ▸ some)
    · rw [stopped_iff, Bool.or_eq_false_iff] at going
      have enabled := fetchEnabled_of_pipelined (cfg ▸ pipelined) going.1
      rcases fetchStage_ok cycle.fetch with ⟨off, -⟩ | ⟨-, rfl⟩ | ⟨word, fetched, -⟩
      · rw [enabled] at off
        cases off
      · cases going.2
      · have valid := cycle.ifId_isSome_iff.2 ⟨word, fetched⟩
        rw [latched] at valid
        cases valid
    · rw [moved, sum]
      exact before.serial (cfg ▸ serial)

end Cycle

theorem clockCycle_counted (before : Counted m) (cycled : clockCycle m = .ok t) : Counted t := by
  rcases clockCycle_ok_cases cycled with ⟨-, rfl⟩ | ⟨running, f, d, e, w, cycle⟩ | ⟨-, c, -, rfl⟩
  · exact before
  · exact cycle.counted running before
  · exact ⟨before.pipelined, before.fetching, before.serial, nofun⟩

theorem stepN_cases {n : Nat}
    (run : stepN (n + 1) { xlen := x, core := m } = .next { xlen := x, core := t }) :
    ∃ u : CoreState x, clockCycle m = .ok u ∧
      stepN n { xlen := x, core := u } = .next { xlen := x, core := t } := by
  simp only [stepN, step, hostCall] at run
  cases cycled : clockCycle m with
  | error fault => simp [cycled] at run
  | ok u => exact ⟨u, rfl, by simpa only [cycled] using run⟩

/-- What every cycle keeps, any number of cycles keeps. -/
theorem stepN_induction {P : CoreState x → Prop}
    (keeps : ∀ {m t : CoreState x}, P m → clockCycle m = .ok t → P t) (n : Nat) :
    ∀ {m t : CoreState x}, P m →
      stepN n { xlen := x, core := m } = .next { xlen := x, core := t } → P t := by
  induction n with
  | zero =>
    intro m t holds run
    cases run
    exact holds
  | succ n ih =>
    intro m t holds run
    obtain ⟨u, cycled, rest⟩ := stepN_cases run
    exact ih (keeps holds cycled) rest

theorem cfg_of_stepN (n : Nat) (run : stepN n { xlen := x, core := m } = .next { xlen := x, core := t }) :
    t.cfg = m.cfg :=
  stepN_induction (P := fun u => u.cfg = m.cfg) (fun same cycled => (clockCycle_cfg cycled).trans same)
    n rfl run

/-- Settles O55: the count holds of what is built and every cycle keeps it; at a normal end nothing is
in flight, so the cycles counted are all there are. -/
theorem cycleCountAtTheEndOfARun : Obligations.CycleCountAtTheEndOfARun := by
  unfold Obligations.CycleCountAtTheEndOfARun
  intro x cfg mem r n t run ended some
  have counted := stepN_induction clockCycle_counted n (counted_build cfg mem r) run
  have same : t.cfg = cfg := cfg_of_stepN n run
  have empty := counted.ended ended
  have depth := drainDepth_eq_zero_iff.2 empty
  have fetched : t.fetched = t.instructionsIssued := by
    rw [CoreState.fetched, ((empty_iff t).1 empty).1]
    rfl
  split
  · next pipelined =>
    have := counted.pipelined (same ▸ pipelined) (fetched ▸ some)
    omega
  · next serial =>
    have := counted.serial (by simpa [same] using serial)
    omega

end Sys2Proof.Machine
end

section
/-!
What the stages make of one instruction alone is its meaning (`43_pipeline.md`, `44_` to `47_`): the
lemmas that the statements comparing cycles with `exec` share.
-/

namespace Sys2Proof.Machine

variable {x : XLen} {m : CoreState x} {i : Instr} {f : DecodedFields x} {r : Word x}

/-! ## One instruction through the stages -/

/-- What Decode issues for a word with fields `f` fetched at `pc` (rules R140, R141). -/
def CoreState.issue (m : CoreState x) (pc : Word x) (f : DecodedFields x) : IdEx x where
  pc := pc
  fields := f
  rs1Value := m.operand1 f
  rs2Value := m.operand2 f
  ctrl := generate f pc (m.operand1 f) (m.operand2 f)

/-- Execute's ALU answers `r` (rules R144, R145). -/
def IdEx.computes (d : IdEx x) (r : Word x) : Prop :=
  ∃ a b, aluOperands d = .ok (a, b) ∧ execute a b d.ctrl.aluOp = .ok r

/-- What Execute hands on with the result `r` (rule R145). -/
def IdEx.withResult (d : IdEx x) (r : Word x) : ExM x where
  pc := d.pc
  fields := d.fields
  aluResult := r
  storeData := d.rs2Value
  ctrl := d.ctrl

theorem issue_ctrl (m : CoreState x) (pc : Word x) (f : DecodedFields x) :
    (m.issue pc f).ctrl = generate f pc (m.operand1 f) (m.operand2 f) := rfl

theorem decodeIssue_idEx (m : CoreState x) (d : IfId x) (f : DecodedFields x) :
    (decodeIssue m d f).idEx = some (m.issue d.pc f) := rfl

theorem computes_of_operands {d : IdEx x} {a b : Word x} {c : ControlSignals x}
    (operands : aluOperands d = .ok (a, b)) (ctrl : d.ctrl = c)
    (result : execute a b c.aluOp = .ok r) : d.computes r :=
  ⟨a, b, operands, ctrl ▸ result⟩

theorem executeStage_of_computes {d : IdEx x} (valid : m.idEx = some d) (computed : d.computes r) :
    executeStage m = .ok (some (d.withResult r)) := by
  obtain ⟨a, b, operands, result⟩ := computed
  simp only [executeStage, valid, operands, result]
  rfl

/-- The ALU answers for whatever Decode issues. -/
theorem exists_computes (m : CoreState x) (pc : Word x) (known : formatOf f.opcode ≠ .Unknown) :
    ∃ r, (m.issue pc f).computes r := by
  obtain ⟨a, b, operands⟩ := aluOperands_ok_of_known (d := m.issue pc f) known
  obtain ⟨r, result⟩ := execute_ok_of_ne_unset (generate_aluOp_ne_unset f pc _ _) a b
  exact ⟨r, a, b, operands, result⟩

/-- Memory's answer for the instruction `e` in `EX_M`. -/
def CoreState.access (m : CoreState x) (e : ExM x) : Except (Stop x) (MemoryOut x) :=
  memoryStage { m with exM := some e }

theorem memoryStage_of_exM {e : ExM x} (valid : m.exM = some e) : memoryStage m = m.access e :=
  memoryStage_congr (t := m) (m := { m with exM := some e }) rfl rfl rfl valid

theorem access_congr {t : CoreState x} (cfg : t.cfg = m.cfg) (mem : t.mem = m.mem) (e : ExM x) :
    t.access e = m.access e :=
  memoryStage_congr (t := { t with exM := some e }) (m := { m with exM := some e })
    (congrArg _ cfg) (congrArg _ cfg) mem rfl

/-- An accepted access hands the instruction on. -/
theorem access_mWb_isSome {e : ExM x} {out : MemoryOut x} (answer : m.access e = .ok out) :
    out.mWb.isSome = true := by
  rcases memoryStage_ok answer with ⟨bubble, -⟩ | ⟨_, _, _, -, -, -, rfl⟩
  · cases bubble
  · rfl

/-- `pc` after the passage of `f`: the target of a taken transfer, else the next word (rule R137). -/
def CoreState.passagePc (m : CoreState x) (f : DecodedFields x) : Word x :=
  if (m.issue m.pc f).ctrl.branchTaken then (m.issue m.pc f).ctrl.branchTarget else m.pc + 4#x.bits

/-- The passage of `f` alone, the memory having answered `out`. -/
def CoreState.passThrough (m : CoreState x) (f : DecodedFields x) (out : MemoryOut x) : CoreState x :=
  { m.passFields f with
    pc := m.passagePc f
    mem := nextMem m out.store
    regs := (writeBack { m with mWb := out.mWb }).regs }

/-- The passage of `f` alone, abandoned with `e` in `EX_M`. -/
def CoreState.abandonPassage (m : CoreState x) (f : DecodedFields x) (e : ExM x) (c : Condition x) :
    CoreState x :=
  { m with
    pc := m.passagePc f
    exM := some e
    instructionsIssued := m.instructionsIssued + 1
    cycles := m.cycles + 3
    diag := m.diagWith m.pc f
    status := .failed c }

/-- The stages take a word with fields `f`, alone in the machine `m`, to `t`. -/
def StagesGive (m : CoreState x) (f : DecodedFields x) (t : CoreState x) : Prop :=
  ∃ r, (m.issue m.pc f).computes r ∧
    ((∃ out, m.access ((m.issue m.pc f).withResult r) = .ok out ∧ t = m.passThrough f out) ∨
     ∃ c, m.access ((m.issue m.pc f).withResult r) = .error (.fatal c) ∧
      t = m.abandonPassage f ((m.issue m.pc f).withResult r) c)

/-! ## By what the bundle asks of Memory -/

theorem writeReg_eq_with_regs (m : CoreState x) (rd : RegIndex) (v : Word x) :
    m.writeReg rd v = { m with regs := (m.writeReg rd v).regs } := by
  unfold CoreState.writeReg
  split <;> rfl

theorem access_of_no_access {e : ExM x} (no_load : e.ctrl.memRead = false)
    (no_store : e.ctrl.memWrite = false) :
    m.access e = .ok
      { mWb := some { pc := e.pc, rd := e.fields.rd, aluResult := e.aluResult, memData := 0,
                      ctrl := e.ctrl }
        store := none } := by
  simp only [CoreState.access, memoryStage, loadedValue_of_not_load no_load, pendingStore, no_store]
  rfl

/-- WriteBack's registers for the instruction `w` in `M_WB` (rule R150). -/
theorem writeBack_regs_of_some (m : CoreState x) (w : MWb x) :
    (writeBack { m with mWb := some w }).regs =
      if w.ctrl.regWrite then (m.writeReg w.rd w.value).regs else m.regs := by
  rw [writeBack_some rfl]
  split
  · exact writeReg_regs_congr (t := { m with mWb := some w }) (m := m) rfl _ _
  · rfl

/-- The core of a passage that writes `v` to `rd` if `writes`, and goes on to `pc`. -/
def CoreState.passWith (m : CoreState x) (f : DecodedFields x) (pc : Word x) (writes : Bool)
    (rd : RegIndex) (v : Word x) : CoreState x :=
  if writes then ({ m.passFields f with pc := pc } : CoreState x).writeReg rd v
  else { m.passFields f with pc := pc }

theorem passWith_eq (m : CoreState x) (f : DecodedFields x) (pc : Word x) (writes : Bool)
    (rd : RegIndex) (v : Word x) :
    m.passWith f pc writes rd v =
      { m.passFields f with
        pc := pc
        regs := if writes then (m.writeReg rd v).regs else m.regs } := by
  cases writes
  · rfl
  · rw [CoreState.passWith, if_pos rfl, writeReg_eq_with_regs, if_pos rfl,
      writeReg_regs_congr (m := m) (by rfl)]

theorem value_of_not_load {w : MWb x} (no_load : w.ctrl.memRead = false) : w.value = w.aluResult :=
  if_neg (Bool.eq_false_iff.1 no_load)

theorem value_of_load {w : MWb x} (load : w.ctrl.memRead = true) : w.value = w.memData :=
  if_pos load

/-- A passage without a store writes what WriteBack writes. -/
theorem passThrough_of_no_store (m : CoreState x) (f : DecodedFields x) {w : MWb x} {v : Word x}
    (value : w.value = v) :
    m.passThrough f { mWb := some w, store := none } =
      m.passWith f (m.passagePc f) w.ctrl.regWrite w.rd v := by
  subst value
  rw [CoreState.passThrough, writeBack_regs_of_some, passWith_eq]
  rfl

/-- A bundle without an access: `pc` moves, and the ALU's result goes to `rd` if a register is written. -/
theorem stagesGive_of_no_access {c : ControlSignals x} (ctrl : (m.issue m.pc f).ctrl = c)
    (computed : (m.issue m.pc f).computes r) (no_load : c.memRead = false)
    (no_store : c.memWrite = false) :
    StagesGive m f (m.passWith f (m.passagePc f) c.regWrite f.rd r) := by
  subst ctrl
  exact ⟨r, computed, .inl ⟨_, access_of_no_access no_load no_store,
    (passThrough_of_no_store m f (w := ⟨m.pc, f.rd, r, 0, (m.issue m.pc f).ctrl⟩)
      (value_of_not_load no_load)).symm⟩⟩

section Kinds
variable {op : AluOp} {a b : Word x}

theorem passagePc_of_not_taken (not_taken : (m.issue m.pc f).ctrl.branchTaken = false) :
    m.passagePc f = m.pc + 4#x.bits :=
  if_neg (by simp [not_taken])

/-- The passage of a bundle that writes the ALU's result. -/
theorem stagesGive_of_aluSignals (ctrl : (m.issue m.pc f).ctrl = aluSignals op)
    (operands : aluOperands (m.issue m.pc f) = .ok (a, b)) (result : execute a b op = .ok r) :
    StagesGive m f ((m.passFields f).writeReg f.rd r) := by
  have given := stagesGive_of_no_access ctrl (computes_of_operands operands ctrl result) rfl rfl
  rwa [passagePc_of_not_taken (by rw [ctrl]; rfl)] at given

/-- The passage of the safe no-op. -/
theorem stagesGive_of_nopSignals (ctrl : (m.issue m.pc f).ctrl = nopSignals)
    (computed : (m.issue m.pc f).computes r) : StagesGive m f (m.passFields f) := by
  have given := stagesGive_of_no_access ctrl computed rfl rfl
  rwa [passagePc_of_not_taken (by rw [ctrl]; rfl)] at given

/-- The passage of a jump. -/
theorem stagesGive_of_jumpSignals {target : Word x}
    (ctrl : (m.issue m.pc f).ctrl = jumpSignals target)
    (operands : aluOperands (m.issue m.pc f) = .ok (a, b)) :
    StagesGive m f
      (({ m.passFields f with pc := target } : CoreState x).writeReg f.rd (aluAdd a b)) := by
  have given := stagesGive_of_no_access ctrl (computes_of_operands operands ctrl rfl) rfl rfl
  have pc : m.passagePc f = target := by rw [CoreState.passagePc, ctrl]; rfl
  rwa [pc] at given

/-- The passage of a branch. -/
theorem stagesGive_of_branchSignals {taken : Bool} {target : Word x}
    (ctrl : (m.issue m.pc f).ctrl = branchSignals op taken target)
    (operands : aluOperands (m.issue m.pc f) = .ok (a, b)) (result : execute a b op = .ok r) :
    StagesGive m f { m.passFields f with pc := if taken then target else m.pc + 4#x.bits } := by
  have given := stagesGive_of_no_access ctrl (computes_of_operands operands ctrl result) rfl rfl
  have pc : m.passagePc f = if taken then target else m.pc + 4#x.bits := by
    rw [CoreState.passagePc, ctrl]
    rfl
  rwa [pc] at given

end Kinds

/-! ## The instructions by their words -/

section Words
variable {rd rs1 rs2 : RegIndex} {imm : BitVec 12} {imm20 : BitVec 20} {f3 : BitVec 3}
  {f7 : BitVec 7} {op : AluOp} {v : Word x}

theorem pass_eq (m : CoreState x) (i : Instr) : m.pass i = m.passFields (i.fields x) := rfl

/-- An OP word whose row has the operation `op` (rules R112, R113, R170). -/
theorem stagesGive_of_op (encoded : encode i = encodeR f7 rs2 rs1 f3 rd 0x33#7)
    (row : opTable f3 f7 = some op) (result : execute (m.readReg rs1) (m.readReg rs2) op = .ok v) :
    StagesGive m (i.fields x) ((m.pass i).writeReg rd v) := by
  rw [pass_eq, Instr.fields, encoded, fieldsOfWord_encodeR x f7 rs2 rs1 f3 rd rfl]
  refine stagesGive_of_aluSignals ?_ (aluOperands_registers List.mem_cons_self) result
  rw [issue_ctrl, generate_op _ _ _ rfl, row]
  rfl

/-- An OP-IMM word whose row has the operation `op` (rules R114, R190, R197). -/
theorem stagesGive_of_opImm (encoded : encode i = encodeI imm rs1 f3 rd 0x13#7)
    (row : opImmTable x f3 (imm.extractLsb' 5 7) = some op)
    (result : execute (m.readReg rs1) (sext x imm) op = .ok v) :
    StagesGive m (i.fields x) ((m.pass i).writeReg rd v) := by
  rw [pass_eq, Instr.fields, encoded, fieldsOfWord_encodeI x imm rs1 f3 rd rfl]
  refine stagesGive_of_aluSignals ?_ (aluOperands_register_immediate List.mem_cons_self) result
  rw [issue_ctrl, generate_opImm _ _ _ rfl, row]
  rfl

theorem stagesGive_of_lui (rd : RegIndex) (imm20 : BitVec 20) :
    StagesGive m ((Instr.lui rd imm20).fields x)
      ((m.pass (.lui rd imm20)).writeReg rd (upperImmediate x imm20)) := by
  rw [pass_eq, Instr.fields, encode, fieldsOfWord_encodeU x imm20 rd rfl]
  refine stagesGive_of_aluSignals (op := .PASSTHROUGH) ?_ (aluOperands_lui rfl) rfl
  rw [issue_ctrl, generate_lui _ _ _ rfl]

theorem stagesGive_of_auipc (rd : RegIndex) (imm20 : BitVec 20) :
    StagesGive m ((Instr.auipc rd imm20).fields x)
      ((m.pass (.auipc rd imm20)).writeReg rd (aluAdd m.pc (upperImmediate x imm20))) := by
  rw [pass_eq, Instr.fields, encode, fieldsOfWord_encodeU x imm20 rd rfl]
  refine stagesGive_of_aluSignals (op := .ADD) ?_ (aluOperands_auipc rfl) rfl
  rw [issue_ctrl, generate_auipc _ _ _ rfl]

theorem stagesGive_of_jal {imm : BitVec 21} (rd : RegIndex) (even : imm.getLsbD 0 = false) :
    StagesGive m ((Instr.jal rd imm).fields x)
      ((m.passTo (.jal rd imm) (m.relativeTarget imm)).writeReg rd m.linkValue) := by
  rw [CoreState.passTo, pass_eq, Instr.fields, encode, fieldsOfWord_encodeJ x imm rd rfl even]
  refine stagesGive_of_jumpSignals ?_ (aluOperands_jump List.mem_cons_self)
  rw [issue_ctrl, generate_jal _ _ _ rfl]
  rfl

theorem stagesGive_of_jalr (rd rs1 : RegIndex) (imm : BitVec 12) :
    StagesGive m ((Instr.jalr rd rs1 imm).fields x)
      ((m.passTo (.jalr rd rs1 imm) (m.registerTarget rs1 imm)).writeReg rd m.linkValue) := by
  rw [CoreState.passTo, pass_eq, Instr.fields, encode, fieldsOfWord_encodeI x imm rs1 0#3 rd rfl]
  refine stagesGive_of_jumpSignals ?_
    (aluOperands_jump (List.mem_cons_of_mem _ List.mem_cons_self))
  rw [issue_ctrl, generate_jalr _ _ _ rfl]
  rfl

/-- A branch whose test decides its row's comparison (rules R117, R230). -/
theorem stagesGive_of_branch {imm : BitVec 13} {p : Polarity} {c : Word x} {taken : Bool}
    (encoded : encode i = encodeB imm rs2 rs1 f3 0x63#7) (row : branchTable f3 = some (op, p))
    (even : imm.getLsbD 0 = false)
    (result : execute (m.readReg rs1) (m.readReg rs2) op = .ok c) (decision : p.holds c = taken) :
    StagesGive m (i.fields x) (m.passBranch i taken (m.relativeTarget imm)) := by
  subst decision
  have target : m.passBranch i (p.holds c) (m.relativeTarget imm) =
      { m.pass i with pc := if p.holds c then m.relativeTarget imm else m.pc + 4#x.bits } := by
    rw [CoreState.passBranch]
    split <;> rfl
  have ctrl := generate_encodeB rs1 rs2 m.pc row result even
  rw [target, pass_eq, Instr.fields, encoded]
  rw [fieldsOfWord_encodeB x imm rs2 rs1 f3 rfl even] at ctrl ⊢
  exact stagesGive_of_branchSignals ctrl
    (aluOperands_registers (List.mem_cons_of_mem _ List.mem_cons_self)) result

end Words

/-! ## Loads and stores (rules R147, R148, R210, R218) -/

section Accesses
variable {rd rs1 rs2 : RegIndex} {imm : BitVec 12} {f3 : BitVec 3} {n : Nat} {signExtend : Bool}

/-- The bundle, the address and the data that a load's word brings to Memory. -/
theorem IsLoad.issue_facts (load : IsLoad x i f3 n signExtend rd rs1 imm)
    (exists_here : i.wellFormed x = true) :
    (m.issue m.pc (i.fields x)).ctrl = loadSignals ∧
      (m.issue m.pc (i.fields x)).rs2Value = 0 ∧
      (m.issue m.pc (i.fields x)).computes (m.effectiveAddress rs1 imm) ∧
      (i.fields x).funct3 = f3 ∧ (i.fields x).rd = rd := by
  rw [Instr.fields, load.encoded, fieldsOfWord_encodeI x imm rs1 f3 rd rfl]
  have ctrl : (m.issue m.pc ⟨0x03#7, f3, imm.extractLsb' 5 7, rs1, 0, rd, sext x imm, .I⟩).ctrl =
      loadSignals := by
    rw [issue_ctrl, generate_load _ _ _ rfl, load.column.trans (if_pos exists_here)]
    rfl
  exact ⟨ctrl, rfl, computes_of_operands (aluOperands_register_immediate
    (List.mem_cons_of_mem _ List.mem_cons_self)) ctrl rfl, rfl, rfl⟩

theorem IsStore.issue_facts (store : IsStore x i f3 n rs2 rs1 imm)
    (exists_here : i.wellFormed x = true) :
    (m.issue m.pc (i.fields x)).ctrl = storeSignals ∧
      (m.issue m.pc (i.fields x)).rs2Value = m.readReg rs2 ∧
      (m.issue m.pc (i.fields x)).computes (m.effectiveAddress rs1 imm) ∧
      (i.fields x).funct3 = f3 := by
  rw [Instr.fields, store.encoded, fieldsOfWord_encodeS x imm rs2 rs1 f3 rfl]
  have ctrl : (m.issue m.pc ⟨0x23#7, f3, funct7Of (encodeS imm rs2 rs1 f3 0x23#7), rs1, rs2, 0,
      sext x imm, .S⟩).ctrl = storeSignals := by
    rw [issue_ctrl, generate_store _ _ _ rfl, store.column.trans (if_pos exists_here)]
    rfl
  exact ⟨ctrl, rfl, computes_of_operands (aluOperands_register_immediate
    (List.mem_cons_of_mem _ (List.mem_cons_of_mem _ List.mem_cons_self))) ctrl rfl, rfl⟩

theorem access_of_load_ok {e : ExM x} {v : Word x} (load : e.ctrl.memRead = true)
    (no_store : e.ctrl.memWrite = false)
    (column : loadWidth x e.fields.funct3 = some (n, signExtend))
    (read : dmemRead m.cfg m.mem e.aluResult n signExtend = .ok v) :
    m.access e = .ok
      { mWb := some { pc := e.pc, rd := e.fields.rd, aluResult := e.aluResult, memData := v,
                      ctrl := e.ctrl }
        store := none } := by
  simp [CoreState.access, memoryStage, loadedValue, pendingStore, load, no_store, column, read]

theorem access_of_load_error {e : ExM x} {c : Condition x} (load : e.ctrl.memRead = true)
    (column : loadWidth x e.fields.funct3 = some (n, signExtend))
    (read : dmemRead m.cfg m.mem e.aluResult n signExtend = .error c) :
    m.access e = .error (.fatal c) := by
  simp [CoreState.access, memoryStage, loadedValue, load, column, read]

theorem access_of_store_ok {e : ExM x} (no_load : e.ctrl.memRead = false)
    (store : e.ctrl.memWrite = true) (size : storeWidth x e.fields.funct3 = some n)
    (accepts : dmemCheck m.cfg e.aluResult n = .ok ()) :
    m.access e = .ok
      { mWb := some { pc := e.pc, rd := e.fields.rd, aluResult := e.aluResult, memData := 0,
                      ctrl := e.ctrl }
        store := some { addr := e.aluResult, size := n, value := e.storeData } } := by
  simp [CoreState.access, memoryStage, loadedValue, pendingStore, no_load, store, size, accepts]

theorem access_of_store_error {e : ExM x} {c : Condition x} (no_load : e.ctrl.memRead = false)
    (store : e.ctrl.memWrite = true) (size : storeWidth x e.fields.funct3 = some n)
    (refuses : dmemCheck m.cfg e.aluResult n = .error c) : m.access e = .error (.fatal c) := by
  simp [CoreState.access, memoryStage, loadedValue, pendingStore, no_load, store, size, refuses]

theorem abandonPassage_eq (i : Instr) {ctrl : ControlSignals x} {storeData ea : Word x}
    (made : (m.issue m.pc (i.fields x)).ctrl = ctrl) (not_taken : ctrl.branchTaken = false)
    (data : (m.issue m.pc (i.fields x)).rs2Value = storeData) (c : Condition x) :
    m.abandonInMemory i ea storeData ctrl c =
      m.abandonPassage (i.fields x) ((m.issue m.pc (i.fields x)).withResult ea) c := by
  subst made data
  rw [CoreState.abandonPassage, passagePc_of_not_taken not_taken]
  rfl

theorem IsLoad.stagesGive (load : IsLoad x i f3 n signExtend rd rs1 imm)
    (exists_here : i.wellFormed x = true) :
    StagesGive m (i.fields x) (m.load i n signExtend rd rs1 imm) := by
  obtain ⟨ctrl, data, computed, funct3, rd_eq⟩ := load.issue_facts (m := m) exists_here
  have column : loadWidth x (i.fields x).funct3 = some (n, signExtend) := by
    rw [funct3, load.column, if_pos exists_here]
  have reads : (m.issue m.pc (i.fields x)).ctrl.memRead = true := by rw [ctrl]; rfl
  refine ⟨_, computed, ?_⟩
  cases read : dmemRead m.cfg m.mem (m.effectiveAddress rs1 imm) n signExtend with
  | ok v =>
    refine .inl ⟨_, access_of_load_ok reads (by rw [IdEx.withResult, ctrl]; rfl) column read, ?_⟩
    rw [load_ok read, passThrough_of_no_store m (i.fields x) (value_of_load reads),
      passagePc_of_not_taken (by rw [ctrl]; rfl)]
    simp only [IdEx.withResult, ctrl]
    rw [← rd_eq]
    rfl
  | error c =>
    refine .inr ⟨c, access_of_load_error reads column read, ?_⟩
    rw [← abandonPassage_eq i ctrl rfl data]
    simp only [CoreState.load, read]
    rfl

theorem IsStore.stagesGive (store : IsStore x i f3 n rs2 rs1 imm)
    (exists_here : i.wellFormed x = true) :
    StagesGive m (i.fields x) (m.store i n rs2 rs1 imm) := by
  obtain ⟨ctrl, data, computed, funct3⟩ := store.issue_facts (m := m) exists_here
  have size : storeWidth x (i.fields x).funct3 = some n := by
    rw [funct3, store.column, if_pos exists_here]
  have no_load : (m.issue m.pc (i.fields x)).ctrl.memRead = false := by rw [ctrl]; rfl
  have stores : (m.issue m.pc (i.fields x)).ctrl.memWrite = true := by rw [ctrl]; rfl
  refine ⟨_, computed, ?_⟩
  cases check : dmemCheck m.cfg (m.effectiveAddress rs1 imm) n with
  | ok =>
    refine .inl ⟨_, access_of_store_ok no_load stores size check, ?_⟩
    rw [store_ok check, CoreState.passThrough, writeBack_regs_of_some,
      passagePc_of_not_taken (by rw [ctrl]; rfl)]
    simp only [IdEx.withResult, ctrl, data]
    rfl
  | error c =>
    refine .inr ⟨c, access_of_store_error no_load stores size check, ?_⟩
    rw [← abandonPassage_eq i ctrl rfl data, store_error check]

end Accesses

/-! ## Every instruction -/

/-- The ALU reduces a shift-immediate's second operand to its amount (rules R103, R197). -/
theorem shiftAmount_sext (x : XLen) (upper shamt : BitVec 6) :
    shiftAmount (sext x (upper ++ shamt)) = shiftAmount (shamtWord x shamt) := by
  have low := congrArg BitVec.toNat (shamt_of_immediate x upper shamt)
  rw [BitVec.toNat_setWidth] at low
  rw [shiftAmount, shiftAmount, shamtWord_toNat]
  generalize (sext x (upper ++ shamt)).toNat = v at low ⊢
  cases x <;> simp only [XLen.bits_x32, XLen.bits_x64] <;> omega

/-- A row of the generator's table for the shift that the bits above the amount select. -/
theorem opImmTable_of_fits {shamt : BitVec 6} (fits : shamtFits x shamt = true) :
    opImmTable x 1#3 ((0b000000#6 ++ shamt).extractLsb' 5 7) = some .SLL ∧
    opImmTable x 5#3 ((0b000000#6 ++ shamt).extractLsb' 5 7) = some .SRL ∧
    opImmTable x 5#3 ((0b010000#6 ++ shamt).extractLsb' 5 7) = some .SRA := by
  revert shamt
  cases x <;> decide

/-- Every instruction of the width: the stages take its word to what its meaning answers. -/
theorem exec_stagesGive (m : CoreState x) (exists_here : i.wellFormed x = true) :
    ∃ t, exec i { xlen := x, core := m } = .next { xlen := x, core := t } ∧
      StagesGive m (i.fields x) t := by
  cases i
  case add | sub | sll | slt | sltu | xor | srl | sra | or | and =>
    exact ⟨_, rfl, stagesGive_of_op rfl rfl rfl⟩
  case addi | slti | sltiu | xori | ori | andi =>
    exact ⟨_, rfl, stagesGive_of_opImm rfl rfl rfl⟩
  case slli rd rs1 shamt =>
    refine ⟨_, opShiftImm_of_fits ((shamtFits_iff x shamt).1 exists_here),
      stagesGive_of_opImm rfl (opImmTable_of_fits exists_here).1 ?_⟩
    simp only [execute, aluSll, shiftAmount_sext]
  case srli rd rs1 shamt =>
    refine ⟨_, opShiftImm_of_fits ((shamtFits_iff x shamt).1 exists_here),
      stagesGive_of_opImm rfl (opImmTable_of_fits exists_here).2.1 ?_⟩
    simp only [execute, aluSrl, shiftAmount_sext]
  case srai rd rs1 shamt =>
    refine ⟨_, opShiftImm_of_fits ((shamtFits_iff x shamt).1 exists_here),
      stagesGive_of_opImm rfl (opImmTable_of_fits exists_here).2.2 ?_⟩
    simp only [execute, aluSra, shiftAmount_sext]
  case lui rd imm20 => exact ⟨_, rfl, stagesGive_of_lui rd imm20⟩
  case auipc rd imm20 => exact ⟨_, rfl, stagesGive_of_auipc rd imm20⟩
  case lb rd rs1 imm => exact ⟨_, rfl, (isLoad_lb x rd rs1 imm).stagesGive exists_here⟩
  case lh rd rs1 imm => exact ⟨_, rfl, (isLoad_lh x rd rs1 imm).stagesGive exists_here⟩
  case lw rd rs1 imm => exact ⟨_, rfl, (isLoad_lw x rd rs1 imm).stagesGive exists_here⟩
  case lbu rd rs1 imm => exact ⟨_, rfl, (isLoad_lbu x rd rs1 imm).stagesGive exists_here⟩
  case lhu rd rs1 imm => exact ⟨_, rfl, (isLoad_lhu x rd rs1 imm).stagesGive exists_here⟩
  case lwu rd rs1 imm =>
    exact ⟨_, ((isLoad_lwu x rd rs1 imm).meaning m).trans (by rw [if_pos exists_here]),
      (isLoad_lwu x rd rs1 imm).stagesGive exists_here⟩
  case ld rd rs1 imm =>
    exact ⟨_, ((isLoad_ld x rd rs1 imm).meaning m).trans (by rw [if_pos exists_here]),
      (isLoad_ld x rd rs1 imm).stagesGive exists_here⟩
  case sb rs2 rs1 imm => exact ⟨_, rfl, (isStore_sb x rs1 rs2 imm).stagesGive exists_here⟩
  case sh rs2 rs1 imm => exact ⟨_, rfl, (isStore_sh x rs1 rs2 imm).stagesGive exists_here⟩
  case sw rs2 rs1 imm => exact ⟨_, rfl, (isStore_sw x rs1 rs2 imm).stagesGive exists_here⟩
  case sd rs2 rs1 imm =>
    exact ⟨_, ((isStore_sd x rs1 rs2 imm).meaning m).trans (by rw [if_pos exists_here]),
      (isStore_sd x rs1 rs2 imm).stagesGive exists_here⟩
  case beq | bne | blt | bge | bltu | bgeu =>
    exact ⟨_, rfl, stagesGive_of_branch rfl rfl (lsb_of_evenOffset exists_here) rfl rfl⟩
  case jal rd imm => exact ⟨_, rfl, stagesGive_of_jal rd (lsb_of_evenOffset exists_here)⟩
  case jalr rd rs1 imm => exact ⟨_, rfl, stagesGive_of_jalr rd rs1 imm⟩

/-- A word without a row: the stages take it to the safe no-op's passage (rules R66, R121). -/
theorem stagesGive_of_no_row {w : InstrWord} (m : CoreState x)
    (known : formatOf (opcodeOf w) ≠ .Unknown) (no_row : instrOfFields (fieldsOfWord x w) = none) :
    StagesGive m (fieldsOfWord x w) (m.passFields (fieldsOfWord x w)) := by
  obtain ⟨r, computed⟩ := exists_computes (f := fieldsOfWord x w) m m.pc known
  exact stagesGive_of_nopSignals ((instrOfFields_eq_none_iff known _ _ _).1 no_row) computed

end Sys2Proof.Machine
end

section
/-!
The statements comparing one instruction's cycles with its meaning (`43_pipeline.md` section 7), settled.
-/

namespace Sys2Proof.Machine

variable {x : XLen} {m t : CoreState x}

/-! ## An instruction alone in the pipeline, cycle by cycle (rules R157, R160)

The core `m` is empty and the word with fields `f` was fetched at its `pc`.  From the cycle after Decode
on, nothing is fetched, `pc` stays at `pc`, and `stopped` says whether Fetch has read the sentinel. -/

section Solo
variable (m) (stopped : Bool) (pc : Word x) (f : DecodedFields x)

/-- The instruction stands in `ID_EX`. -/
def CoreState.soloInExecute : CoreState x :=
  { m with
    pc := pc
    idEx := some (m.issue m.pc f)
    fetchStopped := stopped
    instructionsIssued := m.instructionsIssued + 1
    cycles := m.cycles + 2
    diag := m.diagWith m.pc f }

/-- The instruction stands in `EX_M`. -/
def CoreState.soloInMemory (e : ExM x) : CoreState x :=
  { m.soloInExecute stopped pc f with idEx := none, exM := some e, cycles := m.cycles + 3 }

/-- The instruction stands in `M_WB`. -/
def CoreState.soloInWriteBack (out : MemoryOut x) : CoreState x :=
  { m.soloInExecute stopped pc f with
    idEx := none
    mWb := out.mWb
    mem := nextMem m out.store
    cycles := m.cycles + 4 }

/-- The core `t` that a passage of `m` gives, with Fetch and `pc` as the cycles left them: the run has
over if Fetch has stopped and no condition was raised. -/
def CoreState.settled (t : CoreState x) : CoreState x :=
  { t with
    pc := pc
    fetchStopped := stopped
    status := if t.status = .running then (if stopped then .ended else .running) else t.status }

end Solo

theorem fetchStage_of_disabled (off : m.fetchEnabled = false) :
    fetchStage m = .ok { ifId := none, sawSentinel := false } := by
  simp [fetchStage, off]

theorem executeStage_of_bubble (bubble : m.idEx = none) : executeStage m = .ok none := by
  simp only [executeStage, bubble]

theorem memoryStage_of_bubble (bubble : m.exM = none) :
    memoryStage m = .ok { mWb := none, store := none } := by
  simp only [memoryStage, bubble]

theorem fetchEnabled_of_busy (busy : m.empty = false)
    (off : m.fetchStopped = true ∨ m.cfg.pipelining = false) : m.fetchEnabled = false := by
  rcases off with h | h <;> simp [CoreState.fetchEnabled, h, busy]

section Cycles
variable {stopped : Bool} {pc : Word x} {f : DecodedFields x} {r : Word x}
  (running : m.status = .running) (empty : m.empty = true)
  (off : stopped = true ∨ m.cfg.pipelining = false)
include running empty off

theorem clockCycle_soloInExecute (computed : (m.issue m.pc f).computes r) :
    clockCycle (m.soloInExecute stopped pc f) =
      .ok (m.soloInMemory stopped pc f ((m.issue m.pc f).withResult r)) := by
  obtain ⟨ifId, idEx, exM, mWb⟩ := (empty_iff m).1 empty
  have idle : (m.soloInExecute stopped pc f).fetchEnabled = false :=
    fetchEnabled_of_busy (by simp [CoreState.empty, CoreState.soloInExecute]) off
  refine clockCycle_of_evaluate_ok running (evaluate_ok_iff.2 ⟨_, _, _, _,
    fetchStage_of_disabled idle, decodeStage_of_bubble ifId, executeStage_of_computes rfl computed,
    memoryStage_of_bubble exM, ?_⟩)
  simp [clockEdge, nextPc, nextMem, writeBack, endStatus, CoreState.empty, CoreState.soloInExecute,
    CoreState.soloInMemory, ifId, exM, mWb]

theorem clockCycle_soloInMemory {e : ExM x} {out : MemoryOut x} (answer : m.access e = .ok out) :
    clockCycle (m.soloInMemory stopped pc f e) = .ok (m.soloInWriteBack stopped pc f out) := by
  obtain ⟨ifId, idEx, exM, mWb⟩ := (empty_iff m).1 empty
  have idle : (m.soloInMemory stopped pc f e).fetchEnabled = false :=
    fetchEnabled_of_busy (by simp [CoreState.empty, CoreState.soloInMemory]) off
  obtain ⟨w, moved⟩ := Option.isSome_iff_exists.1 (access_mWb_isSome answer)
  have answer' : memoryStage (m.soloInMemory stopped pc f e) = .ok out :=
    (memoryStage_of_exM rfl).trans ((access_congr (m := m) rfl rfl e).trans answer)
  refine clockCycle_of_evaluate_ok running (evaluate_ok_iff.2 ⟨_, _, _, _,
    fetchStage_of_disabled idle, decodeStage_of_bubble ifId, executeStage_of_bubble rfl, answer', ?_⟩)
  simp [clockEdge, nextPc, nextMem, writeBack, endStatus, CoreState.empty, CoreState.soloInExecute,
    CoreState.soloInMemory, CoreState.soloInWriteBack, ifId, exM, mWb, moved]

theorem clockCycle_soloInMemory_refused {e : ExM x} {c : Condition x}
    (answer : m.access e = .error (.fatal c)) :
    clockCycle (m.soloInMemory stopped pc f e) = .ok ((m.soloInMemory stopped pc f e).raise c) := by
  have idle : (m.soloInMemory stopped pc f e).fetchEnabled = false :=
    fetchEnabled_of_busy (by simp [CoreState.empty, CoreState.soloInMemory]) off
  have answer' : memoryStage (m.soloInMemory stopped pc f e) = .error (.fatal c) :=
    (memoryStage_of_exM rfl).trans ((access_congr (m := m) rfl rfl e).trans answer)
  exact clockCycle_of_evaluate_fatal running (evaluate_of_memory_error (fetchStage_of_disabled idle)
    (decodeStage_of_bubble ((empty_iff m).1 empty).1) (executeStage_of_bubble rfl) answer')

theorem clockCycle_soloInWriteBack {out : MemoryOut x} (moved : out.mWb.isSome = true) :
    clockCycle (m.soloInWriteBack stopped pc f out) =
      .ok ((m.passThrough f out).settled stopped pc) := by
  obtain ⟨ifId, idEx, exM, mWb⟩ := (empty_iff m).1 empty
  have idle : (m.soloInWriteBack stopped pc f out).fetchEnabled = false :=
    fetchEnabled_of_busy (by simp [CoreState.empty, CoreState.soloInWriteBack, moved]) off
  have written : (writeBack (m.soloInWriteBack stopped pc f out)).regs =
      (writeBack { m with mWb := out.mWb }).regs := writeBack_regs_congr rfl rfl
  refine clockCycle_of_evaluate_ok running (evaluate_ok_iff.2 ⟨_, _, _, _,
    fetchStage_of_disabled idle, decodeStage_of_bubble ifId, executeStage_of_bubble rfl,
    memoryStage_of_bubble exM, ?_⟩)
  simp only [clockEdge, written]
  cases stopped <;>
    simp [nextPc, nextMem, endStatus, CoreState.empty, CoreState.soloInExecute,
      CoreState.soloInWriteBack, CoreState.passThrough, CoreState.passFields, CoreState.settled, ifId,
      idEx, exM, mWb, moved, running]

/-- From `ID_EX` on, three cycles give what the stages give. -/
theorem stepN_soloInExecute (given : StagesGive m f t) :
    stepN 3 { xlen := x, core := m.soloInExecute stopped pc f } =
      .next { xlen := x, core := t.settled stopped pc } := by
  obtain ⟨r, computed, ⟨out, answer, rfl⟩ | ⟨c, answer, rfl⟩⟩ := given
  · rw [stepN_succ 2 (step_next_iff.2 (clockCycle_soloInExecute running empty off computed)),
      stepN_succ 1 (step_next_iff.2 (clockCycle_soloInMemory running empty off answer)),
      stepN_succ 0 (step_next_iff.2
        (clockCycle_soloInWriteBack running empty off (access_mWb_isSome answer)))]
    rfl
  · rw [stepN_succ 2 (step_next_iff.2 (clockCycle_soloInExecute running empty off computed)),
      stepN_succ 1 (step_next_iff.2 (clockCycle_soloInMemory_refused running empty off answer)),
      nothingChangesAfterTheEnd x _ 1 (by simp [CoreState.raise])]
    obtain ⟨-, idEx, -, -⟩ := (empty_iff m).1 empty
    simp [CoreState.soloInMemory, CoreState.soloInExecute, CoreState.raise, CoreState.settled,
      CoreState.abandonPassage, idEx]

end Cycles

/-! ## From Fetch to `ID_EX` -/

section Fetched
variable {w : InstrWord} (running : m.status = .running) (empty : m.empty = true)

/-- The core after the cycle in which Fetch fetched `w` into the empty machine. -/
def CoreState.afterFetch (m : CoreState x) (w : InstrWord) : CoreState x :=
  { m with
    pc := m.pc + 4#x.bits
    ifId := some { pc := m.pc, word := w }
    cycles := m.cycles + 1 }

theorem going_of_fetchEnabled (enabled : m.fetchEnabled = true) : m.fetchStopped = false := by
  simp only [CoreState.fetchEnabled, Bool.and_eq_true, Bool.not_eq_true'] at enabled
  exact enabled.1

theorem fetchStage_of_fetches (fetched : m.fetches w) :
    fetchStage m = .ok { ifId := some { pc := m.pc, word := w }, sawSentinel := false } := by
  obtain ⟨enabled, read, other⟩ := fetched
  simp only [fetchStage, enabled, read, if_true, if_neg other]

theorem fetchStage_of_readsSentinel (read : m.readsSentinel) :
    fetchStage m = .ok { ifId := none, sawSentinel := true } := by
  obtain ⟨enabled, read⟩ := read
  simp only [fetchStage, enabled, read, if_true]

/-- Where Decode of the word at `pc` redirects Fetch to, if anywhere (rule R118). -/
def CoreState.passageRedirect (m : CoreState x) (f : DecodedFields x) : Option (Word x) :=
  if (m.issue m.pc f).ctrl.branchTaken then some (m.issue m.pc f).ctrl.branchTarget else none

theorem passageRedirect_getD (m : CoreState x) (f : DecodedFields x) :
    (m.passageRedirect f).getD (m.pc + 4#x.bits) = m.passagePc f := by
  rw [CoreState.passagePc, CoreState.passageRedirect]
  split <;> rfl

include running empty

theorem clockCycle_of_fetches (fetched : m.fetches w) : clockCycle m = .ok (m.afterFetch w) := by
  obtain ⟨ifId, idEx, exM, mWb⟩ := (empty_iff m).1 empty
  have going := going_of_fetchEnabled fetched.1
  refine clockCycle_of_evaluate_ok running (evaluate_ok_iff.2 ⟨_, _, _, _,
    fetchStage_of_fetches fetched, decodeStage_of_bubble ifId, executeStage_of_bubble idEx,
    memoryStage_of_bubble exM, ?_⟩)
  simp [clockEdge, nextPc, nextMem, writeBack, endStatus, CoreState.empty, CoreState.afterFetch, ifId,
    idEx, exM, mWb, going]

/-- The cycle of Decode: `stopped` is whether Fetch reads the sentinel in it. -/
theorem clockCycle_afterFetch (going : m.fetchStopped = false)
    (known : formatOf (opcodeOf w) ≠ .Unknown) {stopped : Bool}
    (fetch : fetchStage (m.afterFetch w) = .ok { ifId := none, sawSentinel := stopped }) :
    clockCycle (m.afterFetch w) =
      .ok (m.soloInExecute stopped
        (if stopped then m.pc + 4#x.bits else m.passagePc (fieldsOfWord x w)) (fieldsOfWord x w)) := by
  obtain ⟨ifId, idEx, exM, mWb⟩ := (empty_iff m).1 empty
  have decode : decodeStage (m.afterFetch w) = .ok
      { idEx := some (m.issue m.pc (fieldsOfWord x w))
        redirect := m.passageRedirect (fieldsOfWord x w)
        diag := m.diagWith m.pc (fieldsOfWord x w) } :=
    decodeStage_of_issue (m := m.afterFetch w) (i := ⟨m.pc, w⟩) rfl (decodeFields_of_known known)
  have next : nextPc (m.afterFetch w) { ifId := none, sawSentinel := stopped }
      (m.passageRedirect (fieldsOfWord x w)) =
        if stopped then m.pc + 4#x.bits else m.passagePc (fieldsOfWord x w) := by
    cases stopped
    · exact (nextPc_of_not_held _ (by simp [CoreState.afterFetch, going])).trans
        (passageRedirect_getD m _)
    · exact nextPc_of_held _ (.inr rfl)
  refine clockCycle_of_evaluate_ok running (evaluate_ok_iff.2 ⟨_, _, _, _, fetch, decode,
    executeStage_of_bubble idEx, memoryStage_of_bubble exM, ?_⟩)
  simp only [clockEdge, next]
  simp [nextMem, writeBack, endStatus, CoreState.empty, CoreState.afterFetch, CoreState.soloInExecute,
    ifId, exM, mWb, going]

end Fetched

/-! ## One instruction of sequential execution -/

theorem StagesGive.settled_false {f : DecodedFields x} (going : m.fetchStopped = false)
    (given : StagesGive m f t) : t.settled false (m.passagePc f) = t := by
  have status : (if t.status = .running then .running else t.status) = t.status :=
    ite_eq_right_iff.2 Eq.symm
  obtain ⟨r, -, ⟨out, -, rfl⟩ | ⟨c, -, rfl⟩⟩ := given <;>
    simp_all [CoreState.settled, CoreState.passThrough, CoreState.abandonPassage,
      CoreState.passFields]

theorem StagesGive.betweenInstructions {f : DecodedFields x} (between : m.betweenInstructions)
    (running : m.status = .running) (given : StagesGive m f t) : t.betweenInstructions := by
  obtain ⟨serial, resting⟩ := between
  obtain ⟨r, -, ⟨out, -, rfl⟩ | ⟨c, -, rfl⟩⟩ := given
  · exact ⟨serial, fun _ => resting running⟩
  · exact ⟨serial, fun failed => by simp [CoreState.abandonPassage] at failed⟩

/-- Sequential execution of a word with a known opcode is what the stages give for it. -/
theorem instrWordStep_stagesGive (m : CoreState x) {w : InstrWord} (other : w ≠ m.cfg.sentinel)
    (known : formatOf (opcodeOf w) ≠ .Unknown) :
    ∃ t : CoreState x, instrWordStep w { xlen := x, core := m } = .next { xlen := x, core := t } ∧
      StagesGive m (fieldsOfWord x w) t := by
  cases row : instrOfFields (fieldsOfWord x w) with
  | some i =>
    have decoded : decodeInstr x w = .ok i := decodeInstr_ok_iff.2 ⟨known, row⟩
    obtain ⟨encoded, exists_here⟩ := encode_of_decodeInstr decoded
    subst encoded
    obtain ⟨t, executed, given⟩ := exec_stagesGive m exists_here
    refine ⟨t, ?_, given⟩
    simp only [instrWordStep, classifyWord_of_instr other decoded, executed]
  | none =>
    refine ⟨_, ?_, stagesGive_of_no_row m known row⟩
    simp only [instrWordStep, classifyWord_of_safeNoOp other (decodeInstr_safeNoOp_iff.2 ⟨known, row⟩)]
    rfl

/-- The decode cycle of a word that does not decode. -/
theorem clockCycle_afterFetch_unknown {w : InstrWord} (running : m.status = .running)
    (unknown : formatOf (opcodeOf w) = .Unknown) {fetch : FetchOut x}
    (fetched : fetchStage (m.afterFetch w) = .ok fetch) :
    clockCycle (m.afterFetch w) = .ok (m.abandonInDecode w) := by
  have illegal : decodeStage (m.afterFetch w) = .error (.fatal (.illegalInstruction m.pc w)) := by
    simp only [decodeStage, CoreState.afterFetch, decodeFields_of_unknown unknown]
  exact clockCycle_of_evaluate_fatal running (evaluate_of_decode_error fetched illegal)

/-- A cycle that stops the run answers for every number of cycles after it. -/
theorem stepN_of_stops (n : Nat) (cycled : clockCycle m = .ok t) (stopped : t.status ≠ .running) :
    stepN (n + 1) { xlen := x, core := m } = .next { xlen := x, core := t } := by
  rw [stepN_succ n (step_next_iff.2 cycled), nothingChangesAfterTheEnd x t n stopped]

/-- Reading the sentinel ends the run of an empty machine in that cycle (rules R135, R156). -/
theorem clockCycle_of_readsSentinel (running : m.status = .running) (empty : m.empty = true)
    (read : m.readsSentinel) : clockCycle m = .ok m.endRun := by
  obtain ⟨ifId, idEx, exM, mWb⟩ := (empty_iff m).1 empty
  refine clockCycle_of_evaluate_ok running (evaluate_ok_iff.2 ⟨_, _, _, _,
    fetchStage_of_readsSentinel read, decodeStage_of_bubble ifId, executeStage_of_bubble idEx,
    memoryStage_of_bubble exM, ?_⟩)
  simp [clockEdge, nextPc, nextMem, writeBack, endStatus, CoreState.empty, CoreState.endRun, ifId, idEx,
    exM, mWb]

theorem instrStep_of_not_running (stopped : m.status ≠ .running) :
    instrStep { xlen := x, core := m } = .next { xlen := x, core := m } := by
  unfold instrStep
  cases status : m.status with
  | running => exact absurd status stopped
  | ended => rfl
  | failed c => rfl

/-- In non-pipelined mode five cycles are one instruction of sequential execution (rule R157). -/
theorem stepN_five_eq_instrStep (between : m.betweenInstructions) :
    ∃ t : CoreState x, instrStep { xlen := x, core := m } = .next { xlen := x, core := t } ∧
      stepN 5 { xlen := x, core := m } = .next { xlen := x, core := t } ∧ t.betweenInstructions := by
  by_cases running : m.status = .running
  case neg =>
    exact ⟨m, instrStep_of_not_running running, nothingChangesAfterTheEnd x m 5 running, between⟩
  obtain ⟨serial, resting⟩ := between
  obtain ⟨going, empty⟩ := resting running
  have enabled : m.fetchEnabled = true := by simp [CoreState.fetchEnabled, going, empty]
  have still : ∀ {t : CoreState x}, t.cfg = m.cfg → t.status ≠ .running → t.betweenInstructions :=
    fun cfg stopped => ⟨cfg ▸ serial, fun run => absurd run stopped⟩
  simp only [instrStep, running]
  cases read : m.fetchWord with
  | error c =>
    have fetch : fetchStage m = .error (.fatal c) := by simp only [fetchStage, enabled, read, if_true]
    have stopped : (m.raise c).status ≠ .running := by simp [CoreState.raise]
    exact ⟨_, rfl, stepN_of_stops 4 (clockCycle_of_evaluate_fatal running
      (evaluate_of_fetch_error fetch)) stopped, still rfl stopped⟩
  | ok w =>
    by_cases sentinel : w = m.cfg.sentinel
    · have ended := clockCycle_of_readsSentinel running empty ⟨enabled, sentinel ▸ read⟩
      have stopped : m.endRun.status ≠ .running := by simp [CoreState.endRun]
      refine ⟨m.endRun, ?_, stepN_of_stops 4 ended stopped, still rfl stopped⟩
      simp only [instrWordStep, classifyWord_eq_sentinel_iff.2 sentinel]
      rfl
    have fetched : clockCycle m = .ok (m.afterFetch w) :=
      clockCycle_of_fetches running empty ⟨enabled, read, sentinel⟩
    have idle : (m.afterFetch w).fetchEnabled = false :=
      fetchEnabled_of_busy (by simp [CoreState.empty, CoreState.afterFetch]) (.inr serial)
    have no_fetch := fetchStage_of_disabled idle
    rw [stepN_succ 4 (step_next_iff.2 fetched)]
    by_cases known : formatOf (opcodeOf w) = .Unknown
    · have stopped : (m.abandonInDecode w).status ≠ .running := by simp [CoreState.abandonInDecode]
      refine ⟨m.abandonInDecode w, ?_, stepN_of_stops 3
        (clockCycle_afterFetch_unknown running known no_fetch) stopped, still rfl stopped⟩
      simp only [instrWordStep, classifyWord_of_unknown sentinel known]
      rfl
    · obtain ⟨t, executed, given⟩ := instrWordStep_stagesGive m sentinel known
      refine ⟨t, executed, ?_, given.betweenInstructions ⟨serial, resting⟩ running⟩
      have issued := clockCycle_afterFetch running empty going known no_fetch
      rw [if_neg Bool.false_ne_true] at issued
      rw [stepN_succ 3 (step_next_iff.2 issued), stepN_soloInExecute running empty (.inr serial) given,
        given.settled_false going]

theorem stepN_add (a b : Nat) (s : State) :
    stepN (a + b) s = match stepN a s with
      | .next t => stepN b t
      | .fault f => .fault f
      | .refused r => .refused r := by
  induction a generalizing s with
  | zero => rw [Nat.zero_add]; rfl
  | succ a ih =>
    rw [Nat.succ_add]
    simp only [stepN]
    cases step s <;> simp only [ih]

/-- Settles O57: five cycles are one instruction, by induction on the number of instructions. -/
theorem nonPipelinedCyclesAreSequentialExecution :
    Obligations.NonPipelinedCyclesAreSequentialExecution := by
  unfold Obligations.NonPipelinedCyclesAreSequentialExecution
  intro n x m between
  induction n generalizing m with
  | zero => rfl
  | succ n ih =>
    obtain ⟨t, executed, cycled, between'⟩ := stepN_five_eq_instrStep between
    rw [Nat.mul_succ, Nat.add_comm, stepN_add, cycled]
    simp only [instrRun, executed, ih t between']

/-- Settles O59: Fetch reads the sentinel while the instruction is in Decode, and the three cycles from
`ID_EX` on do the rest. -/
theorem oneInstructionProgramEndsInFiveCycles : Obligations.OneInstructionProgramEndsInFiveCycles := by
  unfold Obligations.OneInstructionProgramEndsInFiveCycles
  intro x m i w running pipelined empty fetched decoded sentinel
  obtain ⟨known, -⟩ := decodeInstr_ok_iff.1 decoded
  obtain ⟨rfl, exists_here⟩ := encode_of_decodeInstr decoded
  obtain ⟨t, executed, given⟩ := exec_stagesGive m exists_here
  have going := going_of_fetchEnabled fetched.1
  have stops : (m.afterFetch (encode i)).readsSentinel :=
    ⟨by simp [CoreState.fetchEnabled, CoreState.afterFetch, pipelined, going], sentinel⟩
  have issued := clockCycle_afterFetch running empty going known (fetchStage_of_readsSentinel stops)
  refine ⟨t, executed, ?_⟩
  rw [stepN_succ 4 (step_next_iff.2 (clockCycle_of_fetches running empty fetched)),
    stepN_succ 3 (step_next_iff.2 issued)]
  exact stepN_soloInExecute running empty (.inl rfl) given

end Sys2Proof.Machine
end

section
/-!
The steps of the host that run one decoded instruction (`43_pipeline.md` sections 7 to 9), settled.
-/

namespace Sys2Proof.Machine

variable {x : XLen} {m : CoreState x} {i : Instr} {w : InstrWord}

/-! ## A word and its bytes (rule R30) -/

/-- Byte `k` of an instruction word. -/
def instrByte (w : InstrWord) (k : Nat) : Byte := w.extractLsb' (8 * k) 8

theorem bytesOfWord_getElem? {k : Nat} (inside : k < 4) :
    (bytesOfWord w)[k]? = some (instrByte w k) := by
  interval_cases k <;> rfl

theorem ofNat_bytesValue_instrByte (w : InstrWord) :
    BitVec.ofNat 32 (bytesValue (instrByte w) 4) = w := by
  apply BitVec.eq_of_toNat_eq
  have bound := w.isLt
  simp only [BitVec.toNat_ofNat, bytesValue, instrByte, BitVec.extractLsb'_toNat,
    Nat.shiftRight_eq_div_pow, Finset.sum_range_succ, Finset.sum_range_zero]
  omega

/-! ## Reading back a placed word (log entry 14) -/

theorem readByte_placeWord (cfg : Config) (mem : List Host.Cell) {a : Nat}
    (held : ∀ k, k < 4 → holdsAddr cfg (a + k) = true) {k : Nat} (inside : k < 4) :
    readByte cfg (placeWord mem a w) (a + k) = some (instrByte w k) := by
  have first : holdsAddr cfg a = true := held 0 (by decide)
  have here := held k inside
  rw [placeWord]
  interval_cases k <;> simp [readByte_writeByte, here, first, instrByte]

theorem alignDown4_aligned (a : Word x) : (alignDown4 a).toNat % 4 = 0 := by
  have three : (3#x.bits).setWidth 2 = BitVec.allOnes 2 := by cases x <;> rfl
  have low : (alignDown4 a).setWidth 2 = 0#2 := by
    rw [alignDown4, BitVec.setWidth_and, BitVec.setWidth_not (by have := x.bits_ge; omega), three,
      BitVec.not_allOnes, BitVec.and_zero]
  simpa using congrArg BitVec.toNat low

theorem tableWord_toNat (w : InstrWord) : tableWord 32 w.toNat = w := by
  rw [tableWord, Nat.mod_eq_of_lt w.isLt, BitVec.ofNat_toNat, BitVec.setWidth_eq]

theorem withRange_sentinel (cfg : Config) (base size : Nat) :
    (Config.withRange cfg base size).sentinel = cfg.sentinel := by
  unfold Config.withRange
  split <;> rfl

theorem readByte_withWordAtPc (m : CoreState x) (w : InstrWord) {k : Nat} (inside : k < 4) :
    readByte (m.withWordAtPc w).cfg (m.withWordAtPc w).mem ((m.withWordAtPc w).pc.toNat + k) =
      (bytesOfWord w)[k]? := by
  rw [bytesOfWord_getElem? inside]
  exact readByte_placeWord _ _ (fun _ => (holdsAddr_withRange m.cfg _ 4).2 _) inside

/-! ## The step that is a `run()` (rule R155) -/

/-- A `run()` of `n` cycles is `n` cycles: after the last one of the run nothing changes. -/
theorem step_run_eq_stepN (n : Nat) (m : CoreState x) :
    step { xlen := x, core := m, call := .run n } = stepN n { xlen := x, core := m } := by
  induction n generalizing m with
  | zero => rfl
  | succ n ih =>
    rw [step_run_succ]
    cases cycled : clockCycle m with
    | error fault => simp [stepN, step, hostCall, cycled]
    | ok t =>
      rw [stepN_succ n (step_next_iff.2 cycled)]
      by_cases running : t.status = .running
      · simp only [running, if_true, ih]
      · simp only [running, if_false, nothingChangesAfterTheEnd x t n running]

/-- An instruction's meaning does not depend on the host's call. -/
theorem exec_call (i : Instr) (m : CoreState x) (call : HostCall) :
    exec i { xlen := x, core := m, call := call } = exec i { xlen := x, core := m } := by
  cases i <;> rfl

/-! ## Where the bytes at `pc` are an instruction's -/

section Bytes
variable (running : m.status = .running) (between : m.betweenInstructions)
  (exists_here : i.wellFormed x = true) (other : encode i ≠ m.cfg.sentinel)
  (aligned : m.pc.toNat % 4 = 0)
  (bytes : ∀ k, k < 4 → readByte m.cfg m.mem (m.pc.toNat + k) = (encodeBytes i)[k]?)
include running exists_here other aligned bytes

theorem instrStep_eq_exec :
    instrStep { xlen := x, core := m } = exec i { xlen := x, core := m } := by
  have read : m.fetchWord = .ok (encode i) :=
    (fetchWord_of_bytes aligned fun k inside =>
      (bytes k inside).trans (bytesOfWord_getElem? inside)).trans
        (congrArg _ (ofNat_bytesValue_instrByte _))
  simp only [instrStep, running, read, instrWordStep,
    classifyWord_of_instr other (decodeInstr_encode exists_here)]

include between

theorem stepN_five_eq_exec :
    stepN 5 { xlen := x, core := m } = exec i { xlen := x, core := m } := by
  obtain ⟨t, executed, cycled, -⟩ := stepN_five_eq_instrStep between
  rw [cycled, ← executed, instrStep_eq_exec running exists_here other aligned bytes]

end Bytes

/-- Settles O56: five cycles are one instruction of sequential execution, and a placed word meets the
conditions under which they run it. -/
theorem stepsRunTheDecodedInstruction : Obligations.StepsRunTheDecodedInstruction := by
  unfold Obligations.StepsRunTheDecodedInstruction
  constructor
  · intro x m i running between exists_here other aligned bytes
    have five := stepN_five_eq_exec running between exists_here other aligned bytes
    exact ⟨instrStep_eq_exec running exists_here other aligned bytes, five,
      (step_run_eq_stepN 5 m).trans five⟩
  · intro s i exists_here other
    rw [State.withFetchWord, tableWord_toNat, exec_call]
    refine (step_run_eq_stepN 5 _).trans (stepN_five_eq_exec rfl
      (withWordAtPc_betweenInstructions _ _) exists_here ?_ (alignDown4_aligned _)
      fun k inside => readByte_withWordAtPc _ _ inside)
    rwa [withWordAtPc_cfg, withRange_sentinel]

end Sys2Proof.Machine
end

section
/-!
An instruction behind a pipeline that drains (`70_reset_and_hazards.md` section 3), settled.
-/

namespace Sys2Proof.Machine

variable {x : XLen} {m t u v : CoreState x} {f : FetchOut x} {d : DecodeOut x}
  {e : Option (ExM x)} {o : MemoryOut x} {r : RegIndex}

/-! ## The registers that the instructions in flight will write (rule R286) -/

/-- A bundle's register write does not depend on the operands. -/
theorem regWrite_generate_congr (g : DecodedFields x) (pc a b a' b' : Word x) :
    (generate g pc a b).regWrite = (generate g pc a' b').regWrite := by
  by_cases known : formatOf g.opcode = .Unknown
  · simp only [generate_of_unknown known]
  rcases opcode_of_known known with h | h | h | h | h | h | h | h | h
  · simp only [generate_op _ _ _ h]
  · simp only [generate_opImm _ _ _ h]
  · simp only [generate_load _ _ _ h]
  · simp only [generate_store _ _ _ h]
  · simp only [regWrite_generate_of_S_or_B _ _ _ (show g.opcode ∈ [0x23#7, 0x63#7] by simp [h])]
  · simp only [generate_lui _ _ _ h]
  · simp only [generate_auipc _ _ _ h]
  · simp only [generate_jal _ _ _ h]
  · simp only [generate_jalr _ _ _ h]
    split <;> rfl

def CoreState.ifIdWrites (m : CoreState x) : List RegIndex :=
  m.ifId.elim [] fun i =>
    match decodeFields x i.word with
    | .error _ => []
    | .ok g => pendingWrite g (generate g i.pc 0#x.bits 0#x.bits)

def CoreState.idExWrites (m : CoreState x) : List RegIndex :=
  m.idEx.elim [] fun i => pendingWrite i.fields i.ctrl

def CoreState.exMWrites (m : CoreState x) : List RegIndex :=
  m.exM.elim [] fun i => pendingWrite i.fields i.ctrl

def CoreState.mWbWrites (m : CoreState x) : List RegIndex :=
  m.mWb.elim [] fun i => if i.ctrl.regWrite && i.rd != 0#5 then [i.rd] else []

theorem pendingWrites_eq (m : CoreState x) :
    m.pendingWrites = m.ifIdWrites ++ m.idExWrites ++ m.exMWrites := by
  unfold CoreState.pendingWrites CoreState.ifIdWrites CoreState.idExWrites CoreState.exMWrites
  cases m.ifId <;> cases m.idEx <;> cases m.exM <;> rfl

section Shift
variable (cycle : CycleTo m t f d e o)
include cycle

theorem CycleTo.mWbWrites : t.mWbWrites = m.exMWrites := by
  rw [cycle.edge, CoreState.mWbWrites, clockEdge_mWb, CoreState.exMWrites]
  rcases memoryStage_ok cycle.memory with ⟨bubble, rfl⟩ | ⟨_, _, _, valid, -, -, rfl⟩
  · rw [bubble]; rfl
  · rw [valid]; rfl

theorem CycleTo.exMWrites : t.exMWrites = m.idExWrites := by
  rw [cycle.edge, CoreState.exMWrites, clockEdge_exM, CoreState.idExWrites]
  rcases executeStage_ok cycle.execute with ⟨bubble, rfl⟩ | ⟨_, _, _, _, valid, -, -, rfl⟩
  · rw [bubble]; rfl
  · rw [valid]; rfl

theorem CycleTo.idExWrites : t.idExWrites = m.ifIdWrites := by
  have decode := cycle.decode
  rw [cycle.edge, CoreState.idExWrites, clockEdge_idEx, CoreState.ifIdWrites]
  rcases decodeStage_cases m with ⟨bubble, issues⟩ | ⟨_, _, _, fails⟩ | ⟨i, valid, _, decoded, issues⟩
  · rw [issues] at decode
    rw [bubble, ← Except.ok.inj decode]
    rfl
  · simp [fails] at decode
  · rw [issues] at decode
    rw [valid, ← Except.ok.inj decode]
    simp only [Option.elim_some, decoded, decodeIssue_idEx, pendingWrite]
    rw [issue_ctrl, regWrite_generate_congr _ _ _ _ 0#x.bits 0#x.bits]
    rfl

/-- A register that WriteBack is not about to write reads the same in the next cycle. -/
theorem CycleTo.readReg (spared : r ∉ m.mWbWrites) : t.readReg r = m.readReg r := by
  rw [cycle.edge, clockEdge_readReg]
  cases valid : m.mWb with
  | none => rw [writeBack_none valid]
  | some i =>
    by_cases zero : r = 0#5
    · simp [zero]
    refine readReg_writeBack_of_other valid ?_
    by_contra! writes
    obtain ⟨rfl, writes⟩ := writes
    simp [CoreState.mWbWrites, valid, zero, writes] at spared

end Shift

/-- What Decode issues depends on the registers that the fields read. -/
theorem issue_congr {g : DecodedFields x} (same : ∀ r, readsReg g r = true → t.readReg r = m.readReg r)
    (pc : Word x) : t.issue pc g = m.issue pc g := by
  have first : t.operand1 g = m.operand1 g := by
    unfold CoreState.operand1
    split
    · next reads => exact same _ (by simp [readsReg, reads])
    · rfl
  have second : t.operand2 g = m.operand2 g := by
    unfold CoreState.operand2
    split
    · next reads => exact same _ (by simp [readsReg, reads])
    · rfl
  rw [CoreState.issue, CoreState.issue, first, second]

/-! ## The drain without the instruction -/

/-- Fetch has stopped, and the core still runs or has nothing left. -/
def CoreState.draining (m : CoreState x) : Prop :=
  m.fetchStopped = true ∧ (m.status = .running ∨ m.status = .ended ∧ m.empty = true)

/-- A core that has ended empty goes through a cycle unchanged. -/
theorem cycleTo_self (stopped : m.fetchStopped = true) (ended : m.status = .ended)
    (empty : m.empty = true) :
    CycleTo m m { ifId := none, sawSentinel := false } { idEx := none, redirect := none, diag := m.diag }
      none { mWb := none, store := none } := by
  obtain ⟨ifId, idEx, exM, mWb⟩ := (empty_iff m).1 empty
  refine ⟨fetchStage_of_disabled (fetchEnabled_of_stopped stopped), decodeStage_of_bubble ifId,
    executeStage_of_bubble idEx, memoryStage_of_bubble exM, ?_⟩
  cases m
  simp_all [clockEdge, nextPc, nextMem, writeBack, endStatus, CoreState.empty]

/-- Each step of a drain that ends normally is a cycle that is not abandoned. -/
theorem exists_drainCycle {n : Nat} (draining : m.draining)
    (run : stepN (n + 1) { xlen := x, core := m } = .next { xlen := x, core := t })
    (ended : t.status = .ended) :
    ∃ u d e o, CycleTo m u { ifId := none, sawSentinel := false } d e o ∧ u.draining ∧
      stepN n { xlen := x, core := u } = .next { xlen := x, core := t } := by
  obtain ⟨stopped, status⟩ := draining
  obtain ⟨u, cycled, rest⟩ := stepN_cases run
  rcases clockCycle_ok_cases cycled with ⟨halted, rfl⟩ | ⟨running, f, d, e, o, cycle⟩ | ⟨-, c, -, rfl⟩
  · obtain ⟨ended, empty⟩ := status.resolve_left halted
    exact ⟨u, _, _, _, cycleTo_self stopped ended empty, ⟨stopped, .inr ⟨ended, empty⟩⟩, rest⟩
  · have fetch := cycle.fetch
    rw [fetchStage_of_disabled (fetchEnabled_of_stopped stopped)] at fetch
    cases fetch
    refine ⟨u, d, e, o, cycle, ⟨by simp [cycle.edge, stopped], ?_⟩, rest⟩
    rcases cycle.status running with ⟨ended, -, empty⟩ | ⟨running, -⟩
    · exact .inr ⟨ended, empty⟩
    · exact .inl running
  · rw [nothingChangesAfterTheEnd x _ n (by simp [CoreState.raise])] at rest
    cases rest
    simp [CoreState.raise] at ended

/-! ## The drain with the instruction behind it

`u` is the core of the drain without the instruction; its `pc` and its count of cycles differ. -/

section Behind
variable (u) (pc : Word x) (c : Nat)

/-- The instruction stands in `IF_ID`. -/
def CoreState.withDecode (i : IfId x) : CoreState x :=
  { u with pc := pc, cycles := c, status := .running, ifId := some i }

/-- The instruction stands in `ID_EX`. -/
def CoreState.withExecute (i : IdEx x) : CoreState x :=
  { u with
    pc := pc, cycles := c, status := .running, idEx := some i
    instructionsIssued := u.instructionsIssued + 1
    diag := u.diagWith i.pc i.fields }

/-- The instruction stands in `EX_M`. -/
def CoreState.withMemory (i : ExM x) : CoreState x :=
  { u with
    pc := pc, cycles := c, status := .running, exM := some i
    instructionsIssued := u.instructionsIssued + 1
    diag := u.diagWith i.pc i.fields }

/-- The instruction stands in `M_WB`, Memory having answered `out`. -/
def CoreState.withWriteBack (i : ExM x) (out : MemoryOut x) : CoreState x :=
  { u with
    pc := pc, cycles := c, status := .running, mWb := out.mWb, mem := nextMem u out.store
    instructionsIssued := u.instructionsIssued + 1
    diag := u.diagWith i.pc i.fields }

end Behind

theorem executeStage_congr (idEx : t.idEx = m.idEx) : executeStage t = executeStage m := by
  simp only [executeStage, idEx]

theorem nextMem_congr (mem : t.mem = m.mem) (store : Option (PendingStore x)) :
    nextMem t store = nextMem m store := by
  cases store
  · exact mem
  · exact congrArg (fun mem => dmemWrite mem _ _ _) mem

/-- A cycle in which Fetch has stopped and that leaves something in flight. -/
theorem clockCycle_of_stopped {redirect : Option (Word x)} {idEx : Option (IdEx x)}
    {diag : List (DiagLine x)} (running : m.status = .running) (stopped : m.fetchStopped = true)
    (busy : m.empty = false) (left : (idEx.isSome || e.isSome || o.mWb.isSome) = true)
    (decode : decodeStage m = .ok { idEx := idEx, redirect := redirect, diag := diag })
    (execute : executeStage m = .ok e) (memory : memoryStage m = .ok o) :
    clockCycle m = .ok
      { m with
        regs := (writeBack m).regs, mem := nextMem m o.store
        ifId := none, idEx := idEx, exM := e, mWb := o.mWb
        instructionsIssued := m.instructionsIssued + m.ifId.isSome.toNat
        instructionsCompleted := m.instructionsCompleted + m.mWb.isSome.toNat
        cycles := m.cycles + 1
        diag := diag } := by
  refine clockCycle_of_evaluate_ok running (evaluate_ok_iff.2 ⟨_, _, _, _,
    fetchStage_of_disabled (fetchEnabled_of_stopped stopped), decode, execute, memory, ?_⟩)
  simp only [clockEdge, nextPc_of_held _ (.inl stopped), busy, endStatus, stopped]
  simp only [CoreState.empty, running]
  revert left
  cases idEx <;> cases e <;> cases o.mWb <;> simp

section BehindCycles
variable {pc : Word x} {c : Nat} (cycle : CycleTo u v { ifId := none, sawSentinel := false } d e o)
  (stopped : u.fetchStopped = true) (ifId : u.ifId = none)
include cycle stopped ifId

theorem CycleTo.withDecode {i : IfId x} {g : DecodedFields x}
    (decoded : decodeFields x i.word = .ok g) :
    clockCycle (u.withDecode pc c i) = .ok (v.withExecute pc (c + 1) (u.issue i.pc g)) := by
  have bubble := (decodeStage_of_bubble ifId).symm.trans cycle.decode
  cases bubble
  rw [clockCycle_of_stopped (m := u.withDecode pc c i) rfl stopped rfl rfl
    (decodeStage_of_issue (m := u.withDecode pc c i) rfl decoded)
    ((executeStage_congr rfl).trans cycle.execute)
    ((memoryStage_congr (m := u) rfl rfl rfl rfl).trans cycle.memory)]
  have regs : (writeBack (u.withDecode pc c i)).regs = (writeBack u).regs :=
    writeBack_regs_congr rfl rfl
  have mem := nextMem_congr (t := u.withDecode pc c i) (m := u) rfl o.store
  simp only [regs, mem, cycle.edge]
  simp only [CoreState.withDecode, stopped, Option.isSome_some, Bool.toNat_true, CoreState.withExecute,
    clockEdge, Bool.or_false, ifId, Option.isSome_none, Bool.toNat_false, add_zero, Bool.false_or,
    Except.ok.injEq, CoreState.mk.injEq, Option.some.injEq, true_and]
  exact ⟨rfl, rfl⟩

theorem CycleTo.withExecute (idEx : u.idEx = none) {i : IdEx x} {a : Word x}
    (computed : i.computes a) :
    clockCycle (u.withExecute pc c i) = .ok (v.withMemory pc (c + 1) (i.withResult a)) := by
  cases (decodeStage_of_bubble ifId).symm.trans cycle.decode
  cases (executeStage_of_bubble idEx).symm.trans cycle.execute
  rw [clockCycle_of_stopped (m := u.withExecute pc c i) rfl stopped
    (by simp [CoreState.empty, CoreState.withExecute]) rfl (decodeStage_of_bubble ifId)
    (executeStage_of_computes rfl computed)
    ((memoryStage_congr (m := u) rfl rfl rfl rfl).trans cycle.memory)]
  have regs : (writeBack (u.withExecute pc c i)).regs = (writeBack u).regs :=
    writeBack_regs_congr rfl rfl
  have mem := nextMem_congr (t := u.withExecute pc c i) (m := u) rfl o.store
  simp only [regs, mem, cycle.edge]
  simp only [CoreState.withExecute, ifId, stopped, Option.isSome_none, Bool.toNat_false, add_zero,
    CoreState.withMemory, clockEdge, Bool.or_false, Bool.false_or, Except.ok.injEq, CoreState.mk.injEq,
    true_and]
  exact rfl

theorem CycleTo.withMemory (idEx : u.idEx = none) (exM : u.exM = none) {a : ExM x} {out : MemoryOut x}
    (answer : u.access a = .ok out) :
    clockCycle (u.withMemory pc c a) = .ok (v.withWriteBack pc (c + 1) a out) := by
  cases (decodeStage_of_bubble ifId).symm.trans cycle.decode
  cases (executeStage_of_bubble idEx).symm.trans cycle.execute
  cases (memoryStage_of_bubble exM).symm.trans cycle.memory
  rw [clockCycle_of_stopped (m := u.withMemory pc c a) rfl stopped
    (by simp [CoreState.empty, CoreState.withMemory]) (by simp [access_mWb_isSome answer])
    (decodeStage_of_bubble ifId) (executeStage_of_bubble idEx)
    ((memoryStage_of_exM rfl).trans ((access_congr (m := u) rfl rfl a).trans answer))]
  have regs : (writeBack (u.withMemory pc c a)).regs = (writeBack u).regs :=
    writeBack_regs_congr rfl rfl
  have mem := nextMem_congr (t := u.withMemory pc c a) (m := u) rfl out.store
  simp only [regs, mem, cycle.edge]
  simp only [CoreState.withMemory, ifId, stopped, Option.isSome_none, Bool.toNat_false, add_zero,
    CoreState.withWriteBack, clockEdge, Bool.or_false, Bool.false_or, Except.ok.injEq, CoreState.mk.injEq,
    true_and]
  exact ⟨nextMem_congr rfl out.store, rfl⟩

omit cycle in
theorem clockCycle_withMemory_refused (idEx : u.idEx = none) {a : ExM x} {condition : Condition x}
    (answer : u.access a = .error (.fatal condition)) :
    clockCycle (u.withMemory pc c a) = .ok ((u.withMemory pc c a).raise condition) :=
  clockCycle_of_evaluate_fatal rfl (evaluate_of_memory_error
    (fetchStage_of_disabled (fetchEnabled_of_stopped stopped)) (decodeStage_of_bubble ifId)
    (executeStage_of_bubble idEx)
    ((memoryStage_of_exM rfl).trans ((access_congr (m := u) rfl rfl a).trans answer)))

end BehindCycles

/-- The last cycle: nothing is in flight but the instruction in `M_WB`. -/
theorem clockCycle_withWriteBack {pc : Word x} {c : Nat} (stopped : u.fetchStopped = true)
    (empty : u.empty = true) {a : ExM x} {out : MemoryOut x} (moved : out.mWb.isSome = true) :
    clockCycle (u.withWriteBack pc c a out) = .ok
      { u with
        pc := pc, cycles := c + 1, status := .ended
        mem := nextMem u out.store, regs := (writeBack { u with mWb := out.mWb }).regs
        instructionsIssued := u.instructionsIssued + 1
        instructionsCompleted := u.instructionsCompleted + 1
        diag := u.diagWith a.pc a.fields } := by
  obtain ⟨ifId, idEx, exM, mWb⟩ := (empty_iff u).1 empty
  refine clockCycle_of_evaluate_ok rfl (evaluate_ok_iff.2 ⟨_, _, _, _,
    fetchStage_of_disabled (fetchEnabled_of_stopped stopped), decodeStage_of_bubble ifId,
    executeStage_of_bubble idEx, memoryStage_of_bubble exM, ?_⟩)
  have regs : (writeBack (u.withWriteBack pc c a out)).regs =
      (writeBack { u with mWb := out.mWb }).regs := writeBack_regs_congr rfl rfl
  simp only [clockEdge, regs]
  simp [nextPc, nextMem, endStatus, CoreState.empty, CoreState.withWriteBack, ifId, idEx, exM, mWb, moved,
    stopped]

/-! ## The two drains together -/

/-- The cycle that fetches the instruction, and Fetch stopped after it: the drain with the instruction in
`IF_ID`. -/
theorem CycleTo.stopFetch {w : InstrWord} (running : m.status = .running) (fetched : m.fetches w)
    (cycle : CycleTo m.stopFetch u { ifId := none, sawSentinel := false } d e o) :
    ∃ t, clockCycle m = .ok t ∧ t.stopFetch = u.withDecode t.pc t.cycles { pc := m.pc, word := w } := by
  have going := going_of_fetchEnabled fetched.1
  refine ⟨_, clockCycle_of_evaluate_ok running (evaluate_ok_iff.2 ⟨_, d, e, o,
    fetchStage_of_fetches fetched, cycle.decode, cycle.execute,
    (memoryStage_congr (t := m) (m := m.stopFetch) rfl rfl rfl rfl).trans cycle.memory, rfl⟩), ?_⟩
  have regs : (writeBack m.stopFetch).regs = (writeBack m).regs := writeBack_regs_congr rfl rfl
  have mem := nextMem_congr (t := m.stopFetch) (m := m) rfl o.store
  rw [cycle.edge]
  simp only [clockEdge, regs, mem]
  simp [CoreState.stopFetch, CoreState.withDecode, endStatus, CoreState.empty, going, running]

theorem CycleTo.idEx_eq_none (cycle : CycleTo m t f d e o) (bubble : m.ifId = none) :
    t.idEx = none := by
  simpa [bubble] using cycle.idEx_isSome

theorem CycleTo.exM_eq_none (cycle : CycleTo m t f d e o) (bubble : m.idEx = none) :
    t.exM = none := by
  simpa [bubble] using cycle.exM_isSome

section Reads
variable {u1 u2 u3 u4 : CoreState x} {f0 f1 f2 f3 : FetchOut x} {d0 d1 d2 d3 : DecodeOut x}
  {e0 e1 e2 e3 : Option (ExM x)} {o0 o1 o2 o3 : MemoryOut x}

/-- A register without a pending write reads the same when the drain is over as when the instruction
reads it (rule R286). -/
theorem readReg_of_drained (cycle0 : CycleTo m u1 f0 d0 e0 o0) (cycle1 : CycleTo u1 u2 f1 d1 e1 o1)
    (cycle2 : CycleTo u2 u3 f2 d2 e2 o2) (cycle3 : CycleTo u3 u4 f3 d3 e3 o3)
    (spared : r ∉ m.pendingWrites) : u4.readReg r = u1.readReg r := by
  simp only [pendingWrites_eq, List.mem_append, not_or] at spared
  obtain ⟨⟨first, second⟩, third⟩ := spared
  rw [cycle3.readReg, cycle2.readReg, cycle1.readReg]
  · rwa [cycle0.mWbWrites]
  · rwa [cycle1.mWbWrites, cycle0.exMWrites]
  · rwa [cycle2.mWbWrites, cycle1.exMWrites, cycle0.idExWrites]

end Reads

/-- Settles O58: the pipeline with the instruction drains as the one without it, one stage ahead of the
instruction, which reads what the drained core would give it. -/
theorem hazardFreeInstructionsRunAsInSequence : Obligations.HazardFreeInstructionsRunAsInSequence := by
  unfold Obligations.HazardFreeInstructionsRunAsInSequence
  intro x m m' u4 d' i w running pipelined fetched decoded hazardFree stepped run ended run'
  obtain ⟨known, -⟩ := decodeInstr_ok_iff.1 decoded
  obtain ⟨rfl, exists_here⟩ := encode_of_decodeInstr decoded
  obtain ⟨u1, d0, e0, o0, cycle0, draining1, run⟩ :=
    exists_drainCycle (m := m.stopFetch) ⟨rfl, .inl running⟩ run ended
  obtain ⟨u2, d1, e1, o1, cycle1, draining2, run⟩ := exists_drainCycle draining1 run ended
  obtain ⟨u3, d2, e2, o2, cycle2, draining3, run⟩ := exists_drainCycle draining2 run ended
  obtain ⟨u, d3, e3, o3, cycle3, draining4, run⟩ := exists_drainCycle draining3 run ended
  cases run
  have pc : u4.pc = m.pc := by
    simp [cycle3.edge, cycle2.edge, cycle1.edge, cycle0.edge, nextPc, CoreState.stopFetch]
  have ifId1 := cycle0.ifId_of_stopped rfl
  have ifId2 := cycle1.ifId_of_stopped draining1.1
  have ifId3 := cycle2.ifId_of_stopped draining2.1
  have idEx2 := cycle1.idEx_eq_none ifId1
  have idEx3 := cycle2.idEx_eq_none ifId2
  have exM3 := cycle2.exM_eq_none idEx2
  have empty : u4.empty = true := by simpa [ended] using draining4.2
  have issue : u1.issue m.pc (i.fields x) = u4.issue u4.pc (i.fields x) := by
    rw [pc]
    refine issue_congr (fun r reads =>
      (readReg_of_drained cycle0 cycle1 cycle2 cycle3 fun pending => ?_).symm) _
    have spares := List.all_eq_true.1 hazardFree r pending
    simp [reads] at spares
  have access : ∀ a, u3.access a = u4.access a := fun a => by
    cases (memoryStage_of_bubble exM3).symm.trans cycle3.memory
    exact (access_congr (by rw [cycle3.edge]; rfl) (by rw [cycle3.edge]; rfl) a).symm
  obtain ⟨t, cycled, start⟩ := cycle0.stopFetch running fetched
  cases (step_next_iff.1 stepped).symm.trans cycled
  obtain ⟨e, executed, r, computed, memory⟩ := exec_stagesGive u4 exists_here
  refine ⟨e, executed, ?_⟩
  rw [start, stepN_succ 3 (step_next_iff.2 (cycle1.withDecode draining1.1 ifId1
      (decodeFields_of_known known))), ← Instr.fields, issue,
    stepN_succ 2 (step_next_iff.2 (cycle2.withExecute draining2.1 ifId2 idEx2 computed))] at run'
  rcases memory with ⟨out, answer, rfl⟩ | ⟨c, answer, rfl⟩
  · rw [stepN_succ 1 (step_next_iff.2 (cycle3.withMemory draining3.1 ifId3 idEx3 exM3
        ((access _).trans answer))),
      stepN_succ 0 (step_next_iff.2 (clockCycle_withWriteBack draining4.1 empty
        (access_mWb_isSome answer)))] at run'
    cases run'
    exact ⟨iff_of_true ended rfl, fun _ => ⟨rfl, rfl, rfl, rfl, rfl⟩⟩
  · rw [stepN_of_stops 1 (clockCycle_withMemory_refused draining3.1 ifId3 idEx3
      ((access _).trans answer)) (by simp [CoreState.raise])] at run'
    cases run'
    simp [CoreState.abandonPassage, CoreState.raise]

end Sys2Proof.Machine
end
